-- ==== Sys2Proof/Word.lean ====
section
/-! DEFINITION. The 32-bit word and the channel number: the plainest types of mdcore. Every datum in every
space and on every port is a 32-bit word (20_memory.md R51). -/

namespace Sys2Proof

/-- A 32-bit word. A binary32 value is written as its bit pattern (00_scope.md R8): sign at bit 31, biased
exponent at bits 30:23, fraction at bits 22:0. -/
abbrev Word := BitVec 32

/-- The channel operand (30_encoding.md R82): channel 0 is primary, channel 1 is quadrature. -/
inductive Ch where
  | primary
  | quadrature
deriving DecidableEq, Repr

/-- `o = 1 − CH`, "the other channel" (00_scope.md R15). -/
def Ch.other : Ch → Ch
  | .primary => .quadrature
  | .quadrature => .primary

/-- The channel that a value of the `CH` bit names (30_encoding.md R82). -/
def Ch.ofBit : Bool → Ch
  | false => .primary
  | true => .quadrature

/-- The `CH` bit of a channel (30_encoding.md R82). -/
def Ch.bit : Ch → Bool
  | .primary => false
  | .quadrature => true

end Sys2Proof
end

