-- ==== Sys2Proof/Syntax.lean ====
section
/-! DEFINITION. The commands of mdcore, one constructor for each row of spec/opcode_table.json, and the 96-bit
command word (30_encoding.md R74 to R80). Operands are the data words as they are (R77): a `Word` read as binary32
or as u32. -/

namespace Sys2Proof

/-- A command: CTRL, DATA0 and DATA1, three parallel 32-bit words (30_encoding.md R74, R78). -/
structure Command where
  ctrl : Word
  data0 : Word
  data1 : Word
deriving DecidableEq, Repr

/-- A decoded command with its operands (30_encoding.md R77, R80). -/
inductive Instr where
  /-- NOP, form `none` (R139). -/
  | nop
  /-- OSC_FREQ, form `f` (R98). -/
  | oscFreq (freq : Word)
  /-- OSC_WAVE, form `u` (R100). -/
  | oscWave (sel : Word)
  /-- OSC_GEN, form `c` (R102). -/
  | oscGen (ch : Ch)
  /-- OSC_GENU, form `c` (R103). -/
  | oscGenu (ch : Ch)
  /-- OSC_QUAD, form `none` (R104). -/
  | oscQuad
  /-- OSC_UNISON, form `none` (R105). -/
  | oscUnison
  /-- OSC_INV, form `none` (R106). -/
  | oscInv
  /-- DL_OFS, form `cf` (R111). -/
  | dlOfs (ch : Ch) (ms : Word)
  /-- DL_UPD, form `cf` (R113). -/
  | dlUpd (ch : Ch) (xn : Word)
  /-- DL_UPDX, form `cf` (R114). -/
  | dlUpdx (ch : Ch) (xn : Word)
  /-- DL_UPDE, form `cff` (R115). -/
  | dlUpde (ch : Ch) (xn ext : Word)
  /-- DL_DRYWET, form `f` (R116). -/
  | dlDrywet (w : Word)
  /-- DL_FLUSH, form `none` (R117). -/
  | dlFlush
  /-- MOD_UPDATE, form `cf` (R125). -/
  | modUpdate (ch : Ch) (xn : Word)
  /-- SET_DEPTH, form `f` (R131). -/
  | setDepth (v : Word)
  /-- SET_FEEDBACK, form `f` (R132). -/
  | setFeedback (v : Word)
  /-- SET_CHORUS_OFS, form `f` (R134). -/
  | setChorusOfs (v : Word)
  /-- SET_EFFECT, form `u` (R133). -/
  | setEffect (e : Word)
  /-- SET_BYPASS, form `u` (R135). -/
  | setBypass (b : Word)
  /-- CONFIG, form `fu` (R141). -/
  | config (fs mb : Word)
  /-- READ_REG, form `u` (R143). -/
  | readReg (r : Word)
  /-- READ_BUF, form `cu` (R144). -/
  | readBuf (ch : Ch) (a : Word)
  /-- READ_ROM, form `uu` (R145). -/
  | readRom (w i : Word)
  /-- CLR_STATUS, form `u` (R146). -/
  | clrStatus (m : Word)
deriving DecidableEq, Repr

end Sys2Proof
end

