-- ==== Sys2Proof/Decode.lean ====
section
/-! DEFINITION. The decoder of 30_encoding.md R79, total on any 96 bits, and the encoder of the same opcode map
(R80), which assembles an unused word as 0 (R94). -/

namespace Sys2Proof

/-- Why a command is ILLEGAL, in the order R79 tests. All three are the one response code ILLEGAL (R147). -/
inductive Illegal where
  /-- A bit of `CTRL[31:9]` is set (R83). -/
  | reservedBit
  /-- The OPCODE is not in the opcode map (R85). -/
  | unassignedOpcode
  /-- `CH = 1` on a form that has no CH (R84). -/
  | strayChannel
deriving DecidableEq, Repr

/-- `OPCODE`, CTRL bits 7:0 (R75). -/
def Command.opcode (c : Command) : BitVec 8 := c.ctrl.extractLsb' 0 8

/-- `CH`, CTRL bit 8 (R75). -/
def Command.chBit (c : Command) : Bool := c.ctrl.getLsbD 8

/-- `RSV`, CTRL bits 31:9 (R75). -/
def Command.reserved (c : Command) : BitVec 23 := c.ctrl.extractLsb' 9 23

/-- A form without CH: the CH bit must be 0 (R84). -/
def noChannel (c : Command) (i : Instr) : Except Illegal Instr :=
  if c.chBit then .error .strayChannel else .ok i

/-- A form with CH: the bit selects the channel (R82). -/
def onChannel (c : Command) (f : Ch → Instr) : Except Illegal Instr := .ok (f (Ch.ofBit c.chBit))

/-- The opcode map (R80), a form at a time as R77 lists them. -/
def decodeOpcode (c : Command) : Except Illegal Instr :=
  match c.opcode.toNat with
  | 0x00 => noChannel c .nop
  | 0x10 => noChannel c (.oscFreq c.data0)
  | 0x11 => noChannel c (.oscWave c.data0)
  | 0x12 => onChannel c (fun ch => .oscGen ch)
  | 0x13 => onChannel c (fun ch => .oscGenu ch)
  | 0x14 => noChannel c .oscQuad
  | 0x15 => noChannel c .oscUnison
  | 0x16 => noChannel c .oscInv
  | 0x20 => onChannel c (fun ch => .dlOfs ch c.data0)
  | 0x21 => onChannel c (fun ch => .dlUpd ch c.data0)
  | 0x22 => onChannel c (fun ch => .dlUpdx ch c.data0)
  | 0x23 => onChannel c (fun ch => .dlUpde ch c.data0 c.data1)
  | 0x24 => noChannel c (.dlDrywet c.data0)
  | 0x25 => noChannel c .dlFlush
  | 0x30 => onChannel c (fun ch => .modUpdate ch c.data0)
  | 0x31 => noChannel c (.setDepth c.data0)
  | 0x32 => noChannel c (.setFeedback c.data0)
  | 0x33 => noChannel c (.setChorusOfs c.data0)
  | 0x34 => noChannel c (.setEffect c.data0)
  | 0x35 => noChannel c (.setBypass c.data0)
  | 0x40 => noChannel c (.config c.data0 c.data1)
  | 0x41 => noChannel c (.readReg c.data0)
  | 0x42 => onChannel c (fun ch => .readBuf ch c.data0)
  | 0x43 => noChannel c (.readRom c.data0 c.data1)
  | 0x44 => noChannel c (.clrStatus c.data0)
  | _ => .error .unassignedOpcode

/-- `decode(CTRL, DATA0, DATA1)` (R79). -/
def decode (c : Command) : Except Illegal Instr :=
  if c.reserved ≠ 0 then .error .reservedBit else decodeOpcode c

/-- CTRL of a form without CH (R75). -/
def ctrlPlain (op : BitVec 8) : Word := op.setWidth 32

/-- CTRL of a form with CH (R75): `OPCODE | CH << 8`. -/
def ctrlChannel (op : BitVec 8) (ch : Ch) : Word := op.setWidth 32 ||| (if ch.bit then 0x100 else 0)

/-- The command word of an instruction (R75, R80), an unused data word as 0 (R94). -/
def encode : Instr → Command
  | .nop => ⟨ctrlPlain 0x00, 0, 0⟩
  | .oscFreq freq => ⟨ctrlPlain 0x10, freq, 0⟩
  | .oscWave sel => ⟨ctrlPlain 0x11, sel, 0⟩
  | .oscGen ch => ⟨ctrlChannel 0x12 ch, 0, 0⟩
  | .oscGenu ch => ⟨ctrlChannel 0x13 ch, 0, 0⟩
  | .oscQuad => ⟨ctrlPlain 0x14, 0, 0⟩
  | .oscUnison => ⟨ctrlPlain 0x15, 0, 0⟩
  | .oscInv => ⟨ctrlPlain 0x16, 0, 0⟩
  | .dlOfs ch ms => ⟨ctrlChannel 0x20 ch, ms, 0⟩
  | .dlUpd ch xn => ⟨ctrlChannel 0x21 ch, xn, 0⟩
  | .dlUpdx ch xn => ⟨ctrlChannel 0x22 ch, xn, 0⟩
  | .dlUpde ch xn ext => ⟨ctrlChannel 0x23 ch, xn, ext⟩
  | .dlDrywet w => ⟨ctrlPlain 0x24, w, 0⟩
  | .dlFlush => ⟨ctrlPlain 0x25, 0, 0⟩
  | .modUpdate ch xn => ⟨ctrlChannel 0x30 ch, xn, 0⟩
  | .setDepth v => ⟨ctrlPlain 0x31, v, 0⟩
  | .setFeedback v => ⟨ctrlPlain 0x32, v, 0⟩
  | .setChorusOfs v => ⟨ctrlPlain 0x33, v, 0⟩
  | .setEffect e => ⟨ctrlPlain 0x34, e, 0⟩
  | .setBypass b => ⟨ctrlPlain 0x35, b, 0⟩
  | .config fs mb => ⟨ctrlPlain 0x40, fs, mb⟩
  | .readReg r => ⟨ctrlPlain 0x41, r, 0⟩
  | .readBuf ch a => ⟨ctrlChannel 0x42 ch, a, 0⟩
  | .readRom w i => ⟨ctrlPlain 0x43, w, i⟩
  | .clrStatus m => ⟨ctrlPlain 0x44, m, 0⟩

/-- The command whose 96 bits are `w`: CTRL is bits 31:0, DATA0 bits 63:32, DATA1 bits 95:64 (log entry 3). Bits at
`nbits` and above are 0. -/
def commandOfBits (nbits w : Nat) : Command :=
  let v := w % 2 ^ nbits
  ⟨BitVec.ofNat 32 v, BitVec.ofNat 32 (v / 2 ^ 32), BitVec.ofNat 32 (v / 2 ^ 64)⟩

/-- What the decoder reads from an instruction whose bits are `w`, `none` where it is ILLEGAL. -/
def decodeTableWord (nbits w : Nat) : Option Instr := (decode (commandOfBits nbits w)).toOption

end Sys2Proof
end

