-- ==== Sys2Proof/Machine/Constants.lean ====
section
/-! DEFINITION. The fixed constants of 00_scope.md R7 and the identity word of 10_state.md R40, as bit patterns. -/

namespace Sys2Proof.Machine

/-- `MIN_DELAY`, 0.01 ms (R7). -/
def minDelay : Word := 0x3C23D70A
/-- `DELTA_FLANGER` and `DELTA_VIBRATO`, 7 ms (R7). -/
def deltaShort : Word := 0x40E00000
/-- `DELTA_CHORUS`, 25 ms (R7). -/
def deltaChorus : Word := 0x41C80000
/-- `CMASK_FLANGER` and `CMASK_VIBRATO` (R7). -/
def cmaskZero : Word := 0x00000000
/-- `CMASK_CHORUS` (R7). -/
def cmaskOnes : Word := 0xFFFFFFFF
/-- `POL_SIGN`, the sign bit (R7). -/
def polSign : Word := 0x80000000
/-- `MS_PER_S`, 1000 (R7). -/
def msPerS : Word := 0x447A0000
/-- `+0.0` (R10). -/
def zeroF : Word := 0x00000000
/-- 0.5 (R103). -/
def halfF : Word := 0x3F000000
/-- 1.0 (R7). -/
def oneF : Word := 0x3F800000
/-- 2.0 (R142). -/
def twoF : Word := 0x40000000
/-- `ID` (10_state.md R40). -/
def idWord : Word := 0x4D440001

/-- The range bounds of 60_exceptions.md R155: OSC_FREQ, 0.02 to 5.0 Hz. -/
def rateLo : Word := 0x3CA3D70A
def rateHi : Word := 0x40A00000
/-- DL_DRYWET and SET_DEPTH, 0 to 1. -/
def unitLo : Word := 0x00000000
def unitHi : Word := 0x3F800000
/-- SET_FEEDBACK, −0.95 to 0.95. -/
def feedbackLo : Word := 0xBF733333
def feedbackHi : Word := 0x3F733333
/-- SET_CHORUS_OFS, 5 to 35 ms. -/
def chorusLo : Word := 0x40A00000
def chorusHi : Word := 0x420C0000

end Sys2Proof.Machine
end

