-- ==== Sys2Proof/Config.lean ====
section
/-! DEFINITION. What one build of mdcore fixes (00_scope.md R5, R6). The build parameters are arguments of a
model (R5, R44): they are a record of plain data, which the state carries and no step changes (log entry 1). The
cycle counts of R5 are not here: no rule depends on them (R176, log entry 4). -/

namespace Sys2Proof

/-- `TABLE_MODE` (00_scope.md R5): how the ROM was built. `NUM_HARMONICS` matters to the ADDITIVE mode only
(10_state.md R30). -/
inductive TableMode where
  | closed
  | additive (numHarmonics : Nat)
deriving DecidableEq, Repr

/-- `TABLE_ROM[w][i]` (10_state.md R28): four tables of N binary32 words, in R23's order. -/
structure RomImage where
  sine : List Word
  sawtooth : List Word
  triangle : List Word
  square : List Word
deriving DecidableEq, Repr

/-- The build parameters of 00_scope.md R5. -/
structure Build where
  log2N : Nat
  log2L : Nat
  mode : TableMode
  rom : RomImage
deriving DecidableEq, Repr

namespace Build

/-- `N = 2^LOG2_N`, the table length (00_scope.md R6). -/
def tableLen (b : Build) : Nat := 2 ^ b.log2N

/-- `L = 2^LOG2_L`, the delay-buffer length (00_scope.md R6). -/
def bufLen (b : Build) : Nat := 2 ^ b.log2L

end Build

end Sys2Proof
end

