-- ==== Sys2Proof/Machine/Float.lean ====
section
/-! DEFINITION. IEEE-754 binary32 arithmetic on bit patterns (00_scope.md R10, R17 to R20): one operation, one
rounding to nearest with ties to even, subnormals kept, a NaN result always 0x7FC00000. An exact intermediate value
is an integer, or a ratio of integers, in units of 2^-149, the smallest positive binary32; every finite binary32 is a
whole number of units. In a product with a numeral the numeral stands first: the kernel takes a product apart by its
second factor. -/

namespace Sys2Proof.Machine

/-- The sign bit, bit 31 (00_scope.md R8). -/
def f32Sign (x : Word) : Bool := x.msb

/-- The exponent and fraction bits, bits 30:0, as a number. -/
def f32Mag (x : Word) : Nat := x.toNat % 2 ^ 31

/-- Exponent all ones and fraction zero, as bits 30:0. -/
def f32InfMag : Nat := 0x7F800000

/-- The canonical quiet NaN (00_scope.md R19). -/
def f32QNaN : Word := 0x7FC00000

/-- Is the value a NaN? -/
def f32IsNaN (x : Word) : Bool := decide (f32InfMag < f32Mag x)

/-- Is the value an infinity? -/
def f32IsInf (x : Word) : Bool := decide (f32Mag x = f32InfMag)

/-- Is the value finite? -/
def f32IsFinite (x : Word) : Bool := decide (f32Mag x < f32InfMag)

/-- The value of magnitude bits, in units of 2^-149. An exponent field of 0 is a subnormal (R18). For the bits of an
infinity it is 2^277, above every finite value. -/
def f32MagUnits (m : Nat) : Nat :=
  if m / 2 ^ 23 = 0 then m % 2 ^ 23 else (2 ^ 23 + m % 2 ^ 23) * 2 ^ (m / 2 ^ 23 - 1)

/-- The magnitude of a value, in units of 2^-149. -/
def f32Units (x : Word) : Nat := f32MagUnits (f32Mag x)

/-- The signed value, in units of 2^-149. -/
def f32Int (x : Word) : Int := if f32Sign x then -(f32Units x : Int) else (f32Units x : Int)

/-- `num / den` rounded to the nearest integer, ties to even (R10). -/
def roundHalfEven (num den : Nat) : Nat :=
  let q := num / den
  let r := num % den
  if 2 * r < den then q else if den < 2 * r then q + 1 else if q % 2 = 0 then q else q + 1

/-- The magnitude bits of the binary32 nearest to `num / den` units, ties to even; an overflow gives infinity (R17).
`t` is the number of units-binades above the one where a unit is one in the last place. -/
def f32RoundMag (num den : Nat) : Nat :=
  let t := (num / den).log2 - 23
  min f32InfMag (2 ^ 23 * t + roundHalfEven num (den * 2 ^ t))

/-- The pattern with this sign and these magnitude bits. -/
def f32Pack (neg : Bool) (mag : Nat) : Word := BitVec.ofNat 32 ((if neg then 2 ^ 31 else 0) + mag)

/-- The sign bit flipped: a bit operation, so a NaN keeps its payload (R19). -/
def f32Neg (x : Word) : Word := x ^^^ 0x80000000

/-- The exact signed integer `z`, in units of 2^-149, rounded; zero is +0.0. -/
def f32RoundInt (z : Int) : Word := f32Pack (decide (z < 0)) (f32RoundMag z.natAbs 1)

/-- `a +f b` (R10). An exact zero sum is +0.0 unless both operands are negative zeros. -/
def f32Add (a b : Word) : Word :=
  if f32IsNaN a || f32IsNaN b then f32QNaN
  else if f32IsInf a then (if f32IsInf b && f32Sign a != f32Sign b then f32QNaN else a)
  else if f32IsInf b then b
  else
    let z := f32Int a + f32Int b
    if z = 0 then f32Pack (f32Sign a && f32Sign b) 0 else f32RoundInt z

/-- `a −f b` (R10). -/
def f32Sub (a b : Word) : Word := f32Add a (f32Neg b)

/-- `a ×f b` (R10). -/
def f32Mul (a b : Word) : Word :=
  let neg := f32Sign a != f32Sign b
  if f32IsNaN a || f32IsNaN b then f32QNaN
  else if f32IsInf a || f32IsInf b then
    (if f32Units a = 0 || f32Units b = 0 then f32QNaN else f32Pack neg f32InfMag)
  else f32Pack neg (f32RoundMag (f32Units a * f32Units b) (2 ^ 149))

/-- `a ÷f b` (R10, R17). -/
def f32Div (a b : Word) : Word :=
  let neg := f32Sign a != f32Sign b
  if f32IsNaN a || f32IsNaN b then f32QNaN
  else if f32IsInf a then (if f32IsInf b then f32QNaN else f32Pack neg f32InfMag)
  else if f32IsInf b then f32Pack neg 0
  else if f32Units b = 0 then (if f32Units a = 0 then f32QNaN else f32Pack neg f32InfMag)
  else f32Pack neg (f32RoundMag (2 ^ 149 * f32Units a) (f32Units b))

/-- `a ≤ b`, false if either is a NaN; −0.0 equals +0.0 (R10). -/
def f32Le (a b : Word) : Bool := !f32IsNaN a && !f32IsNaN b && decide (f32Int a ≤ f32Int b)

/-- `a < b`, false if either is a NaN (R10). -/
def f32Lt (a b : Word) : Bool := !f32IsNaN a && !f32IsNaN b && decide (f32Int a < f32Int b)

/-- The real number `n / d` rounded to nearest even; zero is +0.0. -/
def f32OfRatio (n : Int) (d : Nat) : Word :=
  f32Pack (decide (n < 0)) (f32RoundMag (2 ^ 149 * n.natAbs) d)

/-- The integer `k` as a binary32, exact where R20 says so; the integer zero is +0.0. -/
def f32OfInt (k : Int) : Word := f32OfRatio k 1

/-- `floor(v)`, the largest integer ≤ v, of a finite `v` (R11). -/
def f32Floor (v : Word) : Int := f32Int v / 2 ^ 149

/-- `split(v)` (R11): the floor as an s32 and the rounded remainder, or `none` for RANGE. The floor converted to
binary32 is the integer's, so a floor of 0 is +0.0 (log entry 12). When the fraction rounds to 1.0 is log entry 16. -/
def f32Split (v : Word) : Option (Word × Word) :=
  if f32IsFinite v then
    let k := f32Floor v
    if k < -(2 ^ 31) ∨ 2 ^ 31 - 1 < k then none
    else some (BitVec.ofInt 32 k, f32Sub v (f32OfInt k))
  else none

/-- `lerp(a, b, f) = a +f (f ×f (b −f a))` (R12). DESIGN CHOICE: the formula also where the spec's remarks on its result
say otherwise: at fraction +0.0 and for equal operands (R12), and at fraction 1.0 (41_delay_line.md R112); log entry 16. -/
def f32Lerp (a b f : Word) : Word := f32Add a (f32Mul f (f32Sub b a))

end Sys2Proof.Machine
end

