-- ==== Sys2Proof/Machine/Rom.lean ====
section
/-! DEFINITION. The table ROM: its contents for the two construction modes (10_state.md R29, R30) and the read
`RomRead` (00_scope.md R13). The sine is summed in fixed point with 256 fractional bits, far finer than the rounding
to binary32 needs for every legal table length (log entry 14). -/

namespace Sys2Proof.Machine

/-- Fractional bits of the fixed-point sine. -/
def fixBits : Nat := 256

/-- π with 256 fractional bits, rounded down. -/
def fixPi : Nat := 363771576891766324280234942777729862653393377328392429958772151117938894466185

/-- The Taylor series of the sine from the term `t = x^(2k+1)/(2k+1)!` on, `n` terms, `x2 = x²`. -/
def sineSeries : (n k t x2 : Nat) → Int
  | 0, _, _, _ => 0
  | n + 1, k, t, x2 =>
    (t : Int) - sineSeries n (k + 1) (t * x2 / 2 ^ fixBits / ((2 * k + 2) * (2 * k + 3))) x2

/-- `sin(π/2 · j/q)` for `j ≤ q`, in fixed point. -/
def fixSineQuarter (j q : Nat) : Int :=
  let x := fixPi * j / (2 * q)
  sineSeries 40 0 x (x * x / 2 ^ fixBits)

/-- `sin(2π · i/n)` in fixed point, `n` a multiple of 4: the quarter wave, mirrored and negated. -/
def fixSine (i n : Nat) : Int :=
  let q := n / 4
  let r := i % q
  match (i / q) % 4 with
  | 0 => fixSineQuarter r q
  | 1 => fixSineQuarter (q - r) q
  | 2 => -fixSineQuarter r q
  | _ => -fixSineQuarter (q - r) q

/-- `round32(sin(2πi/N))` (R29). -/
def closedSine (n i : Nat) : Word := f32OfRatio (fixSine i n) (2 ^ fixBits)

/-- `(2i − N)/N` (R29). -/
def closedSawtooth (n i : Nat) : Word := f32OfRatio (2 * (i : Int) - n) n

/-- `(4i − N)/N`, then `(3N − 4i)/N` (R29). -/
def closedTriangle (n i : Nat) : Word :=
  if i < n / 2 then f32OfRatio (4 * (i : Int) - n) n else f32OfRatio (3 * (n : Int) - 4 * i) n

/-- +1.0, then −1.0 (R29). -/
def closedSquare (n i : Nat) : Word := if i < n / 2 then 0x3F800000 else 0xBF800000

/-- The default ROM (`TABLE_MODE = CLOSED`, R29). -/
def closedRom (n : Nat) : RomImage where
  sine := (List.range n).map (closedSine n)
  sawtooth := (List.range n).map (closedSawtooth n)
  triangle := (List.range n).map (closedTriangle n)
  square := (List.range n).map (closedSquare n)

/-- One harmonic: the multiple `k` and its amplitude `a_k` in fixed point. -/
abbrev Harmonic := Nat × Int

/-- `raw_w[i] = Σ_k a_k · sin(2πki/N)` in fixed point (R30). -/
def rawSample (hs : List Harmonic) (n i : Nat) : Int :=
  (hs.map (fun h => h.2 * fixSine (h.1 * i % n) n / 2 ^ fixBits)).sum

/-- The harmonics of the four waveforms for `H = NUM_HARMONICS` (R30). -/
def sineHarmonics : List Harmonic := [(1, 2 ^ fixBits)]
def sawtoothHarmonics (h : Nat) : List Harmonic :=
  (List.range h).map (fun j => (j + 1, 2 ^ fixBits / ((j : Int) + 1)))
def squareHarmonics (h : Nat) : List Harmonic := (sawtoothHarmonics h).filter (fun x => x.1 % 2 = 1)
def triangleHarmonics (h : Nat) : List Harmonic :=
  (List.range (h / 2 + 1)).map (fun j =>
    (2 * j + 1, (if j % 2 = 0 then 2 ^ fixBits else -(2 ^ fixBits : Int)) / ((2 * (j : Int) + 1) * (2 * j + 1))))

/-- A table scaled to unit peak amplitude, `round32(raw[i] / max |raw[j]|)` (R30). -/
def normalised (raw : List Int) : List Word :=
  let peak := (raw.map Int.natAbs).foldl max 0
  raw.map (fun r => f32OfRatio r peak)

/-- One additive table (R30). -/
def additiveTable (hs : List Harmonic) (n : Nat) : List Word := normalised ((List.range n).map (rawSample hs n))

/-- The additive ROM (`TABLE_MODE = ADDITIVE`, R30). -/
def additiveRom (n h : Nat) : RomImage where
  sine := additiveTable sineHarmonics n
  sawtooth := additiveTable (sawtoothHarmonics h) n
  triangle := additiveTable (triangleHarmonics h) n
  square := additiveTable (squareHarmonics h) n

/-- A build with the closed-form ROM (R5, R29). -/
def closedBuild (log2N log2L : Nat) : Build := ⟨log2N, log2L, .closed, closedRom (2 ^ log2N)⟩

/-- A build with the additive ROM (R5, R30). -/
def additiveBuild (log2N log2L h : Nat) : Build := ⟨log2N, log2L, .additive h, additiveRom (2 ^ log2N) h⟩

/-- The reference build: LOG2_N = 10, LOG2_L = 17, CLOSED (R5). -/
def referenceBuild : Build := closedBuild 10 17

/-- The table number of R23: 0 sine, 1 sawtooth, 2 triangle, 3 square. -/
def romTable (r : RomImage) : (w : Nat) → List Word
  | 0 => r.sine
  | 1 => r.sawtooth
  | 2 => r.triangle
  | _ => r.square

/-- `MASK_N = N − 1` (R6). -/
def maskN (b : Build) : Word := BitVec.ofNat 32 (b.tableLen - 1)

/-- `MASK_L = L − 1` (R6). -/
def maskL (b : Build) : Word := BitVec.ofNat 32 (b.bufLen - 1)

/-- `RomRead(w, i) = TABLE_ROM[w][i & MASK_N]` (R13). A table of a legal build has N words, so the index is always
listed (log entry 15). -/
def romRead (b : Build) (w : Nat) (i : Word) : Word := (romTable b.rom w).getD (i &&& maskN b).toNat 0

end Sys2Proof.Machine
end

