-- ==== Sys2Proof/Machine/State.lean ====
section
/-! DEFINITION. The state of mdcore as plain data: every register and memory of 10_state.md (R21), the ports'
pending response (30_encoding.md R71), what the host will drive (R44, R69), and the two records that
93_implementation_defined.md I9 and I10 ask of a model. -/

namespace Sys2Proof.Machine

/-- Why a step stops with a fault: never. No constructor: every command, an ILLEGAL one included, ends in a next state
with a response (60_exceptions.md R147, R149, R150). -/
inductive Fault where
deriving DecidableEq, Repr

/-- Why a step gives no meaning. -/
inductive Refusal where
  /-- Raised by `exec` alone, for an instruction that has no meaning yet. Safe: nothing is claimed of it. No arm of
  `exec` raises it now. -/
  | notModelled (mnemonic : String)
deriving DecidableEq, Repr

/-- `rsp_code` (30_encoding.md R89). The codes 6 and 7 are never produced. -/
inductive RspCode where
  | ok
  | illegal
  | nocfg
  | range
  | cfgbad
  | orange
deriving DecidableEq, Repr

/-- A response: `rsp_code` and `rsp_data` (30_encoding.md R71, R90). -/
structure Response where
  code : RspCode
  data : Word
deriving DecidableEq, Repr

/-- The active table (10_state.md R23). -/
inductive Waveform where
  | sine
  | sawtooth
  | triangle
  | square
deriving DecidableEq, Repr

/-- The effect type (10_state.md R36). The value 3 never occurs. -/
inductive Effect where
  | flanger
  | chorus
  | vibrato
deriving DecidableEq, Repr

/-- An oscillator read cursor, `IDX[ch]` and `FRAC[ch]` (10_state.md R26). `IDX[ch]` has LOG2_N bits, held in a word
(log entry 8). -/
structure OscCursor where
  idx : Word
  frac : Word
deriving DecidableEq, Repr

/-- One channel's delay buffer: (address, word) pairs, addresses strictly rising, no listed word equal to what an
unlisted address reads as, +0.0 (10_state.md R33, 20_memory.md R65, log entry 2). -/
structure Memory where
  cells : List (Nat × Word)
deriving DecidableEq, Repr

/-- One channel of the delay line: `WPTR[ch]`, `RPTR[ch]`, `DFRAC[ch]`, `BUF[ch]` (10_state.md R31 to R33). The cursors
have LOG2_L bits, held in a word (log entry 8). -/
structure DelayChannel where
  wptr : Word
  rptr : Word
  dfrac : Word
  buf : Memory
deriving DecidableEq, Repr

/-- What the host drives at one rising edge of `clk` (30_encoding.md R69): `rst`, `cmd_valid` with the three command
words, and `rsp_ready`. -/
structure Edge where
  rst : Bool
  cmd : Option Command
  rspReady : Bool
deriving DecidableEq, Repr

/-- The model's own record of a run (93_implementation_defined.md I9, I10): the first rejecting code, and whether an
ORANGE response was given. No step clears it (log entry 5). -/
structure RunRecord where
  rejected : Option RspCode
  orange : Bool
deriving DecidableEq, Repr

/-- The state of mdcore (10_state.md R21). -/
structure State where
  /-- The build parameters (00_scope.md R5): the MODEL's own field; no step changes it (log entry 1). -/
  build : Build
  /-- `FS` (R22). -/
  fs : Word
  /-- `MAXBLOCK` (R22). -/
  maxBlock : Word
  /-- `CFG_VALID` (R22), STATUS bit 8 (R39). -/
  cfgValid : Bool
  /-- `WAVESEL` (R23). -/
  waveSel : Waveform
  /-- `RATE` (R24). -/
  rate : Word
  /-- `INC_INT` (R25). -/
  incInt : Word
  /-- `INC_FRAC` (R25). -/
  incFrac : Word
  /-- `IDX[0]`, `FRAC[0]` (R26). -/
  osc0 : OscCursor
  /-- `IDX[1]`, `FRAC[1]` (R26). -/
  osc1 : OscCursor
  /-- `POLMASK` (R27). -/
  polMask : Word
  /-- `WPTR[0]`, `RPTR[0]`, `DFRAC[0]`, `BUF[0]` (R31 to R33). -/
  dl0 : DelayChannel
  /-- `WPTR[1]`, `RPTR[1]`, `DFRAC[1]`, `BUF[1]` (R31 to R33). -/
  dl1 : DelayChannel
  /-- `WET` (R34). -/
  wet : Word
  /-- `DRY` (R34). -/
  dry : Word
  /-- `FB` (R34). -/
  fb : Word
  /-- `P_DRYWET` (R35). -/
  pDryWet : Word
  /-- `P_FEEDBACK` (R35). -/
  pFeedback : Word
  /-- `P_DEPTH` (R35). -/
  pDepth : Word
  /-- `P_CHORUS_OFS` (R35). -/
  pChorusOfs : Word
  /-- `EFFECT` (R36). -/
  effect : Effect
  /-- `DELTA` (R36). -/
  delta : Word
  /-- `CMASK` (R36). -/
  cmask : Word
  /-- `BYPASS` (R38). -/
  bypass : Bool
  /-- `STATUS[4:0]`, the sticky bits (R39); the rest of STATUS is computed (log entry 9). -/
  sticky : BitVec 5
  /-- The response that waits for `rsp_ready` (30_encoding.md R71); `rsp_valid` is 1 when there is one (log entry 10). -/
  rsp : Option Response
  /-- What the host drives at the coming edges, the next one first (R44): the MODEL's own field (log entry 3). -/
  inputs : List Edge
  /-- The run's record (I9, I10): the MODEL's own field (log entry 5). -/
  record : RunRecord
deriving DecidableEq, Repr

/-- The oscillator cursor at reset: index 0, fraction +0.0 (R26). -/
def OscCursor.reset : OscCursor := ⟨0, 0⟩

/-- A delay channel at reset: both cursors 0, fraction +0.0, every word +0.0 (R31 to R33). -/
def DelayChannel.reset : DelayChannel := ⟨0, 0, 0, ⟨[]⟩⟩

/-- The state right after reset of a core of this build (10_state.md R45, 70_reset_and_hazards.md R163). -/
def State.resetOf (b : Build) : State where
  build := b
  fs := 0
  maxBlock := 0
  cfgValid := false
  waveSel := .sine
  rate := 0
  incInt := 0
  incFrac := 0
  osc0 := .reset
  osc1 := .reset
  polMask := 0
  dl0 := .reset
  dl1 := .reset
  wet := 0
  dry := 0x3F800000
  fb := 0
  pDryWet := 0
  pFeedback := 0
  pDepth := 0
  pChorusOfs := 0
  effect := .flanger
  delta := 0x40E00000
  cmask := 0
  bypass := false
  sticky := 0
  rsp := none
  inputs := []
  record := ⟨none, false⟩

/-- The machine right after reset: the reference build of 00_scope.md R5. -/
def State.reset : State := State.resetOf referenceBuild

end Sys2Proof.Machine
end

