-- ==== Sys2Proof/Machine/Flags.lean ====
section
/-! DEFINITION. STATUS (10_state.md R39), the response codes' numbers and sticky bits (30_encoding.md R89,
60_exceptions.md R148), the `err` pin (R73) and the run's record (93_implementation_defined.md I9, I10). mdcore has no
other flag (R42). -/

namespace Sys2Proof.Machine

/-- The number on `rsp_code` (30_encoding.md R89). -/
def rspCodeBits : RspCode → BitVec 3
  | .ok => 0
  | .illegal => 1
  | .nocfg => 2
  | .range => 3
  | .cfgbad => 4
  | .orange => 5

/-- Does the code reject its command (30_encoding.md R89)? OK and ORANGE execute. -/
def codeRejects : RspCode → Bool
  | .ok => false
  | .orange => false
  | .illegal => true
  | .nocfg => true
  | .range => true
  | .cfgbad => true

/-- STATUS bit `code − 1`, the one the code sets (60_exceptions.md R148); OK sets none. -/
def stickyBit : RspCode → BitVec 5
  | .ok => 0b00000
  | .illegal => 0b00001
  | .nocfg => 0b00010
  | .range => 0b00100
  | .cfgbad => 0b01000
  | .orange => 0b10000

/-- The STATUS word: the sticky bits, bit 8 the mirror of CFG_VALID, the rest 0 (10_state.md R39). -/
def statusWord (s : State) : Word := s.sticky.setWidth 32 ||| (if s.cfgValid then 0x100 else 0)

/-- The `err` pin: the OR of STATUS bits 4:0 (10_state.md R39, 30_encoding.md R73). -/
def errPin (s : State) : Bool := s.sticky != 0

/-- Write one to clear: `STATUS[4:0] & ~m[4:0]` (43_system.md R146). -/
def clearSticky (sticky : BitVec 5) (m : Word) : BitVec 5 := sticky &&& ~~~(m.extractLsb' 0 5)

/-- The run's record after a response (93_implementation_defined.md I9, I10): the first rejecting code is kept. -/
def noteCode (r : RunRecord) (code : RspCode) : RunRecord where
  rejected := if codeRejects code then r.rejected.or (some code) else r.rejected
  orange := r.orange || code == .orange

end Sys2Proof.Machine
end

