-- ==== Sys2Proof/Machine/Ops.lean ====
section
/-! DEFINITION. The operations every meaning is written over: the delay RAM (00_scope.md R13, 20_memory.md R48), the
two channels' registers, and the ways a command ends, `respond` and `reject` (00_scope.md R14). `reject` is mdcore's
whole exception entry: no trap, no saved state, no return (60_exceptions.md R150, R158). -/

namespace Sys2Proof.Machine

/-- What a meaning answers. -/
abbrev Result := Host.Outcome State Fault Refusal

/-- The word at an address; an unlisted address reads +0.0 (20_memory.md R65). -/
def readCells : List (Nat × Word) → Nat → Word
  | [], _ => 0#32
  | (k, v) :: rest, a => if k = a then v else readCells rest a

/-- A cell in canonical form: a word of +0.0 is not listed. -/
def cellFor (a : Nat) (v : Word) : List (Nat × Word) := if v = 0#32 then [] else [(a, v)]

/-- Set the word at an address, addresses kept rising. -/
def writeCells : List (Nat × Word) → Nat → Word → List (Nat × Word)
  | [], a, v => cellFor a v
  | (k, w) :: rest, a, v =>
    if a < k then cellFor a v ++ (k, w) :: rest
    else if a = k then cellFor a v ++ rest
    else (k, w) :: writeCells rest a v

/-- Read one word of a channel's buffer. -/
def Memory.read (m : Memory) (a : Nat) : Word := readCells m.cells a

/-- Write one word of a channel's buffer. -/
def Memory.write (m : Memory) (a : Nat) (v : Word) : Memory := ⟨writeCells m.cells a v⟩

/-- A flushed buffer: every word +0.0 (41_delay_line.md R117). -/
def Memory.zero : Memory := ⟨[]⟩

/-- Are the listed addresses all above `lo`, strictly rising, and no listed word +0.0? -/
def cellsWfFrom : (lo : Nat) → List (Nat × Word) → Bool
  | _, [] => true
  | lo, (k, v) :: rest => decide (lo ≤ k) && v != 0#32 && cellsWfFrom (k + 1) rest

/-- The canonical form of a buffer (log entry 2). -/
def Memory.wf (m : Memory) : Bool := cellsWfFrom 0 m.cells

/-- Every listed address is below `n`. -/
def Memory.below (m : Memory) (n : Nat) : Bool := m.cells.all (fun c => decide (c.1 < n))

/-- `IDX[ch]`, `FRAC[ch]`. -/
def State.osc (s : State) : Ch → OscCursor
  | .primary => s.osc0
  | .quadrature => s.osc1

/-- Write channel `ch`'s oscillator cursor. -/
def State.setOsc (s : State) (ch : Ch) (c : OscCursor) : State :=
  match ch with
  | .primary => { s with osc0 := c }
  | .quadrature => { s with osc1 := c }

/-- `WPTR[ch]`, `RPTR[ch]`, `DFRAC[ch]`, `BUF[ch]`. -/
def State.dl (s : State) : Ch → DelayChannel
  | .primary => s.dl0
  | .quadrature => s.dl1

/-- Write channel `ch` of the delay line. -/
def State.setDl (s : State) (ch : Ch) (d : DelayChannel) : State :=
  match ch with
  | .primary => { s with dl0 := d }
  | .quadrature => { s with dl1 := d }

/-- `BufRead(ch, i) = BUF[ch][i & MASK_L]` (00_scope.md R13). -/
def bufRead (s : State) (ch : Ch) (i : Word) : Word := (s.dl ch).buf.read (i &&& maskL s.build).toNat

/-- `BufWrite(ch, i, v)`: `BUF[ch][i & MASK_L] <- v` (00_scope.md R13). -/
def bufWrite (s : State) (ch : Ch) (i v : Word) : State :=
  s.setDl ch { s.dl ch with buf := (s.dl ch).buf.write (i &&& maskL s.build).toNat v }

/-- The state when a command ends with this code and data: the STATUS bit of the code is set (60_exceptions.md R148)
and the response waits (30_encoding.md R71). -/
def commit (code : RspCode) (data : Word) (s : State) : State :=
  { s with sticky := s.sticky ||| stickyBit code, rsp := some ⟨code, data⟩, record := noteCode s.record code }

/-- `respond(code, data)` (00_scope.md R14): commit the writes made, `s`, and answer. -/
def respond (code : RspCode) (data : Word) (s : State) : Result := .next (commit code data s)

/-- `reject(code)` (00_scope.md R14, 60_exceptions.md R151): `s` is the state BEFORE the command, so nothing of the
command is kept; the data word is 0. -/
def reject (code : RspCode) (s : State) : Result := .next (commit code 0 s)

/-- The response is taken and `rsp_valid` falls (30_encoding.md R71). -/
def takeResponse (s : State) : State := { s with rsp := none }

/-- A rising edge with `rst = 1` (70_reset_and_hazards.md R163, R165, 30_encoding.md R72): every register at its reset
value, the buffers zero, no response. The build is fixed, and what the host drives next and the run's record are not the
core's (log entries 3 and 5). -/
def applyReset (s : State) : State := { State.resetOf s.build with inputs := s.inputs, record := s.record }

end Sys2Proof.Machine
end

