-- ==== Sys2Proof/Machine/Operands.lean ====
section
/-! DEFINITION. How operands are read and checked (00_scope.md R15, 30_encoding.md R77, 60_exceptions.md R155), the
numbers of the waveforms and effects, and the register map (10_state.md R41). -/

namespace Sys2Proof.Machine

/-- `lo ≤ v ≤ hi` as an IEEE comparison, so a NaN is out of range (60_exceptions.md R155). -/
def inRange (lo hi v : Word) : Bool := f32Le lo v && f32Le v hi

/-- OK inside the range, ORANGE outside it (60_exceptions.md R155). -/
def rangeCode (lo hi v : Word) : RspCode := if inRange lo hi v then .ok else .orange

/-- The table a selector names; four or more falls back to sine (40_oscillator.md R100). -/
def waveformOf (sel : Word) : Waveform :=
  match sel.toNat with
  | 1 => .sawtooth
  | 2 => .triangle
  | 3 => .square
  | _ => .sine

/-- The number of a waveform (10_state.md R23). -/
def waveformNum : Waveform → Nat
  | .sine => 0
  | .sawtooth => 1
  | .triangle => 2
  | .square => 3

/-- The effect a number names (42_modulation.md R133): 3 and above name none. -/
def effectOf (e : Word) : Option Effect :=
  match e.toNat with
  | 0 => some .flanger
  | 1 => some .chorus
  | 2 => some .vibrato
  | _ => none

/-- The number of an effect (10_state.md R36). -/
def effectNum : Effect → Nat
  | .flanger => 0
  | .chorus => 1
  | .vibrato => 2

/-- `DELTA` of an effect (10_state.md R36). -/
def effectDelta : Effect → Word
  | .flanger => deltaShort
  | .chorus => deltaChorus
  | .vibrato => deltaShort

/-- `CMASK` of an effect (10_state.md R36). -/
def effectMask : Effect → Word
  | .flanger => cmaskZero
  | .chorus => cmaskOnes
  | .vibrato => cmaskZero

/-- The boolean a SET_BYPASS operand names (42_modulation.md R135): 2 and above name none. -/
def bypassOf (b : Word) : Option Bool :=
  match b.toNat with
  | 0 => some false
  | 1 => some true
  | _ => none

/-- `N_f`, the table length as a binary32 (00_scope.md R6). -/
def tableLenF (b : Build) : Word := f32OfInt b.tableLen

/-- `L_f`, the buffer length as a binary32 (43_system.md R142). -/
def bufLenF (b : Build) : Word := f32OfInt b.bufLen

/-- `cfg_ok(fs)` (43_system.md R142): finite, above zero, and two seconds fit the buffer. -/
def cfgOk (b : Build) (fs : Word) : Bool :=
  f32IsFinite fs && f32Lt zeroF fs && f32Le (f32Mul twoF fs) (bufLenF b)

/-- Bit 16 of PARAMS (10_state.md R40). -/
def modeBit : TableMode → Nat
  | .closed => 0
  | .additive _ => 1

/-- `PARAMS` (10_state.md R40): LOG2_N in bits 7:0, LOG2_L in bits 15:8, TABLE_MODE in bit 16. -/
def paramsWord (b : Build) : Word :=
  BitVec.ofNat 32 (2 ^ 16 * modeBit b.mode + 2 ^ 8 * (b.log2L % 256) + b.log2N % 256)

/-- A one-bit register, zero-extended. -/
def boolWord (b : Bool) : Word := if b then 1 else 0

/-- `regval(r)`: the register map of READ_REG (10_state.md R41); 0x1F and above are unassigned. -/
def regValue (s : State) (r : Nat) : Option Word :=
  match r with
  | 0x00 => some (statusWord s)
  | 0x01 => some s.fs
  | 0x02 => some s.maxBlock
  | 0x03 => some (BitVec.ofNat 32 (waveformNum s.waveSel))
  | 0x04 => some s.rate
  | 0x05 => some s.incInt
  | 0x06 => some s.incFrac
  | 0x07 => some s.osc0.idx
  | 0x08 => some s.osc0.frac
  | 0x09 => some s.osc1.idx
  | 0x0A => some s.osc1.frac
  | 0x0B => some s.polMask
  | 0x0C => some s.dl0.wptr
  | 0x0D => some s.dl0.rptr
  | 0x0E => some s.dl0.dfrac
  | 0x0F => some s.dl1.wptr
  | 0x10 => some s.dl1.rptr
  | 0x11 => some s.dl1.dfrac
  | 0x12 => some s.wet
  | 0x13 => some s.dry
  | 0x14 => some s.fb
  | 0x15 => some s.pDryWet
  | 0x16 => some s.pFeedback
  | 0x17 => some s.pDepth
  | 0x18 => some s.pChorusOfs
  | 0x19 => some (BitVec.ofNat 32 (effectNum s.effect))
  | 0x1A => some s.delta
  | 0x1B => some s.cmask
  | 0x1C => some (boolWord s.bypass)
  | 0x1D => some idWord
  | 0x1E => some (paramsWord s.build)
  | _ => none

end Sys2Proof.Machine
end

