-- ==== Sys2Proof/Machine/Delay.lean ====
section
/-! DEFINITION. The fractional delay line (41_delay_line.md): the read R112, the feedback mixer R118, the crossfade
R119, the offset split R111, `recompute_mix` (10_state.md R37), and the meanings of DL_OFS, DL_UPD, DL_UPDX, DL_UPDE,
DL_DRYWET and DL_FLUSH. -/

namespace Sys2Proof.Machine

/-- `recompute_mix()` (10_state.md R37): vibrato forces full wet and no feedback. -/
def recomputeMix (s : State) : State :=
  match s.effect with
  | .vibrato => { s with wet := oneF, dry := zeroF, fb := zeroF }
  | .flanger => { s with wet := s.pDryWet, dry := f32Sub oneF s.pDryWet, fb := s.pFeedback }
  | .chorus => { s with wet := s.pDryWet, dry := f32Sub oneF s.pDryWet, fb := s.pFeedback }

/-- `offset_split(ms)` (R111): `(FS ×f ms) ÷f 1000.0`, split; `none` for RANGE. R111's remark on a
negative `ms` and 42_modulation.md R125's on `ms` below 1000 / FS are log entry 16. -/
def offsetSplit (s : State) (ms : Word) : Option (Word × Word) := f32Split (f32Div (f32Mul s.fs ms) msPerS)

/-- Place the read cursor `d` samples behind the write cursor, with fraction `f` (R111). -/
def placeRead (s : State) (ch : Ch) (d f : Word) : State :=
  s.setDl ch { s.dl ch with rptr := ((s.dl ch).wptr - d) &&& maskL s.build, dfrac := f }

/-- `dl_read(ch, xn)` (R112): the interpolated delayed sample, or `xn` itself when the cursors meet. DESIGN CHOICE: at
DFRAC = 1.0 R112 says that the result is `b`, which its formula gives only up to rounding (a = 1.0, b = 2^-30 gives +0.0);
the model answers the formula's value (log entry 16). -/
def delayRead (s : State) (ch : Ch) (xn : Word) : Word :=
  let r := (s.dl ch).rptr
  if r = (s.dl ch).wptr then xn
  else f32Lerp (bufRead s ch r) (bufRead s ch ((r - 1) &&& maskL s.build)) (s.dl ch).dfrac

/-- The word an update writes, `xn +f (v ×f FB)` (R118). DESIGN CHOICE: the formula also at FB = 0, where R118
remarks that a finite `v` gives exactly `xn`, and R115 that every `ext` but ±inf does: a NaN `ext` gives the canonical NaN, and
`xn` = −0.0 can give +0.0 (log entry 16). -/
def feedbackWord (s : State) (xn v : Word) : Word := f32Add xn (f32Mul v s.fb)

/-- The output of an update, `(DRY ×f xn) +f (WET ×f yn)` (R119); its remarks on vibrato and on equal inputs are log
entry 16. -/
def crossfade (s : State) (xn yn : Word) : Word := f32Add (f32Mul s.dry xn) (f32Mul s.wet yn)

/-- `WPTR[ch] <- (WPTR[ch] + 1) & MASK_L` (R113). -/
def stepWrite (s : State) (ch : Ch) : State :=
  s.setDl ch { s.dl ch with wptr := ((s.dl ch).wptr + 1) &&& maskL s.build }

/-- The state after an update of channel `ch` that writes `v` into channel `dst`'s buffer at `dst`'s write cursor:
DL_UPD, DL_UPDE and MOD_UPDATE write their own channel, DL_UPDX the other (R113 to R115). -/
def updateState (s : State) (ch dst : Ch) (v : Word) : State := stepWrite (bufWrite s dst (s.dl dst).wptr v) ch

/-- The end of DL_OFS (R111): RANGE when the sample count has no s32 floor, else the read cursor is placed. -/
def storeOffset (ch : Ch) (s : State) : Option (Word × Word) → Result
  | none => reject .range s
  | some (d, f) => respond .ok 0 (placeRead s ch d f)

/-- DL_OFS (R111): NOCFG before CONFIG. -/
def execDlOfs (ch : Ch) (ms : Word) (s : State) : Result :=
  if !s.cfgValid then reject .nocfg s else storeOffset ch s (offsetSplit s ms)

/-- DL_UPD (R113). -/
def execDlUpd (ch : Ch) (xn : Word) (s : State) : Result :=
  let yn := delayRead s ch xn
  respond .ok (crossfade s xn yn) (updateState s ch ch (feedbackWord s xn yn))

/-- DL_UPDX (R114): the feedback goes to the other channel's buffer; only this channel's write cursor moves. -/
def execDlUpdx (ch : Ch) (xn : Word) (s : State) : Result :=
  let yn := delayRead s ch xn
  respond .ok (crossfade s xn yn) (updateState s ch ch.other (feedbackWord s xn yn))

/-- DL_UPDE (R115): the external scalar takes the place of `yn` in the feedback product only. -/
def execDlUpde (ch : Ch) (xn ext : Word) (s : State) : Result :=
  let yn := delayRead s ch xn
  respond .ok (crossfade s xn yn) (updateState s ch ch (feedbackWord s xn ext))

/-- DL_DRYWET (R116): stored unchanged, ORANGE outside 0 to 1. -/
def execDlDrywet (w : Word) (s : State) : Result :=
  respond (rangeCode unitLo unitHi w) 0 (recomputeMix { s with pDryWet := w })

/-- DL_FLUSH (R117): every word of both buffers is +0.0; nothing else changes. -/
def execDlFlush (s : State) : Result :=
  respond .ok 0 { s with dl0 := { s.dl0 with buf := Memory.zero }, dl1 := { s.dl1 with buf := Memory.zero } }

end Sys2Proof.Machine
end

