-- ==== Sys2Proof/Machine/Oscillator.lean ====
section
/-! DEFINITION. The wavetable oscillator (40_oscillator.md): the shared datapath R97, R99, R101, R103, and the meanings
of OSC_FREQ, OSC_WAVE, OSC_GEN, OSC_GENU, OSC_QUAD, OSC_UNISON and OSC_INV. -/

namespace Sys2Proof.Machine

/-- `osc_sample(ch)` (R97): the two neighbouring table words at the cursor, interpolated. -/
def oscSample (s : State) (ch : Ch) : Word :=
  let w := waveformNum s.waveSel
  let i0 := (s.osc ch).idx
  let i1 := (i0 + 1) &&& maskN s.build
  f32Lerp (romRead s.build w i0) (romRead s.build w i1) (s.osc ch).frac

/-- `polarity(y)` (R99): a bit operation. -/
def polarity (s : State) (y : Word) : Word := y ^^^ s.polMask

/-- The bipolar sample of OSC_GEN (R102). -/
def bipolarSample (s : State) (ch : Ch) : Word := polarity s (oscSample s ch)

/-- `x*0.5+0.5` (R103, R126); R103's remark on an exact half is log entry 16. -/
def unipolarOf (y : Word) : Word := f32Add (f32Mul y halfF) halfF

/-- The unipolar sample of OSC_GENU (R103). -/
def unipolarSample (s : State) (ch : Ch) : Word := unipolarOf (bipolarSample s ch)

/-- The integer the carry fold takes from the fraction sum (R101); a sum that is no finite number has none
(log entry 13). -/
def carryOf (fr : Word) : Int := if f32IsFinite fr then f32Floor fr else 0

/-- The cursor after one advance (R101). -/
def advancedCursor (b : Build) (incInt incFrac : Word) (c : OscCursor) : OscCursor :=
  let fr := f32Add c.frac incFrac
  let k := carryOf fr
  { idx := (c.idx + incInt + BitVec.ofInt 32 k) &&& maskN b, frac := f32Sub fr (f32OfInt k) }

/-- `advance(ch)` (R101). -/
def advance (s : State) (ch : Ch) : State :=
  s.setOsc ch (advancedCursor s.build s.incInt s.incFrac (s.osc ch))

/-- The phase increment `(N_f ×f freq) ÷f FS` (R98); its remark on a negative `freq` is log entry 16. -/
def phaseIncrement (s : State) (freq : Word) : Word := f32Div (f32Mul (tableLenF s.build) freq) s.fs

/-- The increment split (R98), `none` for RANGE. -/
def incrementSplit (s : State) (freq : Word) : Option (Word × Word) := f32Split (phaseIncrement s freq)

/-- The end of OSC_FREQ (R98): RANGE when the increment has no s32 floor, else the increment is stored, ORANGE outside
0.02 to 5.0 Hz. -/
def storeIncrement (freq : Word) (s : State) : Option (Word × Word) → Result
  | none => reject .range s
  | some (i, f) => respond (rangeCode rateLo rateHi freq) 0 { s with incInt := i, incFrac := f, rate := freq }

/-- OSC_FREQ (R98): NOCFG before CONFIG. -/
def execOscFreq (freq : Word) (s : State) : Result :=
  if !s.cfgValid then reject .nocfg s else storeIncrement freq s (incrementSplit s freq)

/-- OSC_WAVE (R100): four and above fall back to sine. -/
def execOscWave (sel : Word) (s : State) : Result := respond .ok 0 { s with waveSel := waveformOf sel }

/-- OSC_GEN (R102): the sample at the cursor before the advance. -/
def execOscGen (ch : Ch) (s : State) : Result := respond .ok (bipolarSample s ch) (advance s ch)

/-- OSC_GENU (R103). -/
def execOscGenu (ch : Ch) (s : State) : Result := respond .ok (unipolarSample s ch) (advance s ch)

/-- `N/4` (R104, 00_scope.md R6). -/
def quarterLen (b : Build) : Word := BitVec.ofNat 32 (b.tableLen / 4)

/-- OSC_QUAD (R104): channel 1 a quarter period ahead of channel 0, the fraction copied. -/
def execOscQuad (s : State) : Result :=
  respond .ok 0 { s with osc1 := { idx := (s.osc0.idx + quarterLen s.build) &&& maskN s.build, frac := s.osc0.frac } }

/-- OSC_UNISON (R105). -/
def execOscUnison (s : State) : Result := respond .ok 0 { s with osc1 := s.osc0 }

/-- OSC_INV (R106). -/
def execOscInv (s : State) : Result := respond .ok 0 { s with polMask := s.polMask ^^^ polSign }

end Sys2Proof.Machine
end

