-- ==== Sys2Proof/Machine/Modulation.lean ====
section
/-! DEFINITION. The modulation offset calculator and the coordinator (42_modulation.md): the rescaler R126 to R129 and
the meanings of MOD_UPDATE, SET_DEPTH, SET_FEEDBACK, SET_CHORUS_OFS, SET_EFFECT and SET_BYPASS. -/

namespace Sys2Proof.Machine

/-- The chorus-offset mask (R128): a bit operation. -/
def maskedOffset (s : State) : Word := s.pChorusOfs &&& s.cmask

/-- The rescaled term `((P_DEPTH ×f lfo) ×f DELTA) +f MIN_DELAY` (R127). -/
def rescaledTerm (s : State) (lfo : Word) : Word := f32Add (f32Mul (f32Mul s.pDepth lfo) s.delta) minDelay

/-- `mod_offset(lfo)` (R129). -/
def modOffset (s : State) (lfo : Word) : Word := f32Add (maskedOffset s) (rescaledTerm s lfo)

/-- The state of MOD_UPDATE after its fourth step (R125, R130): the cursor has advanced and the read cursor is placed. -/
def modulated (s : State) (ch : Ch) (d f : Word) : State := placeRead (advance s ch) ch d f

/-- The end of MOD_UPDATE (R125): RANGE with nothing kept when the offset has no s32 floor, else the delay line is updated
with the placed read cursor. -/
def updateModulated (ch : Ch) (xn : Word) (s : State) : Option (Word × Word) → Result
  | none => reject .range s
  | some (d, f) =>
    let placed := modulated s ch d f
    let yn := delayRead placed ch xn
    respond .ok (crossfade placed xn yn) (updateState placed ch ch (feedbackWord placed xn yn))

/-- MOD_UPDATE (R125, priority R156): bypass answers the input and changes nothing; else NOCFG before CONFIG. -/
def execModUpdate (ch : Ch) (xn : Word) (s : State) : Result :=
  if s.bypass then respond .ok xn s
  else if !s.cfgValid then reject .nocfg s
  else updateModulated ch xn s (offsetSplit s (modOffset s (unipolarSample s ch)))

/-- SET_DEPTH (R131): stored unchanged, ORANGE outside 0 to 1. -/
def execSetDepth (v : Word) (s : State) : Result := respond (rangeCode unitLo unitHi v) 0 { s with pDepth := v }

/-- SET_FEEDBACK (R132): stored unchanged, ORANGE outside −0.95 to 0.95. -/
def execSetFeedback (v : Word) (s : State) : Result :=
  respond (rangeCode feedbackLo feedbackHi v) 0 (recomputeMix { s with pFeedback := v })

/-- SET_CHORUS_OFS (R134): stored unchanged, ORANGE outside 5 to 35 ms. -/
def execSetChorusOfs (v : Word) (s : State) : Result :=
  respond (rangeCode chorusLo chorusHi v) 0 { s with pChorusOfs := v }

/-- SET_EFFECT (R133): RANGE for 3 and above, the whole word compared. -/
def execSetEffect (e : Word) (s : State) : Result :=
  match effectOf e with
  | none => reject .range s
  | some x => respond .ok 0 (recomputeMix { s with effect := x, delta := effectDelta x, cmask := effectMask x })

/-- SET_BYPASS (R135): RANGE for 2 and above. -/
def execSetBypass (b : Word) (s : State) : Result :=
  match bypassOf b with
  | none => reject .range s
  | some x => respond .ok 0 { s with bypass := x }

end Sys2Proof.Machine
end

