-- ==== Sys2Proof/Machine/System.lean ====
section
/-! DEFINITION. The system commands (43_system.md): NOP, CONFIG, READ_REG, READ_BUF, READ_ROM and CLR_STATUS. None is
gated (R140). -/

namespace Sys2Proof.Machine

/-- NOP (R139). -/
def execNop (s : State) : Result := respond .ok 0 s

/-- CONFIG (R141): CFGBAD for an unusable sample rate (R142, R154). -/
def execConfig (fs mb : Word) (s : State) : Result :=
  if cfgOk s.build fs then respond .ok 0 { s with fs := fs, maxBlock := mb, cfgValid := true }
  else reject .cfgbad s

/-- READ_REG (R143): RANGE for an unassigned number. -/
def execReadReg (r : Word) (s : State) : Result :=
  match regValue s r.toNat with
  | none => reject .range s
  | some v => respond .ok v s

/-- READ_BUF (R144): an absolute address, not wrapped. -/
def execReadBuf (ch : Ch) (a : Word) (s : State) : Result :=
  if a.toNat < s.build.bufLen then respond .ok ((s.dl ch).buf.read a.toNat) s else reject .range s

/-- READ_ROM (R145): not wrapped, no fallback to sine. -/
def execReadRom (w i : Word) (s : State) : Result :=
  if w.toNat < 4 ∧ i.toNat < s.build.tableLen then respond .ok (romRead s.build w.toNat i) s else reject .range s

/-- CLR_STATUS (R146): bits 31:5 of the mask are ignored. -/
def execClrStatus (m : Word) (s : State) : Result := respond .ok 0 { s with sticky := clearSticky s.sticky m }

end Sys2Proof.Machine
end

