-- ==== Sys2Proof/Machine/Dispatch.lean ====
section
/-! DEFINITION. `exec`: one arm for each constructor of `Instr`, each arm one direct call of that command's meaning
(30_encoding.md R80 names the rule of each). -/

namespace Sys2Proof.Machine

def exec (i : Instr) (s : State) : Host.Outcome State Fault Refusal :=
  match i with
  | .nop => Sys2Proof.Machine.execNop s
  | .oscFreq freq => Sys2Proof.Machine.execOscFreq freq s
  | .oscWave sel => Sys2Proof.Machine.execOscWave sel s
  | .oscGen ch => Sys2Proof.Machine.execOscGen ch s
  | .oscGenu ch => Sys2Proof.Machine.execOscGenu ch s
  | .oscQuad => Sys2Proof.Machine.execOscQuad s
  | .oscUnison => Sys2Proof.Machine.execOscUnison s
  | .oscInv => Sys2Proof.Machine.execOscInv s
  | .dlOfs ch ms => Sys2Proof.Machine.execDlOfs ch ms s
  | .dlUpd ch xn => Sys2Proof.Machine.execDlUpd ch xn s
  | .dlUpdx ch xn => Sys2Proof.Machine.execDlUpdx ch xn s
  | .dlUpde ch xn ext => Sys2Proof.Machine.execDlUpde ch xn ext s
  | .dlDrywet w => Sys2Proof.Machine.execDlDrywet w s
  | .dlFlush => Sys2Proof.Machine.execDlFlush s
  | .modUpdate ch xn => Sys2Proof.Machine.execModUpdate ch xn s
  | .setDepth v => Sys2Proof.Machine.execSetDepth v s
  | .setFeedback v => Sys2Proof.Machine.execSetFeedback v s
  | .setChorusOfs v => Sys2Proof.Machine.execSetChorusOfs v s
  | .setEffect e => Sys2Proof.Machine.execSetEffect e s
  | .setBypass b => Sys2Proof.Machine.execSetBypass b s
  | .config fs mb => Sys2Proof.Machine.execConfig fs mb s
  | .readReg r => Sys2Proof.Machine.execReadReg r s
  | .readBuf ch a => Sys2Proof.Machine.execReadBuf ch a s
  | .readRom w n => Sys2Proof.Machine.execReadRom w n s
  | .clrStatus m => Sys2Proof.Machine.execClrStatus m s

end Sys2Proof.Machine
end

