-- ==== Sys2Proof/Machine/Interface.lean ====
section
/-! DEFINITION. The ports (30_encoding.md R69 to R73) and one clock edge. mdcore fetches nothing (20_memory.md R62):
its program is the host's command stream, which the state holds edge by edge (log entry 3). Cycles at which the
handshake cannot move are not counted (log entry 4). -/

namespace Sys2Proof.Machine

/-- `cmd_ready` when `rst = 0`: no response is waiting to be taken (30_encoding.md R70). -/
def cmdReady (s : State) : Bool := s.rsp.isNone

/-- `rsp_valid` (30_encoding.md R71). -/
def rspValid (s : State) : Bool := s.rsp.isSome

/-- "on accept" (60_exceptions.md R147): decode, reject an ILLEGAL command, execute a legal one. -/
def accept (c : Command) (s : State) : Result :=
  match decode c with
  | .error _ => reject .illegal s
  | .ok i => exec i s

/-- One rising edge of `clk`: reset (R72, R163), or the response handshake while a response waits (R71), or the command
handshake (R70). With `cmd_ready = 0` an offered command is not accepted. -/
def clockEdge (e : Edge) (s : State) : Result :=
  if e.rst then .next (applyReset s)
  else if rspValid s then .next (if e.rspReady then takeResponse s else s)
  else
    match e.cmd with
    | none => .next s
    | some c => accept c s

/-- The next edge of what the host drives. When nothing more is given the core idles and keeps all state
(60_exceptions.md R161). -/
def nextEdge (s : State) : Result :=
  match s.inputs with
  | [] => .next s
  | e :: rest => clockEdge e { s with inputs := rest }

/-- An edge at which the host offers a command. -/
def offerEdge (c : Command) : Edge := ⟨false, some c, false⟩

/-- The state with a command offered at the next edge and no response in its way. -/
def offer (c : Command) (s : State) : State := { s with rsp := none, inputs := offerEdge c :: s.inputs }

end Sys2Proof.Machine
end

