-- ==== Sys2Proof/Machine/Step.lean ====
section
/-! DEFINITION. One step of the machine: one clock edge (Machine/Interface.lean), and how a given command is made the
one the next step runs. -/

namespace Sys2Proof.Machine

/-- One step: the next clock edge. -/
def step (s : State) : Host.Outcome State Fault Refusal := nextEdge s

/-- `s` with the command whose bits are `w` offered at the next edge, and no response waiting, so that the next step
accepts and runs it (log entry 3). -/
def State.withFetchWord (s : State) (nbits w : Nat) : State := offer (commandOfBits nbits w) s

end Sys2Proof.Machine
end

