-- ==== Sys2Proof/WellFormed.lean ====
section
/-! DEFINITION. What a legal command word is, from the match and mask of each row of the opcode map (30_encoding.md
R80) and not from the decoder, and what a legal build is (00_scope.md R5). Every term of `Instr` is legal as it
stands: its operands are whole words and a channel has two values (R77, R82). -/

namespace Sys2Proof

/-- One row of the opcode map: the command is the row's when `CTRL & mask = value`. -/
structure OpcodeRow where
  value : Word
  mask : Word
deriving DecidableEq, Repr

/-- A row without CH matches `CTRL = OPCODE` (30_encoding.md R80). -/
def OpcodeRow.plain (op : Word) : OpcodeRow := ⟨op, 0xFFFFFFFF⟩

/-- A row whose form has CH matches `CTRL & 0xFFFFFEFF = OPCODE` (30_encoding.md R80). -/
def OpcodeRow.channel (op : Word) : OpcodeRow := ⟨op, 0xFFFFFEFF⟩

/-- The opcodes of the forms without CH (30_encoding.md R77, R80). -/
def plainOpcodes : List Word :=
  [0x00, 0x10, 0x11, 0x14, 0x15, 0x16, 0x24, 0x25, 0x31, 0x32, 0x33, 0x34, 0x35, 0x40, 0x41, 0x43, 0x44]

/-- The opcodes of the forms with CH (30_encoding.md R77, R80, R82). -/
def channelOpcodes : List Word := [0x12, 0x13, 0x20, 0x21, 0x22, 0x23, 0x30, 0x42]

/-- The rows of the opcode map (30_encoding.md R80). -/
def opcodeRows : List OpcodeRow := plainOpcodes.map OpcodeRow.plain ++ channelOpcodes.map OpcodeRow.channel

/-- Does the row match the command's CTRL word? -/
def OpcodeRow.matchesWord (row : OpcodeRow) (ctrl : Word) : Bool := ctrl &&& row.mask == row.value

/-- A legal command: its CTRL word matches a row of the opcode map. DATA0 and DATA1 may hold any value (R76). -/
def Command.wellFormed (c : Command) : Bool := opcodeRows.any (·.matchesWord c.ctrl)

/-- A ROM word is finite and in `[−1, +1]` (10_state.md R28): its magnitude bits are at most those of 1.0. -/
def romWordLegal (w : Word) : Bool := decide ((w &&& 0x7FFFFFFF).toNat ≤ 0x3F800000)

/-- A table has N legal words (10_state.md R28). -/
def tableLegal (n : Nat) (t : List Word) : Bool := t.length == n && t.all romWordLegal

/-- The four tables of a ROM are legal (10_state.md R28). -/
def RomImage.wellFormed (n : Nat) (r : RomImage) : Bool :=
  tableLegal n r.sine && tableLegal n r.sawtooth && tableLegal n r.triangle && tableLegal n r.square

/-- `NUM_HARMONICS` is an integer ≥ 1 (00_scope.md R5). -/
def TableMode.wellFormed : TableMode → Bool
  | .closed => true
  | .additive h => decide (1 ≤ h)

/-- The legal values of the build sizes: `2 ≤ LOG2_N ≤ 16` and `1 ≤ LOG2_L ≤ 24` (00_scope.md R5). -/
def Build.sizesLegal (b : Build) : Bool :=
  decide (2 ≤ b.log2N) && decide (b.log2N ≤ 16) && decide (1 ≤ b.log2L) && decide (b.log2L ≤ 24)

/-- A legal build (00_scope.md R5, 10_state.md R28). -/
def Build.wellFormed (b : Build) : Bool :=
  b.sizesLegal && b.mode.wellFormed && b.rom.wellFormed b.tableLen

end Sys2Proof
end

