-- ==== Sys2Proof/Safety.lean ====
section
/-! DEFINITION. What counts as a safe run, the invariants of the machine, and the words claims are stated in: which
part of the state a command leaves unchanged, and what it answers. -/

namespace Sys2Proof.Machine

/-- No command of the run was rejected (93_implementation_defined.md I9): the premise a claim takes instead of "no
fault", since CLR_STATUS can clear STATUS (60_exceptions.md R162). -/
def State.runSafe (s : State) : Prop := s.record.rejected = none

/-- A safe run in which every parameter was inside its range (60_exceptions.md R162). -/
def State.runInRange (s : State) : Prop := s.runSafe ∧ s.record.orange = false

/-! ## Parts of the state left unchanged -/

/-- The build and the configuration registers. -/
def sameConfig (s t : State) : Prop :=
  t.build = s.build ∧ t.fs = s.fs ∧ t.maxBlock = s.maxBlock ∧ t.cfgValid = s.cfgValid

/-- The oscillator registers both channels share. -/
def sameWave (s t : State) : Prop :=
  t.waveSel = s.waveSel ∧ t.rate = s.rate ∧ t.incInt = s.incInt ∧ t.incFrac = s.incFrac ∧ t.polMask = s.polMask

/-- Channel `ch`'s oscillator cursor. -/
def sameOsc (ch : Ch) (s t : State) : Prop := t.osc ch = s.osc ch

/-- Channel `ch`'s write cursor. -/
def sameWptr (ch : Ch) (s t : State) : Prop := (t.dl ch).wptr = (s.dl ch).wptr

/-- Channel `ch`'s read cursor and fraction. -/
def sameRptr (ch : Ch) (s t : State) : Prop := (t.dl ch).rptr = (s.dl ch).rptr ∧ (t.dl ch).dfrac = (s.dl ch).dfrac

/-- Every word of channel `ch`'s buffer reads as before. -/
def sameBuf (ch : Ch) (s t : State) : Prop := ∀ a, (t.dl ch).buf.read a = (s.dl ch).buf.read a

/-- Every word of channel `ch`'s buffer but the one at `a` reads as before. -/
def sameBufBut (ch : Ch) (a : Nat) (s t : State) : Prop :=
  ∀ b, b ≠ a → (t.dl ch).buf.read b = (s.dl ch).buf.read b

/-- Both channels' oscillator cursors. -/
def sameOscs (s t : State) : Prop := ∀ ch, sameOsc ch s t

/-- All of channel `ch`'s delay line. -/
def sameDelay (ch : Ch) (s t : State) : Prop := sameWptr ch s t ∧ sameRptr ch s t ∧ sameBuf ch s t

/-- Both channels' delay lines. -/
def sameDelays (s t : State) : Prop := ∀ ch, sameDelay ch s t

/-- The working coefficients. -/
def sameMix (s t : State) : Prop := t.wet = s.wet ∧ t.dry = s.dry ∧ t.fb = s.fb

/-- The host parameters. -/
def sameParams (s t : State) : Prop :=
  t.pDryWet = s.pDryWet ∧ t.pFeedback = s.pFeedback ∧ t.pDepth = s.pDepth ∧ t.pChorusOfs = s.pChorusOfs

/-- The effect and its constants. -/
def sameEffect (s t : State) : Prop := t.effect = s.effect ∧ t.delta = s.delta ∧ t.cmask = s.cmask

/-- The coordinator: coefficients, parameters, effect, bypass. -/
def sameCoord (s t : State) : Prop := sameMix s t ∧ sameParams s t ∧ sameEffect s t ∧ t.bypass = s.bypass

/-- Every register and memory of the core but the sticky bits. What a command does with the model's own fields,
EveryCommandAnswersOnce says. -/
def sameCore (s t : State) : Prop :=
  sameConfig s t ∧ sameWave s t ∧ sameOscs s t ∧ sameDelays s t ∧ sameCoord s t

/-- What ends a command (00_scope.md R14, 60_exceptions.md R148): the response, and the code's STATUS bit set and no other
bit changed. -/
def answers (code : RspCode) (data : Word) (s t : State) : Prop :=
  t.rsp = some ⟨code, data⟩ ∧ t.sticky = s.sticky ||| stickyBit code

/-- A rejected command (60_exceptions.md R151): data 0, and nothing of the core changed but the STATUS bit and the
response. -/
def rejectedWith (code : RspCode) (s t : State) : Prop := answers code 0 s t ∧ sameCore s t

/-! ## The invariants -/

/-- `[0, 1)` (10_state.md R26). -/
def belowOne (x : Word) : Prop := f32Le zeroF x = true ∧ f32Lt x oneF = true

/-- `[0, 1]` (10_state.md R25, R32). -/
def atMostOne (x : Word) : Prop := f32Le zeroF x = true ∧ f32Le x oneF = true

/-- `−1 ≤ x ≤ 1`, the range of a ROM word and of a bipolar sample (10_state.md R28, 40_oscillator.md R108). -/
def bipolar (x : Word) : Prop := f32Le 0xBF800000 x = true ∧ f32Le x 0x3F800000 = true

/-- Every cursor is inside its table or buffer (00_scope.md R16, 10_state.md R26, R31, R32). -/
structure CursorsInside (s : State) : Prop where
  idx : ∀ ch, (s.osc ch).idx.toNat < s.build.tableLen
  wptr : ∀ ch, (s.dl ch).wptr.toNat < s.build.bufLen
  rptr : ∀ ch, (s.dl ch).rptr.toNat < s.build.bufLen

/-- Every fraction is in its range (10_state.md R25, R26, R32). -/
structure FractionsInside (s : State) : Prop where
  inc : atMostOne s.incFrac
  osc : ∀ ch, belowOne (s.osc ch).frac
  delay : ∀ ch, atMostOne (s.dl ch).dfrac

/-- Both buffers are in canonical form and inside `0 .. L−1` (log entry 2, 20_memory.md R48). -/
structure BuffersCanonical (s : State) : Prop where
  wf : ∀ ch, (s.dl ch).buf.wf = true
  inside : ∀ ch, (s.dl ch).buf.below s.build.bufLen = true

/-- The working coefficients are those of the effect and the host parameters (10_state.md R36 table, R37). -/
def mixConsistent (s : State) : Prop :=
  match s.effect with
  | .vibrato => s.wet = 0x3F800000 ∧ s.dry = 0 ∧ s.fb = 0
  | _ => s.wet = s.pDryWet ∧ s.dry = f32Sub 0x3F800000 s.pDryWet ∧ s.fb = s.pFeedback

/-- DELTA and CMASK are those of the effect (10_state.md R36 table). -/
def effectConsistent (s : State) : Prop :=
  match s.effect with
  | .chorus => s.delta = 0x41C80000 ∧ s.cmask = 0xFFFFFFFF
  | _ => s.delta = 0x40E00000 ∧ s.cmask = 0

/-- The registers that follow from others do (10_state.md R22, R27, R36, R37). -/
structure RegistersConsistent (s : State) : Prop where
  polMask : s.polMask = 0 ∨ s.polMask = 0x80000000
  effect : effectConsistent s
  mix : mixConsistent s
  config : s.cfgValid = true → cfgOk s.build s.fs = true

/-- The machine's structural invariant. -/
structure Inv (s : State) : Prop where
  sizes : s.build.sizesLegal = true
  cursors : CursorsInside s
  buffers : BuffersCanonical s
  registers : RegistersConsistent s

/-! ## Words for single claims -/

/-- The register map of 10_state.md R41 as a list, register 0x00 first. -/
def registerMap (s : State) : List Word :=
  [statusWord s, s.fs, s.maxBlock, BitVec.ofNat 32 (waveformNum s.waveSel), s.rate, s.incInt, s.incFrac] ++
  [s.osc0.idx, s.osc0.frac, s.osc1.idx, s.osc1.frac, s.polMask] ++
  [s.dl0.wptr, s.dl0.rptr, s.dl0.dfrac, s.dl1.wptr, s.dl1.rptr, s.dl1.dfrac] ++
  [s.wet, s.dry, s.fb, s.pDryWet, s.pFeedback, s.pDepth, s.pChorusOfs] ++
  [BitVec.ofNat 32 (effectNum s.effect), s.delta, s.cmask, boolWord s.bypass, 0x4D440001, paramsWord s.build]

/-- Does the command use DATA0 (30_encoding.md R77)? -/
def usesData0 : Instr → Bool
  | .nop | .oscQuad | .oscUnison | .oscInv | .dlFlush | .oscGen _ | .oscGenu _ => false
  | .oscFreq _ | .oscWave _ | .dlOfs _ _ | .dlUpd _ _ | .dlUpdx _ _ | .dlUpde _ _ _ | .dlDrywet _ => true
  | .modUpdate _ _ | .setDepth _ | .setFeedback _ | .setChorusOfs _ | .setEffect _ | .setBypass _ => true
  | .config _ _ | .readReg _ | .readBuf _ _ | .readRom _ _ | .clrStatus _ => true

/-- Does the command use DATA1 (30_encoding.md R77)? -/
def usesData1 : Instr → Bool
  | .dlUpde _ _ _ | .config _ _ | .readRom _ _ => true
  | .nop | .oscQuad | .oscUnison | .oscInv | .dlFlush | .oscGen _ | .oscGenu _ => false
  | .oscFreq _ | .oscWave _ | .dlOfs _ _ | .dlUpd _ _ | .dlUpdx _ _ | .dlDrywet _ => false
  | .modUpdate _ _ | .setDepth _ | .setFeedback _ | .setChorusOfs _ | .setEffect _ | .setBypass _ => false
  | .readReg _ | .readBuf _ _ | .clrStatus _ => false

/-- The commands that write channel `ch`'s buffer (20_memory.md R48): its own updates, the other channel's DL_UPDX,
and the flush. -/
def writesBuf (ch : Ch) : Instr → Bool
  | .dlUpd c _ => c = ch
  | .dlUpde c _ _ => c = ch
  | .modUpdate c _ => c = ch
  | .dlUpdx c _ => c ≠ ch
  | .dlFlush => true
  | .nop | .oscQuad | .oscUnison | .oscInv | .oscGen _ | .oscGenu _ | .oscFreq _ | .oscWave _ | .dlOfs _ _ => false
  | .dlDrywet _ | .setDepth _ | .setFeedback _ | .setChorusOfs _ | .setEffect _ | .setBypass _ => false
  | .config _ _ | .readReg _ | .readBuf _ _ | .readRom _ _ | .clrStatus _ => false

/-- The commands that write channel `ch`'s oscillator cursor (10_state.md R26): its own generates and MOD_UPDATE, and
for channel 1 the two that set its phase. -/
def writesOsc (ch : Ch) : Instr → Bool
  | .oscGen c => c = ch
  | .oscGenu c => c = ch
  | .modUpdate c _ => c = ch
  | .oscQuad => ch = .quadrature
  | .oscUnison => ch = .quadrature
  | .nop | .oscInv | .oscFreq _ | .oscWave _ | .dlOfs _ _ | .dlUpd _ _ | .dlUpdx _ _ | .dlUpde _ _ _ => false
  | .dlDrywet _ | .dlFlush | .setDepth _ | .setFeedback _ | .setChorusOfs _ | .setEffect _ | .setBypass _ => false
  | .config _ _ | .readReg _ | .readBuf _ _ | .readRom _ _ | .clrStatus _ => false

/-- The commands that write channel `ch`'s write cursor (10_state.md R31). -/
def writesWptr (ch : Ch) : Instr → Bool
  | .dlUpd c _ => c = ch
  | .dlUpdx c _ => c = ch
  | .dlUpde c _ _ => c = ch
  | .modUpdate c _ => c = ch
  | .nop | .oscQuad | .oscUnison | .oscInv | .oscGen _ | .oscGenu _ | .oscFreq _ | .oscWave _ | .dlOfs _ _ => false
  | .dlDrywet _ | .dlFlush | .setDepth _ | .setFeedback _ | .setChorusOfs _ | .setEffect _ | .setBypass _ => false
  | .config _ _ | .readReg _ | .readBuf _ _ | .readRom _ _ | .clrStatus _ => false

/-- The commands that write channel `ch`'s read cursor and fraction (10_state.md R32). -/
def writesRptr (ch : Ch) : Instr → Bool
  | .dlOfs c _ => c = ch
  | .modUpdate c _ => c = ch
  | .nop | .oscQuad | .oscUnison | .oscInv | .oscGen _ | .oscGenu _ | .oscFreq _ | .oscWave _ => false
  | .dlUpd _ _ | .dlUpdx _ _ | .dlUpde _ _ _ | .dlDrywet _ | .dlFlush => false
  | .setDepth _ | .setFeedback _ | .setChorusOfs _ | .setEffect _ | .setBypass _ => false
  | .config _ _ | .readReg _ | .readBuf _ _ | .readRom _ _ | .clrStatus _ => false

/-- `TABLE_ROM[w][n mod N]` (00_scope.md R13). -/
def tableWord (b : Build) (w n : Nat) : Word := (romTable b.rom w).getD (n % b.tableLen) 0

/-- The polarity-applied interpolated sample at channel `ch`'s cursor (40_oscillator.md R97, R99). -/
def tableSample (s : State) (ch : Ch) : Word :=
  f32Lerp (tableWord s.build (waveformNum s.waveSel) (s.osc ch).idx.toNat)
    (tableWord s.build (waveformNum s.waveSel) ((s.osc ch).idx.toNat + 1)) (s.osc ch).frac ^^^ s.polMask

/-- The unipolar remap `x*0.5+0.5` (40_oscillator.md R103). -/
def remapped (y : Word) : Word := f32Add (f32Mul y 0x3F000000) 0x3F000000

/-- The fraction sum of channel `ch`'s advance (40_oscillator.md R101). -/
def fractionSum (s : State) (ch : Ch) : Word := f32Add (s.osc ch).frac s.incFrac

/-- From `s` to `t` channel `ch`'s oscillator cursor makes one advance (40_oscillator.md R101), the index modulo N. -/
def advancesOsc (ch : Ch) (s t : State) : Prop :=
  ((t.osc ch).idx.toNat : Int) =
      (((s.osc ch).idx.toNat : Int) + s.incInt.toInt + f32Int (fractionSum s ch) / 2 ^ 149) % (s.build.tableLen : Int) ∧
    (t.osc ch).frac = f32Sub (fractionSum s ch) (f32OfInt (f32Int (fractionSum s ch) / 2 ^ 149))

/-- `BUF[ch][n mod L]` (00_scope.md R13). -/
def bufWord (s : State) (ch : Ch) (n : Int) : Word := (s.dl ch).buf.read (n % (s.build.bufLen : Int)).toNat

/-- The delayed sample of 41_delay_line.md R112, of a read cursor `r` with fraction `f`, on the buffer and the write
cursor of `s`. -/
def delayedSample (s : State) (ch : Ch) (r f xn : Word) : Word :=
  if r = (s.dl ch).wptr then xn else f32Lerp (bufWord s ch r.toNat) (bufWord s ch ((r.toNat : Int) - 1)) f

/-- The output of a delay update (41_delay_line.md R119). -/
def mixed (s : State) (xn yn : Word) : Word := f32Add (f32Mul s.dry xn) (f32Mul s.wet yn)

/-- The buffer address a delay update of channel `ch` stores to: `WPTR[ch]` masked (00_scope.md R13). -/
def storeAddr (s : State) (ch : Ch) : Nat := ((s.dl ch).wptr &&& maskL s.build).toNat

/-- From `s` to `t` channel `ch`'s write cursor moves one word on, modulo L (41_delay_line.md R113). -/
def advancesWptr (ch : Ch) (s t : State) : Prop :=
  (t.dl ch).wptr.toNat = ((s.dl ch).wptr.toNat + 1) % s.build.bufLen

/-- In `t` channel `ch`'s read cursor is `d` words behind the write cursor of `s`, modulo L, with fraction `f`
(41_delay_line.md R111). -/
def readPlaced (ch : Ch) (d f : Word) (s t : State) : Prop :=
  ((t.dl ch).rptr.toNat : Int) = (((s.dl ch).wptr.toNat : Int) - d.toInt) % (s.build.bufLen : Int) ∧ (t.dl ch).dfrac = f

/-- The modulated offset in ms (42_modulation.md R127 to R129). -/
def offsetMs (s : State) (lfo : Word) : Word :=
  f32Add (s.pChorusOfs &&& s.cmask) (f32Add (f32Mul (f32Mul s.pDepth lfo) s.delta) 0x3C23D70A)

/-- The sample count of an offset, split (41_delay_line.md R111). -/
def samplesSplit (s : State) (ms : Word) : Option (Word × Word) := f32Split (f32Div (f32Mul s.fs ms) 0x447A0000)

/-- The real numbers `num / den` and the value of the finite `r` are no farther apart than `num / den` and the value of
any finite `m`, and where another value is as near, `r` is the even one (00_scope.md R10). Values are in units of 2^-149. -/
def nearestEven (num den : Int) (r : Word) : Prop :=
  ∀ m, f32IsFinite m = true →
    |num - den * f32Int r| ≤ |num - den * f32Int m| ∧
      (|num - den * f32Int r| = |num - den * f32Int m| → f32Int m ≠ f32Int r → f32Mag r % 2 = 0)

/-- A command run again and again, the response taken each time: the state after all of them, if none stops. -/
def execAll : List Instr → State → Option State
  | [], s => some s
  | i :: rest, s =>
    match exec i s with
    | .next t => execAll rest t
    | .fault _ => none
    | .refused _ => none

end Sys2Proof.Machine
end

