-- ==== Sys2Proof/Certificates/Slice0/Obligations.lean ====
section
/-! DEFINITION. The statements for the provers, in the words of Safety.lean. OBLIGATIONS.json lists them with the rules
they rest on. -/

open Sys2Proof Sys2Proof.Machine

/-! ## Encoding -/

/-- R75, R77, R80, R82: no bit of a command's encoding is dropped. -/
def Obligations.DecodeInvertsEncode : Prop := ∀ i : Instr, decode (encode i) = .ok i

/-- R79, R80, R83, R84, R85: the decoder accepts a command exactly when its CTRL word matches a row of the opcode map. -/
def Obligations.DecoderAcceptsExactlyOpcodeMap : Prop :=
  ∀ c : Command, (∃ i, decode c = .ok i) ↔ c.wellFormed = true

/-- R76: a data word that a command does not use may hold any value. -/
def Obligations.UnusedWordsAreIgnored : Prop :=
  ∀ (c : Command) (i : Instr) (d : Word), decode c = .ok i →
    (usesData0 i = false → decode { c with data0 := d } = .ok i) ∧
      (usesData1 i = false → decode { c with data1 := d } = .ok i)

/-- R92, R93 and the listings of 95_test_vectors.md: command words decode to the commands they are listed as, and those
listed as ILLEGAL do not. -/
def Obligations.ListedWordsDecode : Prop :=
  decode ⟨0x00000130, 0x3F800000, 0⟩ = .ok (.modUpdate .quadrature 0x3F800000) ∧
  decode ⟨0x00000023, 0x3F000000, 0x40000000⟩ = .ok (.dlUpde .primary 0x3F000000 0x40000000) ∧
  decode ⟨0x00000010, 0x40200000, 0⟩ = .ok (.oscFreq 0x40200000) ∧
  decode ⟨0x00000142, 0x0000004D, 0⟩ = .ok (.readBuf .quadrature 0x4D) ∧
  decode ⟨0x00000040, 0x472C4400, 0x00000200⟩ = .ok (.config 0x472C4400 0x200) ∧
  decode ⟨0, 0, 0⟩ = .ok .nop ∧
  decode ⟨0x00000017, 0, 0⟩ = .error .unassignedOpcode ∧
  decode ⟨0x00000114, 0, 0⟩ = .error .strayChannel ∧
  decode ⟨0x00000210, 0x3F800000, 0⟩ = .error .reservedBit

/-! ## The step -/

/-- R70, R147: at an edge with no reset, an offered command and `cmd_ready`, the step is `exec` of the decoded command.
That one edge is one step is the model's choice (log entries 3 and 4). -/
def Obligations.StepRunsDecodedCommand : Prop :=
  ∀ (s : State) (e : Edge) (rest : List Edge) (c : Command) (i : Instr), s.inputs = e :: rest → e.rst = false →
    e.cmd = some c → s.rsp = none → decode c = .ok i → step s = exec i { s with inputs := rest }

/-- R147: an undecodable command changes nothing but STATUS.ILL and answers ILLEGAL with data 0. That one edge is one step,
and that its code is recorded, is the model's choice (log entries 3, 4 and 5). -/
def Obligations.IllegalCommandIsRejected : Prop :=
  ∀ (s : State) (e : Edge) (rest : List Edge) (c : Command) (x : Illegal), s.inputs = e :: rest → e.rst = false →
    e.cmd = some c → s.rsp = none → decode c = .error x →
      ∃ t, step s = .next t ∧ rejectedWith .illegal s t ∧ t.inputs = rest ∧ t.record = noteCode s.record .illegal

/-- R70, R71: while a response waits no command is accepted, and the response is held until `rsp_ready`. That
one edge is one step is the model's choice (log entries 3 and 4). -/
def Obligations.PendingResponseBlocksCommands : Prop :=
  ∀ (s : State) (e : Edge) (rest : List Edge) (r : Response), s.inputs = e :: rest → e.rst = false → s.rsp = some r →
    step s = .next { s with inputs := rest, rsp := if e.rspReady then none else some r }

/-- R45: after an edge with `rst = 1` every register holds its value in the table of R41, every delay-buffer word is
+0.0, and the ROM is unchanged; R72: no response is left. PARAMS is the build's (R40). That a reset is one
step, and keeps what the host drives next and the run's record, is the model's choice (log entries 3, 4, 5 and 11). -/
def Obligations.ResetEdgeRestoresEveryRegister : Prop :=
  ∀ (s : State) (e : Edge) (rest : List Edge), s.inputs = e :: rest → e.rst = true →
    ∃ t, step s = .next t ∧ t.build = s.build ∧ t.rsp = none ∧ t.inputs = rest ∧ t.record = s.record ∧
      (∀ ch a, (t.dl ch).buf.read a = 0) ∧
      registerMap t = List.replicate 19 0 ++ [0x3F800000] ++ List.replicate 6 0 ++ [0x40E00000] ++
        List.replicate 2 0 ++ [0x4D440001, paramsWord s.build]

/-- R41 for the reference build, whose choice is log entry 1: what reset leaves in the 31 registers. -/
def Obligations.ResetStateRegisterMap : Prop :=
  ∀ r, (r : Nat) < 31 → regValue State.reset r = some
    ((List.replicate 19 (0 : Word) ++ [0x3F800000] ++ List.replicate 6 0 ++ [0x40E00000] ++ List.replicate 2 0 ++
      [0x4D440001, 0x0000110A]).getD r 0)

/-! ## Rules of the whole machine -/

/-- R71, R91: every command ends in a next state with a response. It leaves the build and the host's edges alone and
records its code: those three fields are the model's own (log entries 1, 3 and 5). -/
def Obligations.EveryCommandAnswersOnce : Prop :=
  ∀ (i : Instr) (s : State), ∃ t r, exec i s = .next t ∧ t.rsp = some r ∧ t.build = s.build ∧ t.inputs = s.inputs ∧
    t.record = noteCode s.record r.code

/-- R14, R90, R151: a rejected command has committed nothing but its STATUS bit, and answers data 0. -/
def Obligations.RejectionIsPrecise : Prop :=
  ∀ (i : Instr) (s t : State) (r : Response), exec i s = .next t → t.rsp = some r → codeRejects r.code = true →
    rejectedWith r.code s t

/-- R148: the code's STATUS bit is set, and no command but CLR_STATUS clears one. -/
def Obligations.OnlyClrStatusClearsStickyBits : Prop :=
  ∀ (i : Instr) (s t : State) (r : Response), (∀ m, i ≠ .clrStatus m) → exec i s = .next t → t.rsp = some r →
    t.sticky = s.sticky ||| stickyBit r.code

/-- R42, R148: no command but a read of STATUS depends on the sticky bits (nor on the model's record, log entry 5): with
other bits it answers the same and changes the rest of the state in the same way. -/
def Obligations.StickyBitsNeverDecide : Prop :=
  ∀ (i : Instr) (s : State) (x : BitVec 5) (y : RunRecord), i ≠ .readReg 0 →
    ∃ t x' y', exec i s = .next t ∧
      exec i { s with sticky := x, record := y } = .next { t with sticky := x', record := y' }

/-- R56: READ_REG, READ_BUF and READ_ROM are idempotent. -/
def Obligations.ObservationReadsAreIdempotent : Prop :=
  ∀ (i : Instr) (s : State), ((∃ r, i = .readReg r) ∨ (∃ ch a, i = .readBuf ch a) ∨ ∃ w n, i = .readRom w n) →
    ∃ t, exec i s = .next t ∧ exec i t = .next t ∧ sameCore s t

/-- R48, R64: a channel's buffer is written by its own updates, by the other channel's DL_UPDX and by DL_FLUSH only. -/
def Obligations.BuffersWrittenOnlyByTheirCommands : Prop :=
  ∀ (i : Instr) (s t : State) (ch : Ch), writesBuf ch i = false → exec i s = .next t → sameBuf ch s t

/-- R26, R31, R32, R110: each cursor is written by the commands its rule names only. -/
def Obligations.CursorsMoveOnlyByTheirCommands : Prop :=
  ∀ (i : Instr) (s t : State) (ch : Ch), exec i s = .next t →
    (writesOsc ch i = false → sameOsc ch s t) ∧ (writesWptr ch i = false → sameWptr ch s t) ∧
      (writesRptr ch i = false → sameRptr ch s t)

/-- R22, R26, R27, R31, R32, R36, R37, R45: the reset state meets both invariants. The reference build at reset (log entry 1),
the canonical form of the buffers (log entry 2) and the cursors' words (log entry 8) are the model's choices. -/
def Obligations.InvariantsHoldAtReset : Prop := Inv State.reset ∧ FractionsInside State.reset

/-- R16, R22, R26, R27, R31, R32, R36, R37, R48: from any state that meets it, every step keeps the structural
invariant: cursors inside their tables, buffers canonical and inside L, dependent registers consistent, and no
configuration without two seconds of buffer. The canonical form is the model's choice (log entry 2), the cursors' words
log entry 8. -/
def Obligations.StepKeepsStructuralInvariant : Prop := ∀ s t : State, Inv s → step s = .next t → Inv t

/-- R25, R26, R32, R101: from any state that meets it, every step keeps the fractions in their ranges. -/
def Obligations.StepKeepsFractionInvariant : Prop :=
  ∀ s t : State, FractionsInside s → step s = .next t → FractionsInside t

/-- R28, R45, R47: no step changes the ROM or the build's sizes (which the state holds by the model's choice, log entry 1),
and every step answers a next state. -/
def Obligations.StepKeepsBuild : Prop := ∀ s : State, ∃ t, step s = .next t ∧ t.build = s.build

/-! ## The table ROM -/

/-- R28: every word of the reference ROM is finite and in `[−1, +1]`, and every table has N words. How the sine is summed
is log entry 14. -/
def Obligations.ReferenceBuildIsLegal : Prop := referenceBuild.wellFormed = true

/-- R29: the sawtooth, triangle and square words are exactly the closed forms, for every legal table length. -/
def Obligations.ClosedTablesAreExact : Prop :=
  ∀ k l i : Nat, 2 ≤ k → k ≤ 16 → i < 2 ^ k →
    f32Int (tableWord (closedBuild k l) 1 i) * 2 ^ k = (2 * (i : Int) - 2 ^ k) * 2 ^ 149 ∧
    f32Int (tableWord (closedBuild k l) 2 i) * 2 ^ k =
      (if i < 2 ^ k / 2 then 4 * (i : Int) - 2 ^ k else 3 * 2 ^ k - 4 * (i : Int)) * 2 ^ 149 ∧
    f32Int (tableWord (closedBuild k l) 3 i) = (if i < 2 ^ k / 2 then 1 else -1) * 2 ^ 149

/-! ## System commands -/

/-- R139: NOP answers OK, 0 and changes nothing. -/
def Obligations.NopChangesNothing : Prop :=
  ∀ s : State, ∃ t, exec .nop s = .next t ∧ answers .ok 0 s t ∧ sameCore s t

/-- R141: CONFIG stores a usable rate and the block size and sets CFG_VALID; an unusable rate is CFGBAD and leaves the
configuration in force. -/
def Obligations.ConfigStoresUsableRate : Prop :=
  ∀ (s : State) (fs mb : Word),
    (cfgOk s.build fs = true → ∃ t, exec (.config fs mb) s = .next t ∧ answers .ok 0 s t ∧ t.fs = fs ∧
      t.maxBlock = mb ∧ t.cfgValid = true ∧ t.build = s.build ∧ sameWave s t ∧ sameOscs s t ∧ sameDelays s t ∧
      sameCoord s t) ∧
    (cfgOk s.build fs = false → ∃ t, exec (.config fs mb) s = .next t ∧ rejectedWith .cfgbad s t)

/-- R142, in exact arithmetic: `cfg_ok` holds exactly when the rate is above zero and two seconds of it fit L words. A
NaN and an infinity have no such value and fail. -/
def Obligations.UsableRateMeansTwoSecondsFit : Prop :=
  ∀ (b : Build) (fs : Word), b.sizesLegal = true →
    (cfgOk b fs = true ↔ f32IsFinite fs = true ∧ 0 < f32Int fs ∧ 2 * f32Int fs ≤ (b.bufLen : Int) * 2 ^ 149)

/-- R143: READ_REG answers the register of R41's map, and RANGE for 0x1F and above. -/
def Obligations.ReadRegAnswersRegisterMap : Prop :=
  ∀ (s : State) (r : Word),
    (r.toNat < 0x1F →
      ∃ t, exec (.readReg r) s = .next t ∧ answers .ok ((registerMap s).getD r.toNat 0) s t ∧ sameCore s t) ∧
    (0x1F ≤ r.toNat → ∃ t, exec (.readReg r) s = .next t ∧ rejectedWith .range s t)

/-- R144: READ_BUF answers the word at the absolute address, and RANGE for L and above. -/
def Obligations.ReadBufAnswersBufferWord : Prop :=
  ∀ (s : State) (ch : Ch) (a : Word),
    (a.toNat < s.build.bufLen →
      ∃ t, exec (.readBuf ch a) s = .next t ∧ answers .ok ((s.dl ch).buf.read a.toNat) s t ∧ sameCore s t) ∧
    (s.build.bufLen ≤ a.toNat → ∃ t, exec (.readBuf ch a) s = .next t ∧ rejectedWith .range s t)

/-- R145: READ_ROM answers the table word, and RANGE for a table of 4 and above or an index of N and above. -/
def Obligations.ReadRomAnswersTableWord : Prop :=
  ∀ (s : State) (w i : Word), s.build.sizesLegal = true →
    (w.toNat < 4 → i.toNat < s.build.tableLen → ∃ t, exec (.readRom w i) s = .next t ∧
      answers .ok ((romTable s.build.rom w.toNat).getD i.toNat 0) s t ∧ sameCore s t) ∧
    (4 ≤ w.toNat ∨ s.build.tableLen ≤ i.toNat → ∃ t, exec (.readRom w i) s = .next t ∧ rejectedWith .range s t)

/-- R146: CLR_STATUS clears the sticky bits its mask names and nothing else, whatever mask bits 31:5 hold. -/
def Obligations.ClrStatusClearsNamedBits : Prop :=
  ∀ (s : State) (m : Word), ∃ t, exec (.clrStatus m) s = .next t ∧ t.rsp = some ⟨.ok, 0⟩ ∧
    (∀ k, k < 5 → t.sticky.getLsbD k = (s.sticky.getLsbD k && !m.getLsbD k)) ∧ sameCore s t

/-! ## Oscillator -/

/-- R98: NOCFG before CONFIG; RANGE when the increment has no s32 floor; else the increment is stored, the cursors keep
their phase, and the code is ORANGE outside 0.02 to 5.0 Hz. -/
def Obligations.OscFreqStoresIncrement : Prop :=
  ∀ (s : State) (freq : Word),
    (s.cfgValid = false → ∃ t, exec (.oscFreq freq) s = .next t ∧ rejectedWith .nocfg s t) ∧
    (s.cfgValid = true → f32Split (f32Div (f32Mul (tableLenF s.build) freq) s.fs) = none →
      ∃ t, exec (.oscFreq freq) s = .next t ∧ rejectedWith .range s t) ∧
    (∀ i f, s.cfgValid = true → f32Split (f32Div (f32Mul (tableLenF s.build) freq) s.fs) = some (i, f) →
      ∃ t, exec (.oscFreq freq) s = .next t ∧
        answers (if f32Le 0x3CA3D70A freq && f32Le freq 0x40A00000 then .ok else .orange) 0 s t ∧ t.incInt = i ∧
        t.incFrac = f ∧ t.rate = freq ∧ t.waveSel = s.waveSel ∧ t.polMask = s.polMask ∧ sameConfig s t ∧
        sameOscs s t ∧ sameDelays s t ∧ sameCoord s t)

/-- R100: OSC_WAVE selects the table, and sine for a selector of 4 and above. -/
def Obligations.OscWaveSelectsTable : Prop :=
  ∀ (s : State) (sel : Word), ∃ t, exec (.oscWave sel) s = .next t ∧ answers .ok 0 s t ∧
    waveformNum t.waveSel = (if sel.toNat < 4 then sel.toNat else 0) ∧ t.rate = s.rate ∧ t.incInt = s.incInt ∧
    t.incFrac = s.incFrac ∧ t.polMask = s.polMask ∧ sameConfig s t ∧ sameOscs s t ∧ sameDelays s t ∧ sameCoord s t

/-- R97, R99, R101, R102: OSC_GEN answers the sample at the cursor before the advance, the second table word wrapping,
and advances this channel's cursor alone. -/
def Obligations.OscGenAnswersSampleAndAdvances : Prop :=
  ∀ (s : State) (ch : Ch), s.build.sizesLegal = true → f32IsFinite (fractionSum s ch) = true →
    ∃ t, exec (.oscGen ch) s = .next t ∧ answers .ok (tableSample s ch) s t ∧ advancesOsc ch s t ∧
      sameOsc ch.other s t ∧ sameConfig s t ∧ sameWave s t ∧ sameDelays s t ∧ sameCoord s t

/-- R103: OSC_GENU answers the same sample remapped to `x*0.5+0.5`, and advances the same way. -/
def Obligations.OscGenuAnswersUnipolarSample : Prop :=
  ∀ (s : State) (ch : Ch), s.build.sizesLegal = true → f32IsFinite (fractionSum s ch) = true →
    ∃ t, exec (.oscGenu ch) s = .next t ∧ answers .ok (remapped (tableSample s ch)) s t ∧ advancesOsc ch s t ∧
      sameOsc ch.other s t ∧ sameConfig s t ∧ sameWave s t ∧ sameDelays s t ∧ sameCoord s t

/-- R104, R105: OSC_QUAD sets channel 1's cursor a quarter table ahead of channel 0's, OSC_UNISON equal to it; both copy
the fraction and leave channel 0 alone. -/
def Obligations.QuadAndUnisonSetPhase : Prop :=
  ∀ s : State,
    (s.build.sizesLegal = true → ∃ t, exec .oscQuad s = .next t ∧ answers .ok 0 s t ∧
      (t.osc .quadrature).idx.toNat = ((s.osc .primary).idx.toNat + s.build.tableLen / 4) % s.build.tableLen ∧
      (t.osc .quadrature).frac = (s.osc .primary).frac ∧ sameOsc .primary s t ∧ sameConfig s t ∧ sameWave s t ∧
      sameDelays s t ∧ sameCoord s t) ∧
    (∃ t, exec .oscUnison s = .next t ∧ answers .ok 0 s t ∧ t.osc .quadrature = s.osc .primary ∧
      sameOsc .primary s t ∧ sameConfig s t ∧ sameWave s t ∧ sameDelays s t ∧ sameCoord s t)

/-- R106: OSC_INV toggles the sign bit of the polarity mask and nothing else; two restore it. -/
def Obligations.OscInvTogglesPolarity : Prop :=
  ∀ s : State, ∃ t u, exec .oscInv s = .next t ∧ answers .ok 0 s t ∧ t.polMask.msb = !s.polMask.msb ∧
    (∀ k, k < 31 → t.polMask.getLsbD k = s.polMask.getLsbD k) ∧ t.waveSel = s.waveSel ∧ t.rate = s.rate ∧
    t.incInt = s.incInt ∧ t.incFrac = s.incFrac ∧ sameConfig s t ∧ sameOscs s t ∧ sameDelays s t ∧ sameCoord s t ∧
    exec .oscInv t = .next u ∧ u.polMask = s.polMask

/-- R99: on every value that is no NaN the polarity flip is multiplication by −1, ±0 included. -/
def Obligations.PolarityFlipIsNegation : Prop :=
  ∀ y : Word, f32IsNaN y = false → f32Mul y 0xBF800000 = y ^^^ 0x80000000

/-- R108: the unipolar remap is monotone and takes `[−1, 1]` into `[0, 1]`; and on every legal ROM, with the fractions and
the polarity mask in their ranges, after any number of samples OSC_GEN answers in `[−1, 1]` and OSC_GENU, whose sample is
MOD_UPDATE's LFO value too, in `[0, 1]`: the three rounded operations of `lerp` do not leave the range. -/
def Obligations.UnipolarRemapIsMonotone : Prop :=
  (∀ x y : Word, f32Le 0xBF800000 x = true → f32Le x y = true → f32Le y 0x3F800000 = true →
    f32Le 0 (remapped x) = true ∧ f32Le (remapped x) (remapped y) = true ∧ f32Le (remapped y) 0x3F800000 = true) ∧
  ∀ (s : State) (ch : Ch) (n : Nat), s.build.wellFormed = true → FractionsInside s →
    s.polMask = 0 ∨ s.polMask = 0x80000000 →
    ∃ t u v, execAll (List.replicate n (Instr.oscGenu ch)) s = some t ∧
      exec (.oscGen ch) t = .next u ∧ u.rsp = some ⟨.ok, tableSample t ch⟩ ∧ bipolar (tableSample t ch) ∧
      exec (.oscGenu ch) t = .next v ∧ v.rsp = some ⟨.ok, remapped (tableSample t ch)⟩ ∧
      atMostOne (remapped (tableSample t ch))

/-- R110: after OSC_QUAD, as long as both channels advance equally often, the fractions stay equal and channel 1 stays a
quarter table ahead. -/
def Obligations.QuadratureRelationIsKept : Prop :=
  ∀ (s : State) (n : Nat), s.build.sizesLegal = true →
    ∃ t, execAll (.oscQuad :: (List.replicate n [Instr.oscGen .primary, Instr.oscGen .quadrature]).flatten) s = some t ∧
      (t.osc .quadrature).frac = (t.osc .primary).frac ∧
      (t.osc .quadrature).idx.toNat = ((t.osc .primary).idx.toNat + s.build.tableLen / 4) % s.build.tableLen

/-! ## Delay line -/

/-- R111: NOCFG before CONFIG; RANGE when the sample count has no s32 floor; else the read cursor is placed behind the
write cursor, modulo L, with the fraction. -/
def Obligations.DlOfsPlacesReadCursor : Prop :=
  ∀ (s : State) (ch : Ch) (ms : Word),
    (s.cfgValid = false → ∃ t, exec (.dlOfs ch ms) s = .next t ∧ rejectedWith .nocfg s t) ∧
    (s.cfgValid = true → samplesSplit s ms = none →
      ∃ t, exec (.dlOfs ch ms) s = .next t ∧ rejectedWith .range s t) ∧
    (∀ d f, s.build.sizesLegal = true → s.cfgValid = true → samplesSplit s ms = some (d, f) →
      ∃ t, exec (.dlOfs ch ms) s = .next t ∧ answers .ok 0 s t ∧ readPlaced ch d f s t ∧ sameWptr ch s t ∧
        sameBuf ch s t ∧ sameDelay ch.other s t ∧ sameConfig s t ∧ sameWave s t ∧ sameOscs s t ∧ sameCoord s t)

/-- R112, R113, R118, R119: DL_UPD reads the delayed sample before it writes, stores the feedback sum at its own write
cursor and nowhere else, answers the crossfade and moves only its write cursor. -/
def Obligations.DlUpdUpdatesOwnChannel : Prop :=
  ∀ (s : State) (ch : Ch) (xn : Word), s.build.sizesLegal = true → (s.dl ch).buf.wf = true →
    ∃ t, exec (.dlUpd ch xn) s = .next t ∧
      answers .ok (mixed s xn (delayedSample s ch (s.dl ch).rptr (s.dl ch).dfrac xn)) s t ∧
      (t.dl ch).buf.read (storeAddr s ch) =
        f32Add xn (f32Mul (delayedSample s ch (s.dl ch).rptr (s.dl ch).dfrac xn) s.fb) ∧
      sameBufBut ch (storeAddr s ch) s t ∧ advancesWptr ch s t ∧ sameRptr ch s t ∧ sameDelay ch.other s t ∧
      sameConfig s t ∧ sameWave s t ∧ sameOscs s t ∧ sameCoord s t

/-- R114: DL_UPDX stores the feedback sum in the OTHER channel's buffer at that channel's write cursor, and moves only
this channel's write cursor. -/
def Obligations.DlUpdxWritesOtherChannel : Prop :=
  ∀ (s : State) (ch : Ch) (xn : Word), s.build.sizesLegal = true → (s.dl ch.other).buf.wf = true →
    ∃ t, exec (.dlUpdx ch xn) s = .next t ∧
      answers .ok (mixed s xn (delayedSample s ch (s.dl ch).rptr (s.dl ch).dfrac xn)) s t ∧
      (t.dl ch.other).buf.read (storeAddr s ch.other) =
        f32Add xn (f32Mul (delayedSample s ch (s.dl ch).rptr (s.dl ch).dfrac xn) s.fb) ∧
      sameBufBut ch.other (storeAddr s ch.other) s t ∧ sameBuf ch s t ∧ advancesWptr ch s t ∧ sameRptr ch s t ∧
      sameWptr ch.other s t ∧ sameRptr ch.other s t ∧ sameConfig s t ∧ sameWave s t ∧ sameOscs s t ∧ sameCoord s t

/-- R115: DL_UPDE feeds the external scalar back in place of the delayed sample; the output still uses the delayed
sample. -/
def Obligations.DlUpdeFeedsExternalScalar : Prop :=
  ∀ (s : State) (ch : Ch) (xn ext : Word), s.build.sizesLegal = true → (s.dl ch).buf.wf = true →
    ∃ t, exec (.dlUpde ch xn ext) s = .next t ∧
      answers .ok (mixed s xn (delayedSample s ch (s.dl ch).rptr (s.dl ch).dfrac xn)) s t ∧
      (t.dl ch).buf.read (storeAddr s ch) = f32Add xn (f32Mul ext s.fb) ∧
      sameBufBut ch (storeAddr s ch) s t ∧ advancesWptr ch s t ∧ sameRptr ch s t ∧ sameDelay ch.other s t ∧
      sameConfig s t ∧ sameWave s t ∧ sameOscs s t ∧ sameCoord s t

/-- R116, R37: DL_DRYWET stores the host value unchanged, recomputes the working pair (vibrato forces it), and is ORANGE
outside `[0, 1]`. -/
def Obligations.DlDrywetSetsMix : Prop :=
  ∀ (s : State) (w : Word), ∃ t, exec (.dlDrywet w) s = .next t ∧
    answers (if f32Le 0 w && f32Le w 0x3F800000 then .ok else .orange) 0 s t ∧ t.pDryWet = w ∧ mixConsistent t ∧
    t.pFeedback = s.pFeedback ∧ t.pDepth = s.pDepth ∧ t.pChorusOfs = s.pChorusOfs ∧ sameEffect s t ∧
    t.bypass = s.bypass ∧ sameConfig s t ∧ sameWave s t ∧ sameOscs s t ∧ sameDelays s t

/-- R117: DL_FLUSH makes every word of both buffers +0.0 and keeps cursors, fractions and coefficients. -/
def Obligations.DlFlushZeroesBuffers : Prop :=
  ∀ s : State, ∃ t, exec .dlFlush s = .next t ∧ answers .ok 0 s t ∧ (∀ ch a, (t.dl ch).buf.read a = 0) ∧
    (∀ ch, sameWptr ch s t ∧ sameRptr ch s t) ∧ sameConfig s t ∧ sameWave s t ∧ sameOscs s t ∧ sameCoord s t

/-- R111, R112, R113, R120: DL_OFS with 0 ms makes the next DL_UPD of the channel a pass-through, `yn = xn`, on
every call. -/
def Obligations.ZeroOffsetPassesThrough : Prop :=
  ∀ (s : State) (ch : Ch) (xn : Word), Inv s → s.cfgValid = true →
    ∃ t u, exec (.dlOfs ch 0) s = .next t ∧ exec (.dlUpd ch xn) t = .next u ∧ u.rsp = some ⟨.ok, mixed s xn xn⟩ ∧
      (u.dl ch).buf.read (storeAddr s ch) = f32Add xn (f32Mul xn s.fb)

/-- R121: updates move the write cursor one word each, modulo L, and never the read cursor. -/
def Obligations.UpdatesKeepReadCursor : Prop :=
  ∀ (s : State) (ch : Ch) (xs : List Word), s.build.sizesLegal = true → (s.dl ch).wptr.toNat < s.build.bufLen →
    ∃ t, execAll (xs.map (fun x => Instr.dlUpd ch x)) s = some t ∧
      (t.dl ch).wptr.toNat = ((s.dl ch).wptr.toNat + xs.length) % s.build.bufLen ∧ sameRptr ch s t

/-! ## Coordinator -/

/-- R125, R135, R152, R156: with BYPASS = 1 MOD_UPDATE answers its input bit for bit and changes nothing, configured or
not; otherwise NOCFG before CONFIG, and RANGE, with nothing kept, when the offset has no s32 floor. -/
def Obligations.ModUpdateBypassAndRejections : Prop :=
  ∀ (s : State) (ch : Ch) (xn : Word),
    (s.bypass = true → ∃ t, exec (.modUpdate ch xn) s = .next t ∧ answers .ok xn s t ∧ sameCore s t) ∧
    (s.bypass = false → s.cfgValid = false →
      ∃ t, exec (.modUpdate ch xn) s = .next t ∧ rejectedWith .nocfg s t) ∧
    (s.bypass = false → s.cfgValid = true → s.build.sizesLegal = true →
      samplesSplit s (offsetMs s (remapped (tableSample s ch))) = none →
        ∃ t, exec (.modUpdate ch xn) s = .next t ∧ rejectedWith .range s t)

/-- R125 to R130: MOD_UPDATE draws one unipolar sample at the cursor before its advance, places the read cursor by the
offset it gives, and runs the delay update with it; only this channel's cursors and buffer change. -/
def Obligations.ModUpdateModulatesDelay : Prop :=
  ∀ (s : State) (ch : Ch) (xn d f : Word), s.build.sizesLegal = true → (s.dl ch).buf.wf = true →
    f32IsFinite (fractionSum s ch) = true → s.bypass = false → s.cfgValid = true →
    samplesSplit s (offsetMs s (remapped (tableSample s ch))) = some (d, f) →
    ∃ t, exec (.modUpdate ch xn) s = .next t ∧ advancesOsc ch s t ∧ readPlaced ch d f s t ∧
      answers .ok (mixed s xn (delayedSample s ch (t.dl ch).rptr f xn)) s t ∧
      (t.dl ch).buf.read (storeAddr s ch) = f32Add xn (f32Mul (delayedSample s ch (t.dl ch).rptr f xn) s.fb) ∧
      sameBufBut ch (storeAddr s ch) s t ∧ advancesWptr ch s t ∧ sameOsc ch.other s t ∧ sameDelay ch.other s t ∧
      sameConfig s t ∧ sameWave s t ∧ sameCoord s t

/-- R130: a MOD_UPDATE that is not rejected leaves the state that OSC_GENU, DL_OFS with the computed offset and DL_UPD
leave, in that order, with DL_UPD's answer. -/
def Obligations.ModUpdateIsItsThreeSteps : Prop :=
  ∀ (s : State) (ch : Ch) (xn d f : Word), s.bypass = false → s.cfgValid = true → s.build.sizesLegal = true →
    samplesSplit s (offsetMs s (remapped (tableSample s ch))) = some (d, f) →
    ∃ t, execAll [.modUpdate ch xn] s = some t ∧
      execAll [.oscGenu ch, .dlOfs ch (offsetMs s (remapped (tableSample s ch))), .dlUpd ch xn] s = some t

/-- R138: the two channels' MOD_UPDATEs commute: the same end state, but for which response came last, and the same
response to each. -/
def Obligations.ModUpdatesCommute : Prop :=
  ∀ (s : State) (x y : Word), ∃ a ab b ba,
    exec (.modUpdate .primary x) s = .next a ∧ exec (.modUpdate .quadrature y) a = .next ab ∧
    exec (.modUpdate .quadrature y) s = .next b ∧ exec (.modUpdate .primary x) b = .next ba ∧
    takeResponse ab = takeResponse ba ∧ a.rsp = ba.rsp ∧ b.rsp = ab.rsp

/-- R131, R132, R134, R37, R155: SET_DEPTH, SET_FEEDBACK and SET_CHORUS_OFS store the value unchanged, change no other
host parameter, and are ORANGE outside their ranges; SET_FEEDBACK recomputes the working coefficients. -/
def Obligations.SettersStoreUnchanged : Prop :=
  ∀ (s : State) (v : Word),
    (∃ t, exec (.setDepth v) s = .next t ∧
      answers (if f32Le 0 v && f32Le v 0x3F800000 then .ok else .orange) 0 s t ∧ t.pDepth = v ∧
      t.pDryWet = s.pDryWet ∧ t.pFeedback = s.pFeedback ∧ t.pChorusOfs = s.pChorusOfs ∧ sameMix s t ∧
      sameEffect s t ∧ t.bypass = s.bypass ∧ sameConfig s t ∧ sameWave s t ∧ sameOscs s t ∧ sameDelays s t) ∧
    (∃ t, exec (.setFeedback v) s = .next t ∧
      answers (if f32Le 0xBF733333 v && f32Le v 0x3F733333 then .ok else .orange) 0 s t ∧ t.pFeedback = v ∧
      mixConsistent t ∧ t.pDryWet = s.pDryWet ∧ t.pDepth = s.pDepth ∧ t.pChorusOfs = s.pChorusOfs ∧
      sameEffect s t ∧ t.bypass = s.bypass ∧ sameConfig s t ∧ sameWave s t ∧ sameOscs s t ∧ sameDelays s t) ∧
    (∃ t, exec (.setChorusOfs v) s = .next t ∧
      answers (if f32Le 0x40A00000 v && f32Le v 0x420C0000 then .ok else .orange) 0 s t ∧ t.pChorusOfs = v ∧
      t.pDryWet = s.pDryWet ∧ t.pFeedback = s.pFeedback ∧ t.pDepth = s.pDepth ∧ sameMix s t ∧
      sameEffect s t ∧ t.bypass = s.bypass ∧ sameConfig s t ∧ sameWave s t ∧ sameOscs s t ∧ sameDelays s t)

/-- R133, R36, R37: SET_EFFECT sets the effect, its DELTA and CMASK and the working coefficients, keeps the host
parameters, and rejects 3 and above, the whole word compared. -/
def Obligations.SetEffectSelectsConstants : Prop :=
  ∀ (s : State) (e : Word),
    (e.toNat < 3 → ∃ t, exec (.setEffect e) s = .next t ∧ answers .ok 0 s t ∧ effectNum t.effect = e.toNat ∧
      effectConsistent t ∧ mixConsistent t ∧ sameParams s t ∧ t.bypass = s.bypass ∧ sameConfig s t ∧ sameWave s t ∧
      sameOscs s t ∧ sameDelays s t) ∧
    (3 ≤ e.toNat → ∃ t, exec (.setEffect e) s = .next t ∧ rejectedWith .range s t)

/-- R135: SET_BYPASS stores 0 or 1 and rejects 2 and above. -/
def Obligations.SetBypassStoresBoolean : Prop :=
  ∀ (s : State) (b : Word),
    (b.toNat < 2 → ∃ t, exec (.setBypass b) s = .next t ∧ answers .ok 0 s t ∧ boolWord t.bypass = b ∧ sameMix s t ∧
      sameParams s t ∧ sameEffect s t ∧ sameConfig s t ∧ sameWave s t ∧ sameOscs s t ∧ sameDelays s t) ∧
    (2 ≤ b.toNat → ∃ t, exec (.setBypass b) s = .next t ∧ rejectedWith .range s t)

/-- R137: after SET_EFFECT e the effect, its constants and the working coefficients are the same whatever SET_EFFECTs
went before, and the host parameters are as before them all. -/
def Obligations.EffectSwitchLeavesNoResidue : Prop :=
  ∀ (s : State) (es : List Word) (e : Word), e.toNat < 3 →
    ∃ t u, execAll (es.map (fun x => Instr.setEffect x) ++ [Instr.setEffect e]) s = some t ∧
      execAll [.setEffect e] s = some u ∧ sameEffect u t ∧ sameMix u t ∧ sameParams u t ∧
        sameParams s t

/-- R136: with depth and LFO in `[0, 1]` the offset lies between MIN_DELAY and `(P_DEPTH ×f DELTA) +f MIN_DELAY` under
flanger and vibrato, and under chorus between the same bounds with a chorus offset ≥ 0 added. -/
def Obligations.OffsetStaysBounded : Prop :=
  ∀ (s : State) (lfo : Word), effectConsistent s → f32Le 0 s.pDepth = true → f32Le s.pDepth 0x3F800000 = true →
    f32Le 0 lfo = true → f32Le lfo 0x3F800000 = true →
    (s.effect ≠ .chorus → f32Le 0x3C23D70A (offsetMs s lfo) = true ∧
      f32Le (offsetMs s lfo) (f32Add (f32Mul s.pDepth s.delta) 0x3C23D70A) = true) ∧
    (s.effect = .chorus → f32Le 0 s.pChorusOfs = true →
      f32Le (f32Add s.pChorusOfs 0x3C23D70A) (offsetMs s lfo) = true ∧
      f32Le (offsetMs s lfo) (f32Add s.pChorusOfs (f32Add (f32Mul s.pDepth s.delta) 0x3C23D70A)) = true)

/-- R37: after DL_DRYWET with a value in `[0, 1]`, `DRY +f WET = 1.0` exactly, under every effect. -/
def Obligations.DryPlusWetIsOne : Prop :=
  ∀ (s : State) (w : Word), f32Le 0 w = true → f32Le w 0x3F800000 = true →
    ∃ t, exec (.dlDrywet w) s = .next t ∧ f32Add t.dry t.wet = 0x3F800000

/-! ## Arithmetic -/

/-- R10, R18: a finite sum of finite values is the exact sum rounded to nearest, ties to even. A sum that overflows or is a
NaN is not stated here. -/
def Obligations.AdditionRoundsToNearestEven : Prop :=
  ∀ a b : Word, f32IsFinite a = true → f32IsFinite b = true → f32IsFinite (f32Add a b) = true →
    nearestEven (f32Int a + f32Int b) 1 (f32Add a b)

/-- R10, R18: a finite product and a finite quotient of finite values are the exact ones rounded to nearest, ties to even.
A result that overflows or is a NaN, and a division by zero, are not stated here. -/
def Obligations.ProductAndQuotientRoundToNearestEven : Prop :=
  ∀ a b : Word, f32IsFinite a = true → f32IsFinite b = true →
    (f32IsFinite (f32Mul a b) = true → nearestEven (f32Int a * f32Int b) (2 ^ 149) (f32Mul a b)) ∧
    (f32Int b ≠ 0 → f32IsFinite (f32Div a b) = true →
      nearestEven (f32Int a * 2 ^ 149 * (f32Int b).sign) |f32Int b| (f32Div a b))

/-- R11: `split` answers RANGE exactly when the value is not finite or its floor is no s32; otherwise the integer is the
floor, the fraction is in `[0, 1]`, and for a value ≥ 0 it is the exact remainder. -/
def Obligations.SplitIsFloorAndRemainder : Prop :=
  ∀ v : Word,
    (f32Split v = none ↔
      f32IsFinite v = false ∨ f32Int v / 2 ^ 149 < -(2 ^ 31) ∨ 2 ^ 31 - 1 < f32Int v / 2 ^ 149) ∧
    ∀ i f, f32Split v = some (i, f) → i.toInt = f32Int v / 2 ^ 149 ∧ atMostOne f ∧
      (0 ≤ f32Int v → f32Int f = f32Int v % 2 ^ 149)

/-- R12 says of `lerp` that it answers its first operand at fraction +0.0, for all finite operands. The three rounded
operations do not give that where the difference overflows (log entry 16): expected to fail. -/
def Obligations.LerpAtZeroFractionAnswersFirst : Prop :=
  ∀ a b : Word, f32IsFinite a = true → f32IsFinite b = true → f32Lerp a b 0 = a
end

