-- ==== Sys2Proof/Laws/Float.lean ====
section
/-! SUPPORT. The laws of binary32 rounding: the values of magnitude bits are strictly rising, `roundHalfEven` is a nearest
integer, and `f32RoundMag` is monotone, exact on every binary32 value, and nearest among all of them. -/

namespace Sys2Proof.Machine

/-! ## The values of magnitude bits -/

/-- The magnitude bits of significand `r` in binade `t`, the top one standing for the next binade's first. -/
def isSignificand (t r : Nat) : Prop := (t = 0 ∧ r ≤ 2 ^ 24) ∨ (2 ^ 23 ≤ r ∧ r ≤ 2 ^ 24)

theorem f32MagUnits_code {t r : Nat} (h : isSignificand t r) : f32MagUnits (2 ^ 23 * t + r) = r * 2 ^ t := by
  unfold f32MagUnits
  rcases Nat.lt_trichotomy r (2 ^ 23) with hr | hr | hr
  · have ht : t = 0 := by rcases h with h | h <;> omega
    subst ht
    have h1 : (2 ^ 23 * 0 + r) / 2 ^ 23 = 0 := by omega
    simp only [h1, if_true]; omega
  · subst hr
    have h1 : (2 ^ 23 * t + 2 ^ 23) / 2 ^ 23 = t + 1 := by omega
    have h2 : (2 ^ 23 * t + 2 ^ 23) % 2 ^ 23 = 0 := by omega
    simp only [h1, h2]; simp
  · rcases Nat.lt_or_ge r (2 ^ 24) with hr2 | hr2
    · have h1 : (2 ^ 23 * t + r) / 2 ^ 23 = t + 1 := by omega
      have h2 : (2 ^ 23 * t + r) % 2 ^ 23 = r - 2 ^ 23 := by omega
      have h3 : 2 ^ 23 + (r - 2 ^ 23) = r := by omega
      simp only [h1, h2, h3, Nat.add_sub_cancel, Nat.succ_ne_zero, if_false]
    · have : r = 2 ^ 24 := by rcases h with h | h <;> omega
      subst this
      have h1 : (2 ^ 23 * t + 2 ^ 24) / 2 ^ 23 = t + 2 := by omega
      have h2 : (2 ^ 23 * t + 2 ^ 24) % 2 ^ 23 = 0 := by omega
      simp only [h1, h2, Nat.add_zero, show t + 2 - 1 = t + 1 from rfl, show t + 2 ≠ 0 by omega, if_false]
      rw [Nat.pow_succ]; ring

/-- Every magnitude is a significand below the top one in one binade. -/
theorem exists_significand (m : Nat) :
    ∃ t r, m = 2 ^ 23 * t + r ∧ r < 2 ^ 24 ∧ (t = 0 ∨ 2 ^ 23 ≤ r) := by
  rcases Nat.lt_or_ge m (2 ^ 24) with h | h
  · exact ⟨0, m, by omega, h, .inl rfl⟩
  · exact ⟨m / 2 ^ 23 - 1, m % 2 ^ 23 + 2 ^ 23, by omega, by omega, .inr (by omega)⟩

theorem isSignificand_of {t r : Nat} (h : r ≤ 2 ^ 24) (h' : t = 0 ∨ 2 ^ 23 ≤ r) : isSignificand t r := by
  rcases h' with h' | h'
  · exact .inl ⟨h', h⟩
  · exact .inr ⟨h', h⟩

theorem f32MagUnits_strictMono : StrictMono f32MagUnits := by
  refine strictMono_nat_of_lt_succ fun m => ?_
  obtain ⟨t, r, rfl, hr, h⟩ := exists_significand m
  rw [f32MagUnits_code (isSignificand_of (Nat.le_of_lt hr) h), Nat.add_assoc,
    f32MagUnits_code (isSignificand_of (show r + 1 ≤ 2 ^ 24 by omega) (by omega))]
  exact Nat.mul_lt_mul_of_pos_right (Nat.lt_succ_self r) (Nat.two_pow_pos t)

theorem f32MagUnits_le_iff {m n : Nat} : f32MagUnits m ≤ f32MagUnits n ↔ m ≤ n := f32MagUnits_strictMono.le_iff_le
theorem f32MagUnits_lt_iff {m n : Nat} : f32MagUnits m < f32MagUnits n ↔ m < n := f32MagUnits_strictMono.lt_iff_lt
theorem f32MagUnits_inj {m n : Nat} : f32MagUnits m = f32MagUnits n ↔ m = n := f32MagUnits_strictMono.injective.eq_iff

@[simp] theorem f32MagUnits_zero : f32MagUnits 0 = 0 := rfl

/-! ## The nearest integer -/

/-- `n` is a nearest integer to `num / den`, the even one on a tie. -/
structure IsRoundHalfEven (num den n : Nat) : Prop where
  low : 2 * den * n ≤ 2 * num + den
  high : 2 * num ≤ 2 * den * n + den
  tieLow : 2 * den * n = 2 * num + den → n % 2 = 0
  tieHigh : 2 * num = 2 * den * n + den → n % 2 = 0

theorem isRoundHalfEven_roundHalfEven (num : Nat) {den : Nat} (hd : 0 < den) :
    IsRoundHalfEven num den (roundHalfEven num den) := by
  have hdm := Nat.div_add_mod num den
  have hlt := Nat.mod_lt num hd
  unfold roundHalfEven
  set q := num / den
  set r := num % den
  dsimp only
  have e0 : 2 * den * q = 2 * (den * q) := by ring
  have e1 : 2 * den * (q + 1) = 2 * (den * q) + 2 * den := by ring
  split_ifs with h1 h2 h3
  · exact ⟨by omega, by omega, by omega, by omega⟩
  · exact ⟨by omega, by omega, by omega, by omega⟩
  · exact ⟨by omega, by omega, fun _ => h3, fun _ => h3⟩
  · exact ⟨by omega, by omega, fun _ => by omega, fun _ => by omega⟩

/-- The nearest integer is monotone in the ratio. -/
theorem IsRoundHalfEven.mono {num den n num' den' n' : Nat} (h : IsRoundHalfEven num den n)
    (h' : IsRoundHalfEven num' den' n') (hd : 0 < den) (hd' : 0 < den') (hle : num * den' ≤ num' * den) : n ≤ n' := by
  by_contra hlt
  have hlt : n' + 1 ≤ n := by omega
  have a1 := Nat.mul_le_mul_right den' h.low
  have a2 := Nat.mul_le_mul_right den h'.high
  have hdd : 0 < den * den' := Nat.mul_pos hd hd'
  have b1 : 2 * (den * den') * (n' + 1) ≤ 2 * (den * den') * n := Nat.mul_le_mul_left _ hlt
  have c1 : 2 * den * n * den' = 2 * (den * den') * n := by ring
  have c2 : (2 * num + den) * den' = 2 * (num * den') + den * den' := by ring
  have c3 : 2 * num' * den = 2 * (num' * den) := by ring
  have c4 : (2 * den' * n' + den') * den = 2 * (den * den') * n' + den * den' := by ring
  have c5 : 2 * (den * den') * (n' + 1) = 2 * (den * den') * n' + 2 * (den * den') := by ring
  -- every inequality is an equality: both are ties, and `n = n' + 1`
  have t1 : 2 * den * n * den' = (2 * num + den) * den' := by omega
  have t2 : 2 * num' * den = (2 * den' * n' + den') * den := by omega
  have e1 := h.tieLow (Nat.eq_of_mul_eq_mul_right hd' t1)
  have e2 := h'.tieHigh (Nat.eq_of_mul_eq_mul_right hd t2)
  have e3 : 2 * (den * den') * n = 2 * (den * den') * (n' + 1) := by omega
  have e4 : n = n' + 1 := Nat.eq_of_mul_eq_mul_left (by omega) e3
  omega

theorem roundHalfEven_mono {num den num' den' : Nat} (hd : 0 < den) (hd' : 0 < den') (hle : num * den' ≤ num' * den) :
    roundHalfEven num den ≤ roundHalfEven num' den' :=
  (isRoundHalfEven_roundHalfEven num hd).mono (isRoundHalfEven_roundHalfEven num' hd') hd hd' hle

theorem roundHalfEven_mul (n : Nat) {den : Nat} (hd : 0 < den) : roundHalfEven (den * n) den = n := by
  unfold roundHalfEven
  simp [Nat.mul_div_cancel_left n hd, hd]

/-- No integer is nearer. -/
theorem IsRoundHalfEven.nearest {num den n : Nat} (h : IsRoundHalfEven num den n) (k : Int) :
    |(num : Int) - den * n| ≤ |(num : Int) - den * k| := by
  have hl := h.low
  have hh := h.high
  rcases lt_trichotomy k n with hk | hk | hk
  · have : (den : Int) * k ≤ den * n - den := by nlinarith [Int.natCast_nonneg den]
    have hl' : 2 * ((den : Int) * n) ≤ 2 * num + den := by exact_mod_cast (by linarith : 2 * (den * n) ≤ 2 * num + den)
    have hh' : 2 * (num : Int) ≤ 2 * ((den : Int) * n) + den := by
      exact_mod_cast (by linarith : 2 * num ≤ 2 * (den * n) + den)
    rw [abs_le]; constructor <;> cases abs_cases ((num : Int) - den * k) <;> omega
  · rw [hk]
  · have : (den : Int) * n + den ≤ den * k := by nlinarith [Int.natCast_nonneg den]
    have hl' : 2 * ((den : Int) * n) ≤ 2 * num + den := by exact_mod_cast (by linarith : 2 * (den * n) ≤ 2 * num + den)
    have hh' : 2 * (num : Int) ≤ 2 * ((den : Int) * n) + den := by
      exact_mod_cast (by linarith : 2 * num ≤ 2 * (den * n) + den)
    rw [abs_le]; constructor <;> cases abs_cases ((num : Int) - den * k) <;> omega

/-! ## The nearest binary32 -/

/-- The binade that `f32RoundMag` rounds in. -/
def roundBinade (num den : Nat) : Nat := (num / den).log2 - 23

/-- The significand that `f32RoundMag` rounds to. -/
def roundSignificand (num den : Nat) : Nat := roundHalfEven num (den * 2 ^ roundBinade num den)

theorem f32RoundMag_eq (num den : Nat) :
    f32RoundMag num den = min f32InfMag (2 ^ 23 * roundBinade num den + roundSignificand num den) := rfl

/-- The quotient lies below the top of its binade, and at or above the bottom of a binade that is not the first. -/
theorem roundBinade_spec (num : Nat) {den : Nat} (hd : 0 < den) :
    num < den * 2 ^ roundBinade num den * 2 ^ 24 ∧
      (roundBinade num den = 0 ∨ den * 2 ^ roundBinade num den * 2 ^ 23 ≤ num) := by
  unfold roundBinade
  set q := num / den with hq
  have hlt : num < den * (q + 1) := by
    rw [hq]; exact Nat.lt_mul_div_succ num hd
  have hge : den * q ≤ num := Nat.mul_div_le num den
  rcases Nat.lt_or_ge q.log2 24 with h | h
  · have h0 : q.log2 - 23 = 0 := by omega
    refine ⟨?_, .inl h0⟩
    have : q < 2 ^ 24 := Nat.lt_of_lt_of_le Nat.lt_log2_self (Nat.pow_le_pow_right (by omega) h)
    calc num < den * (q + 1) := hlt
      _ ≤ den * 2 ^ 24 := Nat.mul_le_mul_left _ this
      _ = den * 2 ^ (q.log2 - 23) * 2 ^ 24 := by rw [h0]; ring
  · have hq0 : q ≠ 0 := by rintro h0; rw [h0] at h; simp at h
    have e : q.log2 = (q.log2 - 23) + 23 := by omega
    refine ⟨?_, .inr ?_⟩
    · have : q < 2 ^ (q.log2 - 23 + 24) := by
        have := @Nat.lt_log2_self q
        rwa [show q.log2 + 1 = q.log2 - 23 + 24 by omega] at this
      calc num < den * (q + 1) := hlt
        _ ≤ den * 2 ^ (q.log2 - 23 + 24) := Nat.mul_le_mul_left _ this
        _ = den * 2 ^ (q.log2 - 23) * 2 ^ 24 := by rw [Nat.pow_add]; ring
    · have : 2 ^ (q.log2 - 23 + 23) ≤ q := by
        have := Nat.log2_self_le hq0
        rwa [e] at this
      calc den * 2 ^ (q.log2 - 23) * 2 ^ 23 = den * 2 ^ (q.log2 - 23 + 23) := by rw [Nat.pow_add]; ring
        _ ≤ den * q := Nat.mul_le_mul_left _ this
        _ ≤ num := hge

theorem isSignificand_round (num : Nat) {den : Nat} (hd : 0 < den) :
    isSignificand (roundBinade num den) (roundSignificand num den) := by
  obtain ⟨h1, h2⟩ := roundBinade_spec num hd
  have hD : 0 < den * 2 ^ roundBinade num den := Nat.mul_pos hd (Nat.two_pow_pos _)
  have hle : roundSignificand num den ≤ 2 ^ 24 := by
    have := roundHalfEven_mono (num := num) (num' := den * 2 ^ roundBinade num den * 2 ^ 24) hD hD
      (Nat.mul_le_mul_right _ (Nat.le_of_lt h1))
    rwa [roundHalfEven_mul _ hD] at this
  rcases h2 with h2 | h2
  · exact .inl ⟨h2, hle⟩
  · refine .inr ⟨?_, hle⟩
    have := roundHalfEven_mono (num := den * 2 ^ roundBinade num den * 2 ^ 23) (num' := num) hD hD
      (Nat.mul_le_mul_right _ h2)
    rwa [roundHalfEven_mul _ hD] at this

/-- The magnitude bits before the cut at infinity. -/
def roundCode (num den : Nat) : Nat := 2 ^ 23 * roundBinade num den + roundSignificand num den

theorem f32RoundMag_eq_min (num den : Nat) : f32RoundMag num den = min f32InfMag (roundCode num den) := rfl

theorem f32MagUnits_roundCode (num : Nat) {den : Nat} (hd : 0 < den) :
    f32MagUnits (roundCode num den) = roundSignificand num den * 2 ^ roundBinade num den :=
  f32MagUnits_code (isSignificand_round num hd)

theorem roundBinade_mono {num den num' den' : Nat} (hd : 0 < den) (hd' : 0 < den') (hle : num * den' ≤ num' * den) :
    roundBinade num den ≤ roundBinade num' den' := by
  unfold roundBinade
  have : num / den ≤ num' / den' := by
    rw [Nat.le_div_iff_mul_le hd']
    have h1 : num / den * den' * den ≤ num' * den := by
      calc num / den * den' * den = num / den * den * den' := by ring
        _ ≤ num * den' := Nat.mul_le_mul_right _ (Nat.div_mul_le_self num den)
        _ ≤ num' * den := hle
    exact Nat.le_of_mul_le_mul_right h1 hd
  have h2 : (num / den).log2 ≤ (num' / den').log2 := by
    rw [Nat.log2_eq_log_two, Nat.log2_eq_log_two]
    exact Nat.log_mono_right this
  omega

theorem roundCode_mono {num den num' den' : Nat} (hd : 0 < den) (hd' : 0 < den') (hle : num * den' ≤ num' * den) :
    roundCode num den ≤ roundCode num' den' := by
  have hb := roundBinade_mono hd hd' hle
  have hs := isSignificand_round num hd
  have hs' := isSignificand_round num' hd'
  unfold roundCode
  rcases Nat.lt_or_eq_of_le hb with h | h
  · have h1 : roundSignificand num den ≤ 2 ^ 24 := by rcases hs with h | h <;> omega
    have h2 : 2 ^ 23 ≤ roundSignificand num' den' := by rcases hs' with h | h <;> omega
    omega
  · rw [← h]
    refine Nat.add_le_add_left ?_ _
    unfold roundSignificand
    rw [← h]
    refine roundHalfEven_mono (Nat.mul_pos hd (Nat.two_pow_pos _)) (Nat.mul_pos hd' (Nat.two_pow_pos _)) ?_
    calc num * (den' * 2 ^ roundBinade num den) = num * den' * 2 ^ roundBinade num den := by ring
      _ ≤ num' * den * 2 ^ roundBinade num den := Nat.mul_le_mul_right _ hle
      _ = num' * (den * 2 ^ roundBinade num den) := by ring

/-- Rounding is monotone in the ratio. -/
theorem f32RoundMag_mono {num den num' den' : Nat} (hd : 0 < den) (hd' : 0 < den') (hle : num * den' ≤ num' * den) :
    f32RoundMag num den ≤ f32RoundMag num' den' := by
  rw [f32RoundMag_eq_min, f32RoundMag_eq_min]
  exact min_le_min_left _ (roundCode_mono hd hd' hle)

/-- A value of magnitude bits that is at least the bottom of a binade is a whole number of that binade's steps. -/
theorem pow_dvd_f32MagUnits {m t : Nat} (h : 2 ^ (t + 23) ≤ f32MagUnits m) : 2 ^ t ∣ f32MagUnits m := by
  obtain ⟨t', r, rfl, hr, h'⟩ := exists_significand m
  rw [f32MagUnits_code (isSignificand_of (Nat.le_of_lt hr) h')] at h ⊢
  have hlt : r * 2 ^ t' < 2 ^ (24 + t') := by
    rw [Nat.pow_add]; exact Nat.mul_lt_mul_of_pos_right hr (Nat.two_pow_pos t')
  have htt : t ≤ t' := by
    have := (Nat.pow_lt_pow_iff_right (a := 2) (by omega)).1 (Nat.lt_of_le_of_lt h hlt)
    omega
  exact Dvd.dvd.mul_left (Nat.pow_dvd_pow 2 htt) r

/-- No magnitude bits have a value nearer to `num / den` than `roundCode`'s. -/
theorem roundCode_nearest (num : Nat) {den : Nat} (hd : 0 < den) (m : Nat) :
    |(num : Int) - den * f32MagUnits (roundCode num den)| ≤ |(num : Int) - den * f32MagUnits m| := by
  rw [f32MagUnits_roundCode num hd]
  set t := roundBinade num den with ht
  have hD : 0 < den * 2 ^ t := Nat.mul_pos hd (Nat.two_pow_pos _)
  have hr : IsRoundHalfEven num (den * 2 ^ t) (roundSignificand num den) := isRoundHalfEven_roundHalfEven num hD
  have key : ∀ k : Int, |(num : Int) - den * (roundSignificand num den * 2 ^ t : Nat)| ≤
      |(num : Int) - den * (k * 2 ^ t)| := by
    intro k
    have := hr.nearest k
    push_cast at this ⊢
    convert this using 2 <;> ring_nf
  by_cases hm : 2 ^ (t + 23) ≤ f32MagUnits m ∨ t = 0
  · have hdvd : 2 ^ t ∣ f32MagUnits m := by
      rcases hm with hm | hm
      · exact pow_dvd_f32MagUnits hm
      · simp [hm]
    obtain ⟨k, hk⟩ := hdvd
    have := key k
    rw [hk]; push_cast at this ⊢
    rwa [mul_comm (2 ^ t : Int) k]
  · push Not at hm
    obtain ⟨hm, ht0⟩ := hm
    refine (key (2 ^ 23)).trans ?_
    have hge : den * 2 ^ t * 2 ^ 23 ≤ num := by
      rcases (roundBinade_spec num hd).2 with h | h
      · exact absurd h ht0
      · exact h
    have e : (2 : Int) ^ 23 * 2 ^ t = 2 ^ (t + 23) := by rw [← pow_add, Nat.add_comm]
    rw [e]
    have h1 : (den : Int) * f32MagUnits m ≤ den * 2 ^ (t + 23) := by
      have : (f32MagUnits m : Int) ≤ 2 ^ (t + 23) := by exact_mod_cast Nat.le_of_lt hm
      exact mul_le_mul_of_nonneg_left this (Int.natCast_nonneg _)
    have h2 : (den : Int) * 2 ^ (t + 23) ≤ num := by
      have : den * 2 ^ (t + 23) ≤ num := by rw [Nat.pow_add, ← Nat.mul_assoc]; exact hge
      exact_mod_cast this
    rw [abs_of_nonneg (by omega), abs_of_nonneg (by omega)]
    omega

/-- A value that a binary32 holds is rounded to itself. -/
theorem roundCode_exact {m den : Nat} (hd : 0 < den) : roundCode (den * f32MagUnits m) den = m := by
  have h := roundCode_nearest (den * f32MagUnits m) hd m
  push_cast at h
  rw [sub_self, abs_zero] at h
  have h0 := abs_eq_zero.1 (le_antisymm h (abs_nonneg _))
  have h1 : (den : Int) * f32MagUnits m = den * f32MagUnits (roundCode (den * f32MagUnits m) den) := by omega
  have h2 : den * f32MagUnits m = den * f32MagUnits (roundCode (den * f32MagUnits m) den) := by exact_mod_cast h1
  exact (f32MagUnits_inj.1 (Nat.eq_of_mul_eq_mul_left hd h2)).symm

theorem f32RoundMag_exact {m den : Nat} (hd : 0 < den) (hm : m ≤ f32InfMag) : f32RoundMag (den * f32MagUnits m) den = m := by
  rw [f32RoundMag_eq_min, roundCode_exact hd]; exact min_eq_right hm

theorem f32RoundMag_le_inf (num den : Nat) : f32RoundMag num den ≤ f32InfMag := min_le_left _ _

/-! ## Patterns -/

theorem f32Mag_lt (x : Word) : f32Mag x < 2 ^ 31 := Nat.mod_lt _ (by decide)

theorem f32Mag_pack (neg : Bool) {m : Nat} (h : m < 2 ^ 31) : f32Mag (f32Pack neg m) = m := by
  unfold f32Mag f32Pack
  rw [BitVec.toNat_ofNat]
  cases neg <;> simp <;> omega

theorem f32Sign_pack (neg : Bool) {m : Nat} (h : m < 2 ^ 31) : f32Sign (f32Pack neg m) = neg := by
  unfold f32Sign f32Pack
  rw [BitVec.msb_eq_decide, BitVec.toNat_ofNat]
  cases neg <;> simp <;> omega

/-- A pattern is its sign and its magnitude bits. -/
theorem f32Pack_self (x : Word) : f32Pack (f32Sign x) (f32Mag x) = x := by
  apply BitVec.eq_of_toNat_eq
  unfold f32Pack f32Sign f32Mag
  rw [BitVec.toNat_ofNat, BitVec.msb_eq_decide]
  have := x.isLt
  simp only [decide_eq_true_eq]
  split_ifs <;> omega

theorem f32Int_pack (neg : Bool) {m : Nat} (h : m < 2 ^ 31) :
    f32Int (f32Pack neg m) = if neg then -(f32MagUnits m : Int) else f32MagUnits m := by
  unfold f32Int f32Units; rw [f32Mag_pack neg h, f32Sign_pack neg h]

theorem f32InfMag_lt : f32InfMag < 2 ^ 31 := by decide

/-- Rounding an integer number of units is monotone. -/
theorem f32Int_roundInt_mono {a b : Int} (h : a ≤ b) : f32Int (f32RoundInt a) ≤ f32Int (f32RoundInt b) := by
  unfold f32RoundInt
  have la := Nat.lt_of_le_of_lt (f32RoundMag_le_inf a.natAbs 1) f32InfMag_lt
  have lb := Nat.lt_of_le_of_lt (f32RoundMag_le_inf b.natAbs 1) f32InfMag_lt
  rw [f32Int_pack _ la, f32Int_pack _ lb]
  by_cases ha : a < 0 <;> by_cases hb : b < 0
  · have := f32MagUnits_le_iff.2 (f32RoundMag_mono (num := b.natAbs) (den := 1) (num' := a.natAbs) (den' := 1)
      (by omega) (by omega) (by omega))
    simp only [ha, hb, decide_true, if_true]; omega
  · simp only [ha, hb, decide_true, decide_false, if_true]; simp
  · omega
  · have := f32MagUnits_le_iff.2 (f32RoundMag_mono (num := a.natAbs) (den := 1) (num' := b.natAbs) (den' := 1)
      (by omega) (by omega) (by omega))
    simp only [ha, hb, decide_false]; simpa using this

/-- Rounding a value that a binary32 holds gives that value. -/
theorem f32Int_roundInt_exact {z : Int} {m : Nat} (hm : m ≤ f32InfMag) (hz : z.natAbs = f32MagUnits m) :
    f32Int (f32RoundInt z) = z := by
  unfold f32RoundInt
  have e : f32RoundMag z.natAbs 1 = m := by
    rw [hz]; simpa using f32RoundMag_exact (m := m) (den := 1) (by omega) hm
  rw [e, f32Int_pack _ (Nat.lt_of_le_of_lt hm f32InfMag_lt), ← hz]
  by_cases h : z < 0
  · simp only [h, decide_true, if_true]; omega
  · simp only [h, decide_false, Bool.false_eq_true, if_false]; omega

end Sys2Proof.Machine
end

