-- ==== Sys2Proof/Laws/Index.lean ====
section
/-! SUPPORT. Index arithmetic: a mask is a remainder modulo N or L (00_scope.md R9, R16), and every masked index is
inside its table or buffer. -/

namespace Sys2Proof.Machine

theorem toNat_and_mask (x : Word) {k : Nat} (hk : k ≤ 32) : (x &&& BitVec.ofNat 32 (2 ^ k - 1)).toNat = x.toNat % 2 ^ k := by
  have h1 : 2 ^ k - 1 < 2 ^ 32 := by
    have := Nat.pow_le_pow_right (n := 2) (by omega) hk
    have := Nat.two_pow_pos k
    omega
  rw [BitVec.toNat_and, BitVec.toNat_ofNat, Nat.mod_eq_of_lt h1, Nat.and_two_pow_sub_one_eq_mod]

variable {b : Build}

theorem sizes_log2N_ge (h : b.sizesLegal = true) : 2 ≤ b.log2N := by simp [Build.sizesLegal] at h; omega
theorem sizes_log2N_le (h : b.sizesLegal = true) : b.log2N ≤ 16 := by simp [Build.sizesLegal] at h; omega
theorem sizes_log2L_ge (h : b.sizesLegal = true) : 1 ≤ b.log2L := by simp [Build.sizesLegal] at h; omega
theorem sizes_log2L_le (h : b.sizesLegal = true) : b.log2L ≤ 24 := by simp [Build.sizesLegal] at h; omega

theorem tableLen_pos : 0 < b.tableLen := Nat.two_pow_pos _
theorem bufLen_pos : 0 < b.bufLen := Nat.two_pow_pos _

theorem tableLen_dvd (h : b.sizesLegal = true) : b.tableLen ∣ 2 ^ 32 :=
  Nat.pow_dvd_pow 2 (Nat.le_trans (sizes_log2N_le h) (by decide))
theorem bufLen_dvd (h : b.sizesLegal = true) : b.bufLen ∣ 2 ^ 32 :=
  Nat.pow_dvd_pow 2 (Nat.le_trans (sizes_log2L_le h) (by decide))

/-- `x & MASK_N` is `x mod N`. -/
theorem toNat_and_maskN (h : b.sizesLegal = true) (x : Word) : (x &&& maskN b).toNat = x.toNat % b.tableLen :=
  toNat_and_mask x (Nat.le_trans (sizes_log2N_le h) (by decide))

/-- `x & MASK_L` is `x mod L`. -/
theorem toNat_and_maskL (h : b.sizesLegal = true) (x : Word) : (x &&& maskL b).toNat = x.toNat % b.bufLen :=
  toNat_and_mask x (Nat.le_trans (sizes_log2L_le h) (by decide))

theorem and_maskN_lt (h : b.sizesLegal = true) (x : Word) : (x &&& maskN b).toNat < b.tableLen := by
  rw [toNat_and_maskN h]; exact Nat.mod_lt _ tableLen_pos

theorem and_maskL_lt (h : b.sizesLegal = true) (x : Word) : (x &&& maskL b).toNat < b.bufLen := by
  rw [toNat_and_maskL h]; exact Nat.mod_lt _ bufLen_pos

/-- Inside the buffer the mask changes nothing. -/
theorem and_maskL_eq_self (h : b.sizesLegal = true) {x : Word} (hx : x.toNat < b.bufLen) : x &&& maskL b = x := by
  apply BitVec.eq_of_toNat_eq; rw [toNat_and_maskL h, Nat.mod_eq_of_lt hx]

/-- A masked word, as the remainder of any integer the word stands for. -/
theorem toNat_and_maskN_of_int (h : b.sizesLegal = true) (x : Word) (z : Int) (hz : (x.toNat : Int) % 2 ^ 32 = z % 2 ^ 32) :
    ((x &&& maskN b).toNat : Int) = z % (b.tableLen : Int) := by
  rw [toNat_and_maskN h]
  have hd : (b.tableLen : Int) ∣ 2 ^ 32 := by exact_mod_cast tableLen_dvd h
  push_cast
  rw [← Int.emod_emod_of_dvd (x.toNat : Int) hd, hz, Int.emod_emod_of_dvd z hd]

theorem toNat_and_maskL_of_int (h : b.sizesLegal = true) (x : Word) (z : Int) (hz : (x.toNat : Int) % 2 ^ 32 = z % 2 ^ 32) :
    ((x &&& maskL b).toNat : Int) = z % (b.bufLen : Int) := by
  rw [toNat_and_maskL h]
  have hd : (b.bufLen : Int) ∣ 2 ^ 32 := by exact_mod_cast bufLen_dvd h
  push_cast
  rw [← Int.emod_emod_of_dvd (x.toNat : Int) hd, hz, Int.emod_emod_of_dvd z hd]

/-- `RomRead` reads the word at the index modulo N. -/
theorem romRead_eq (h : b.sizesLegal = true) (w : Nat) (i : Word) : romRead b w i = tableWord b w i.toNat := by
  unfold romRead tableWord; rw [toNat_and_maskN h]

/-- `RomRead` one word on, with the mask's wraparound. -/
theorem romRead_next (h : b.sizesLegal = true) (w : Nat) (i : Word) :
    romRead b w ((i + 1) &&& maskN b) = tableWord b w (i.toNat + 1) := by
  rw [romRead_eq h, toNat_and_maskN h]
  unfold tableWord
  rw [Nat.mod_mod, BitVec.toNat_add]
  congr 1
  exact Nat.mod_mod_of_dvd _ (tableLen_dvd h)

end Sys2Proof.Machine
end

