-- ==== Sys2Proof/Laws/Memory.lean ====
section
/-! SUPPORT. The laws of the delay RAM: a read after a write, the canonical form kept by every operation, and that
equal readings are equal memories. -/

namespace Sys2Proof.Machine

theorem readCells_cellFor (a b : Nat) (v : Word) : readCells (cellFor a v) b = if b = a then v else 0#32 := by
  unfold cellFor
  split <;> rename_i h
  · simp [readCells, h]
  · by_cases hb : a = b
    · simp [readCells, hb]
    · simp [readCells, hb, Ne.symm hb]

theorem readCells_cellFor_append (a b : Nat) (v : Word) (l : List (Nat × Word)) :
    readCells (cellFor a v ++ l) b = if b = a ∧ v ≠ 0#32 then v else readCells l b := by
  unfold cellFor
  split <;> rename_i h
  · simp [h]
  · by_cases hb : a = b
    · subst hb; simp [readCells, h]
    · simp [readCells, hb, Ne.symm hb]

/-- Every listed address is at least `lo`, so a lower address reads +0.0. -/
theorem readCells_eq_zero_of_lt {lo : Nat} {l : List (Nat × Word)} (h : cellsWfFrom lo l = true) {a : Nat}
    (ha : a < lo) : readCells l a = 0#32 := by
  induction l generalizing lo with
  | nil => rfl
  | cons c rest ih =>
    obtain ⟨k, v⟩ := c
    simp only [cellsWfFrom, Bool.and_eq_true, decide_eq_true_eq] at h
    have hk : k ≠ a := by omega
    simp only [readCells, hk, if_false]
    exact ih h.2 (by omega)

/-- Reading after a write, on canonical cells. -/
theorem readCells_writeCells {lo : Nat} {l : List (Nat × Word)} (h : cellsWfFrom lo l = true) (a b : Nat) (v : Word) :
    readCells (writeCells l a v) b = if b = a then v else readCells l b := by
  induction l generalizing lo with
  | nil => simpa [writeCells, readCells] using readCells_cellFor a b v
  | cons c rest ih =>
    obtain ⟨k, w⟩ := c
    simp only [cellsWfFrom, Bool.and_eq_true, decide_eq_true_eq] at h
    rcases Nat.lt_trichotomy a k with h1 | h1 | h1
    · simp only [writeCells, if_pos h1, readCells_cellFor_append]
      by_cases hb : b = a
      · subst hb
        by_cases hv : v = 0#32
        · have hk : k ≠ b := by omega
          simp [hv, readCells, hk, readCells_eq_zero_of_lt h.2 (show b < k + 1 by omega)]
        · simp [hv]
      · simp [hb]
    · subst h1
      simp only [writeCells, Nat.lt_irrefl, if_false, if_true, readCells_cellFor_append]
      by_cases hb : b = a
      · subst hb
        by_cases hv : v = 0#32
        · simp [hv, readCells_eq_zero_of_lt h.2 (show b < b + 1 by omega)]
        · simp [hv]
      · simp [hb, readCells, Ne.symm hb]
    · have h2 : ¬ a < k := by omega
      have h3 : ¬ a = k := by omega
      simp only [writeCells, if_neg h2, if_neg h3, readCells, ih h.2]
      by_cases hb : k = b
      · have : b ≠ a := by omega
        simp [hb, this]
      · simp [hb]

theorem cellsWfFrom_mono {lo lo' : Nat} (hlo : lo' ≤ lo) {l : List (Nat × Word)} (h : cellsWfFrom lo l = true) :
    cellsWfFrom lo' l = true := by
  cases l with
  | nil => rfl
  | cons c rest =>
    obtain ⟨k, v⟩ := c
    simp only [cellsWfFrom, Bool.and_eq_true, decide_eq_true_eq] at h ⊢
    exact ⟨⟨by omega, h.1.2⟩, h.2⟩

theorem cellsWfFrom_cellFor_append {lo a : Nat} (ha : lo ≤ a) (v : Word) {l : List (Nat × Word)}
    (h : cellsWfFrom (a + 1) l = true) : cellsWfFrom lo (cellFor a v ++ l) = true := by
  unfold cellFor
  split <;> rename_i hv
  · exact cellsWfFrom_mono (by omega) h
  · simp only [List.cons_append, List.nil_append, cellsWfFrom, Bool.and_eq_true, decide_eq_true_eq]
    exact ⟨⟨ha, by simpa using hv⟩, h⟩

theorem cellsWfFrom_writeCells {lo : Nat} {l : List (Nat × Word)} (h : cellsWfFrom lo l = true) {a : Nat} (ha : lo ≤ a)
    (v : Word) : cellsWfFrom lo (writeCells l a v) = true := by
  induction l generalizing lo with
  | nil => simpa [writeCells] using cellsWfFrom_cellFor_append ha v (l := []) rfl
  | cons c rest ih =>
    obtain ⟨k, w⟩ := c
    have hcons := h
    simp only [cellsWfFrom, Bool.and_eq_true, decide_eq_true_eq] at h
    simp only [writeCells]
    split_ifs with h1 h2
    · refine cellsWfFrom_cellFor_append ha v ?_
      simp only [cellsWfFrom, Bool.and_eq_true, decide_eq_true_eq]
      exact ⟨⟨by omega, h.1.2⟩, h.2⟩
    · subst h2; exact cellsWfFrom_cellFor_append ha v h.2
    · simp only [cellsWfFrom, Bool.and_eq_true, decide_eq_true_eq]
      exact ⟨h.1, ih h.2 (by omega)⟩

/-! ## The memory operations -/

@[simp] theorem Memory.wf_zero : Memory.zero.wf = true := rfl

/-- A write keeps the canonical form. -/
theorem Memory.wf_write {m : Memory} (h : m.wf = true) (a : Nat) (v : Word) : (m.write a v).wf = true :=
  cellsWfFrom_writeCells h (Nat.zero_le a) v

@[simp] theorem Memory.read_zero (a : Nat) : Memory.zero.read a = 0#32 := rfl

/-- Reading after a write, of a canonical memory. -/
theorem Memory.read_write {m : Memory} (h : m.wf = true) (a b : Nat) (v : Word) :
    (m.write a v).read b = if b = a then v else m.read b := readCells_writeCells h a b v

theorem Memory.read_write_same {m : Memory} (h : m.wf = true) (a : Nat) (v : Word) : (m.write a v).read a = v := by
  simp [Memory.read_write h]

/-- A write leaves every other word alone, in any memory. -/
theorem readCells_writeCells_ne (l : List (Nat × Word)) {a b : Nat} (hb : b ≠ a) (v : Word) :
    readCells (writeCells l a v) b = readCells l b := by
  induction l with
  | nil => simp [writeCells, readCells, readCells_cellFor, hb]
  | cons c rest ih =>
    obtain ⟨k, w⟩ := c
    simp only [writeCells]
    split_ifs with h1 h2
    · simp [readCells_cellFor_append, hb]
    · subst h2; simp [readCells_cellFor_append, hb, readCells, Ne.symm hb]
    · simp only [readCells, ih]

theorem Memory.read_write_ne (m : Memory) {a b : Nat} (hb : b ≠ a) (v : Word) : (m.write a v).read b = m.read b :=
  readCells_writeCells_ne m.cells hb v

theorem Memory.below_zero (n : Nat) : Memory.zero.below n = true := rfl

/-- A write inside the buffer keeps every listed address inside it. -/
theorem Memory.below_write {m : Memory} {n : Nat} (h : m.below n = true) {a : Nat} (ha : a < n) (v : Word) :
    (m.write a v).below n = true := by
  obtain ⟨l⟩ := m
  simp only [Memory.below, Memory.write] at h ⊢
  have hc : (cellFor a v).all (fun c => decide (c.1 < n)) = true := by
    unfold cellFor; split <;> simp [ha]
  induction l with
  | nil => simpa [writeCells] using hc
  | cons c rest ih =>
    obtain ⟨k, w⟩ := c
    simp only [List.all_cons, Bool.and_eq_true, decide_eq_true_eq] at h
    simp only [writeCells]
    split_ifs
    · simp only [List.all_append, List.all_cons, Bool.and_eq_true, decide_eq_true_eq]; exact ⟨hc, h.1, h.2⟩
    · simp only [List.all_append, Bool.and_eq_true]; exact ⟨hc, h.2⟩
    · simp only [List.all_cons, Bool.and_eq_true, decide_eq_true_eq]; exact ⟨h.1, ih h.2⟩

/-- Canonical cells that read the same everywhere are equal. -/
theorem cells_ext {lo : Nat} {l m : List (Nat × Word)} (hl : cellsWfFrom lo l = true) (hm : cellsWfFrom lo m = true)
    (h : ∀ a, readCells l a = readCells m a) : l = m := by
  induction l generalizing lo m with
  | nil =>
    cases m with
    | nil => rfl
    | cons c rest =>
      obtain ⟨k, v⟩ := c
      simp only [cellsWfFrom, Bool.and_eq_true, decide_eq_true_eq, bne_iff_ne] at hm
      exact absurd (by simpa [readCells] using (h k).symm) hm.1.2
  | cons c rest ih =>
    obtain ⟨k, v⟩ := c
    cases m with
    | nil =>
      simp only [cellsWfFrom, Bool.and_eq_true, decide_eq_true_eq, bne_iff_ne] at hl
      exact absurd (by simpa [readCells] using h k) hl.1.2
    | cons d rest' =>
      obtain ⟨k', v'⟩ := d
      simp only [cellsWfFrom, Bool.and_eq_true, decide_eq_true_eq, bne_iff_ne] at hl hm
      have hk : k = k' := by
        by_contra hne
        rcases Nat.lt_or_ge k k' with hlt | hge
        · have := h k
          have hne' : k' ≠ k := by omega
          simp only [readCells, if_true, hne', if_false, readCells_eq_zero_of_lt hm.2 (show k < k' + 1 by omega)] at this
          exact hl.1.2 this
        · have := h k'
          simp only [readCells, if_true, hne, if_false, readCells_eq_zero_of_lt hl.2 (show k' < k + 1 by omega)] at this
          exact hm.1.2 this.symm
      subst hk
      have hv : v = v' := by simpa [readCells] using h k
      subst hv
      have : rest = rest' := ih hl.2 hm.2 (fun a => by
        by_cases ha : k = a
        · rw [readCells_eq_zero_of_lt hl.2 (by omega), readCells_eq_zero_of_lt hm.2 (by omega)]
        · simpa [readCells, ha] using h a)
      rw [this]

/-- Canonical memories that read the same everywhere are equal. -/
theorem Memory.ext_read {l m : Memory} (hl : l.wf = true) (hm : m.wf = true) (h : ∀ a, l.read a = m.read a) : l = m := by
  obtain ⟨l⟩ := l; obtain ⟨m⟩ := m
  exact congrArg Memory.mk (cells_ext (lo := 0) hl hm h)

end Sys2Proof.Machine
end

