-- ==== Sys2Proof/Laws/State.lean ====
section
/-! SUPPORT. One lemma per field per named update of the state, each true by computation, so that no proof unfolds a
record update. -/

namespace Sys2Proof.Machine

variable (s : State) (ch : Ch) (c : OscCursor) (d : DelayChannel)

/-! ## The two channels -/

@[simp] theorem Ch.other_other (ch : Ch) : ch.other.other = ch := by cases ch <;> rfl
@[simp] theorem Ch.other_ne (ch : Ch) : ch.other ≠ ch := by cases ch <;> decide
@[simp] theorem Ch.ne_other (ch : Ch) : ch ≠ ch.other := by cases ch <;> decide
theorem Ch.eq_or_other (a b : Ch) : a = b ∨ a = b.other := by cases a <;> cases b <;> simp [Ch.other]
@[simp] theorem Ch.ofBit_bit (ch : Ch) : Ch.ofBit ch.bit = ch := by cases ch <;> rfl

@[simp] theorem osc_setOsc : (s.setOsc ch c).osc ch = c := by cases ch <;> rfl
@[simp] theorem osc_setOsc_other : (s.setOsc ch c).osc ch.other = s.osc ch.other := by cases ch <;> rfl
theorem osc_setOsc_ne (b : Ch) (h : b ≠ ch) : (s.setOsc ch c).osc b = s.osc b := by
  cases ch <;> cases b <;> first | rfl | exact absurd rfl h
@[simp] theorem dl_setOsc (b : Ch) : (s.setOsc ch c).dl b = s.dl b := by cases ch <;> cases b <;> rfl
@[simp] theorem dl_setDl : (s.setDl ch d).dl ch = d := by cases ch <;> rfl
@[simp] theorem dl_setDl_other : (s.setDl ch d).dl ch.other = s.dl ch.other := by cases ch <;> rfl
theorem dl_setDl_ne (b : Ch) (h : b ≠ ch) : (s.setDl ch d).dl b = s.dl b := by
  cases ch <;> cases b <;> first | rfl | exact absurd rfl h
@[simp] theorem osc_setDl (b : Ch) : (s.setDl ch d).osc b = s.osc b := by cases ch <;> cases b <;> rfl


/-! ## `setOsc` -/

@[simp] theorem build_setOsc : (s.setOsc ch c).build = s.build := by cases ch <;> rfl
@[simp] theorem fs_setOsc : (s.setOsc ch c).fs = s.fs := by cases ch <;> rfl
@[simp] theorem maxBlock_setOsc : (s.setOsc ch c).maxBlock = s.maxBlock := by cases ch <;> rfl
@[simp] theorem cfgValid_setOsc : (s.setOsc ch c).cfgValid = s.cfgValid := by cases ch <;> rfl
@[simp] theorem waveSel_setOsc : (s.setOsc ch c).waveSel = s.waveSel := by cases ch <;> rfl
@[simp] theorem rate_setOsc : (s.setOsc ch c).rate = s.rate := by cases ch <;> rfl
@[simp] theorem incInt_setOsc : (s.setOsc ch c).incInt = s.incInt := by cases ch <;> rfl
@[simp] theorem incFrac_setOsc : (s.setOsc ch c).incFrac = s.incFrac := by cases ch <;> rfl
@[simp] theorem polMask_setOsc : (s.setOsc ch c).polMask = s.polMask := by cases ch <;> rfl
@[simp] theorem dl0_setOsc : (s.setOsc ch c).dl0 = s.dl0 := by cases ch <;> rfl
@[simp] theorem dl1_setOsc : (s.setOsc ch c).dl1 = s.dl1 := by cases ch <;> rfl
@[simp] theorem wet_setOsc : (s.setOsc ch c).wet = s.wet := by cases ch <;> rfl
@[simp] theorem dry_setOsc : (s.setOsc ch c).dry = s.dry := by cases ch <;> rfl
@[simp] theorem fb_setOsc : (s.setOsc ch c).fb = s.fb := by cases ch <;> rfl
@[simp] theorem pDryWet_setOsc : (s.setOsc ch c).pDryWet = s.pDryWet := by cases ch <;> rfl
@[simp] theorem pFeedback_setOsc : (s.setOsc ch c).pFeedback = s.pFeedback := by cases ch <;> rfl
@[simp] theorem pDepth_setOsc : (s.setOsc ch c).pDepth = s.pDepth := by cases ch <;> rfl
@[simp] theorem pChorusOfs_setOsc : (s.setOsc ch c).pChorusOfs = s.pChorusOfs := by cases ch <;> rfl
@[simp] theorem effect_setOsc : (s.setOsc ch c).effect = s.effect := by cases ch <;> rfl
@[simp] theorem delta_setOsc : (s.setOsc ch c).delta = s.delta := by cases ch <;> rfl
@[simp] theorem cmask_setOsc : (s.setOsc ch c).cmask = s.cmask := by cases ch <;> rfl
@[simp] theorem bypass_setOsc : (s.setOsc ch c).bypass = s.bypass := by cases ch <;> rfl
@[simp] theorem sticky_setOsc : (s.setOsc ch c).sticky = s.sticky := by cases ch <;> rfl
@[simp] theorem rsp_setOsc : (s.setOsc ch c).rsp = s.rsp := by cases ch <;> rfl
@[simp] theorem inputs_setOsc : (s.setOsc ch c).inputs = s.inputs := by cases ch <;> rfl
@[simp] theorem record_setOsc : (s.setOsc ch c).record = s.record := by cases ch <;> rfl

/-! ## `setDl` -/

@[simp] theorem build_setDl : (s.setDl ch d).build = s.build := by cases ch <;> rfl
@[simp] theorem fs_setDl : (s.setDl ch d).fs = s.fs := by cases ch <;> rfl
@[simp] theorem maxBlock_setDl : (s.setDl ch d).maxBlock = s.maxBlock := by cases ch <;> rfl
@[simp] theorem cfgValid_setDl : (s.setDl ch d).cfgValid = s.cfgValid := by cases ch <;> rfl
@[simp] theorem waveSel_setDl : (s.setDl ch d).waveSel = s.waveSel := by cases ch <;> rfl
@[simp] theorem rate_setDl : (s.setDl ch d).rate = s.rate := by cases ch <;> rfl
@[simp] theorem incInt_setDl : (s.setDl ch d).incInt = s.incInt := by cases ch <;> rfl
@[simp] theorem incFrac_setDl : (s.setDl ch d).incFrac = s.incFrac := by cases ch <;> rfl
@[simp] theorem osc0_setDl : (s.setDl ch d).osc0 = s.osc0 := by cases ch <;> rfl
@[simp] theorem osc1_setDl : (s.setDl ch d).osc1 = s.osc1 := by cases ch <;> rfl
@[simp] theorem polMask_setDl : (s.setDl ch d).polMask = s.polMask := by cases ch <;> rfl
@[simp] theorem wet_setDl : (s.setDl ch d).wet = s.wet := by cases ch <;> rfl
@[simp] theorem dry_setDl : (s.setDl ch d).dry = s.dry := by cases ch <;> rfl
@[simp] theorem fb_setDl : (s.setDl ch d).fb = s.fb := by cases ch <;> rfl
@[simp] theorem pDryWet_setDl : (s.setDl ch d).pDryWet = s.pDryWet := by cases ch <;> rfl
@[simp] theorem pFeedback_setDl : (s.setDl ch d).pFeedback = s.pFeedback := by cases ch <;> rfl
@[simp] theorem pDepth_setDl : (s.setDl ch d).pDepth = s.pDepth := by cases ch <;> rfl
@[simp] theorem pChorusOfs_setDl : (s.setDl ch d).pChorusOfs = s.pChorusOfs := by cases ch <;> rfl
@[simp] theorem effect_setDl : (s.setDl ch d).effect = s.effect := by cases ch <;> rfl
@[simp] theorem delta_setDl : (s.setDl ch d).delta = s.delta := by cases ch <;> rfl
@[simp] theorem cmask_setDl : (s.setDl ch d).cmask = s.cmask := by cases ch <;> rfl
@[simp] theorem bypass_setDl : (s.setDl ch d).bypass = s.bypass := by cases ch <;> rfl
@[simp] theorem sticky_setDl : (s.setDl ch d).sticky = s.sticky := by cases ch <;> rfl
@[simp] theorem rsp_setDl : (s.setDl ch d).rsp = s.rsp := by cases ch <;> rfl
@[simp] theorem inputs_setDl : (s.setDl ch d).inputs = s.inputs := by cases ch <;> rfl
@[simp] theorem record_setDl : (s.setDl ch d).record = s.record := by cases ch <;> rfl

/-! ## `commit` -/

@[simp] theorem build_commit (code : RspCode) (v : Word) : (commit code v s).build = s.build := rfl
@[simp] theorem fs_commit (code : RspCode) (v : Word) : (commit code v s).fs = s.fs := rfl
@[simp] theorem maxBlock_commit (code : RspCode) (v : Word) : (commit code v s).maxBlock = s.maxBlock := rfl
@[simp] theorem cfgValid_commit (code : RspCode) (v : Word) : (commit code v s).cfgValid = s.cfgValid := rfl
@[simp] theorem waveSel_commit (code : RspCode) (v : Word) : (commit code v s).waveSel = s.waveSel := rfl
@[simp] theorem rate_commit (code : RspCode) (v : Word) : (commit code v s).rate = s.rate := rfl
@[simp] theorem incInt_commit (code : RspCode) (v : Word) : (commit code v s).incInt = s.incInt := rfl
@[simp] theorem incFrac_commit (code : RspCode) (v : Word) : (commit code v s).incFrac = s.incFrac := rfl
@[simp] theorem osc0_commit (code : RspCode) (v : Word) : (commit code v s).osc0 = s.osc0 := rfl
@[simp] theorem osc1_commit (code : RspCode) (v : Word) : (commit code v s).osc1 = s.osc1 := rfl
@[simp] theorem polMask_commit (code : RspCode) (v : Word) : (commit code v s).polMask = s.polMask := rfl
@[simp] theorem dl0_commit (code : RspCode) (v : Word) : (commit code v s).dl0 = s.dl0 := rfl
@[simp] theorem dl1_commit (code : RspCode) (v : Word) : (commit code v s).dl1 = s.dl1 := rfl
@[simp] theorem wet_commit (code : RspCode) (v : Word) : (commit code v s).wet = s.wet := rfl
@[simp] theorem dry_commit (code : RspCode) (v : Word) : (commit code v s).dry = s.dry := rfl
@[simp] theorem fb_commit (code : RspCode) (v : Word) : (commit code v s).fb = s.fb := rfl
@[simp] theorem pDryWet_commit (code : RspCode) (v : Word) : (commit code v s).pDryWet = s.pDryWet := rfl
@[simp] theorem pFeedback_commit (code : RspCode) (v : Word) : (commit code v s).pFeedback = s.pFeedback := rfl
@[simp] theorem pDepth_commit (code : RspCode) (v : Word) : (commit code v s).pDepth = s.pDepth := rfl
@[simp] theorem pChorusOfs_commit (code : RspCode) (v : Word) : (commit code v s).pChorusOfs = s.pChorusOfs := rfl
@[simp] theorem effect_commit (code : RspCode) (v : Word) : (commit code v s).effect = s.effect := rfl
@[simp] theorem delta_commit (code : RspCode) (v : Word) : (commit code v s).delta = s.delta := rfl
@[simp] theorem cmask_commit (code : RspCode) (v : Word) : (commit code v s).cmask = s.cmask := rfl
@[simp] theorem bypass_commit (code : RspCode) (v : Word) : (commit code v s).bypass = s.bypass := rfl
@[simp] theorem inputs_commit (code : RspCode) (v : Word) : (commit code v s).inputs = s.inputs := rfl
@[simp] theorem rsp_commit (code : RspCode) (v : Word) : (commit code v s).rsp = some ⟨code, v⟩ := rfl
@[simp] theorem sticky_commit (code : RspCode) (v : Word) : (commit code v s).sticky = s.sticky ||| stickyBit code := rfl
@[simp] theorem record_commit (code : RspCode) (v : Word) : (commit code v s).record = noteCode s.record code := rfl
@[simp] theorem osc_commit (code : RspCode) (v : Word) (b : Ch) : (commit code v s).osc b = s.osc b := by cases b <;> rfl
@[simp] theorem dl_commit (code : RspCode) (v : Word) (b : Ch) : (commit code v s).dl b = s.dl b := by cases b <;> rfl

/-! ## `takeResponse` -/

@[simp] theorem build_takeResponse : (takeResponse s).build = s.build := rfl
@[simp] theorem fs_takeResponse : (takeResponse s).fs = s.fs := rfl
@[simp] theorem maxBlock_takeResponse : (takeResponse s).maxBlock = s.maxBlock := rfl
@[simp] theorem cfgValid_takeResponse : (takeResponse s).cfgValid = s.cfgValid := rfl
@[simp] theorem waveSel_takeResponse : (takeResponse s).waveSel = s.waveSel := rfl
@[simp] theorem rate_takeResponse : (takeResponse s).rate = s.rate := rfl
@[simp] theorem incInt_takeResponse : (takeResponse s).incInt = s.incInt := rfl
@[simp] theorem incFrac_takeResponse : (takeResponse s).incFrac = s.incFrac := rfl
@[simp] theorem osc0_takeResponse : (takeResponse s).osc0 = s.osc0 := rfl
@[simp] theorem osc1_takeResponse : (takeResponse s).osc1 = s.osc1 := rfl
@[simp] theorem polMask_takeResponse : (takeResponse s).polMask = s.polMask := rfl
@[simp] theorem dl0_takeResponse : (takeResponse s).dl0 = s.dl0 := rfl
@[simp] theorem dl1_takeResponse : (takeResponse s).dl1 = s.dl1 := rfl
@[simp] theorem wet_takeResponse : (takeResponse s).wet = s.wet := rfl
@[simp] theorem dry_takeResponse : (takeResponse s).dry = s.dry := rfl
@[simp] theorem fb_takeResponse : (takeResponse s).fb = s.fb := rfl
@[simp] theorem pDryWet_takeResponse : (takeResponse s).pDryWet = s.pDryWet := rfl
@[simp] theorem pFeedback_takeResponse : (takeResponse s).pFeedback = s.pFeedback := rfl
@[simp] theorem pDepth_takeResponse : (takeResponse s).pDepth = s.pDepth := rfl
@[simp] theorem pChorusOfs_takeResponse : (takeResponse s).pChorusOfs = s.pChorusOfs := rfl
@[simp] theorem effect_takeResponse : (takeResponse s).effect = s.effect := rfl
@[simp] theorem delta_takeResponse : (takeResponse s).delta = s.delta := rfl
@[simp] theorem cmask_takeResponse : (takeResponse s).cmask = s.cmask := rfl
@[simp] theorem bypass_takeResponse : (takeResponse s).bypass = s.bypass := rfl
@[simp] theorem sticky_takeResponse : (takeResponse s).sticky = s.sticky := rfl
@[simp] theorem inputs_takeResponse : (takeResponse s).inputs = s.inputs := rfl
@[simp] theorem record_takeResponse : (takeResponse s).record = s.record := rfl
@[simp] theorem rsp_takeResponse : (takeResponse s).rsp = none := rfl

/-! ## `recomputeMix` -/

@[simp] theorem build_recomputeMix : (recomputeMix s).build = s.build := by unfold recomputeMix; split <;> rfl
@[simp] theorem fs_recomputeMix : (recomputeMix s).fs = s.fs := by unfold recomputeMix; split <;> rfl
@[simp] theorem maxBlock_recomputeMix : (recomputeMix s).maxBlock = s.maxBlock := by unfold recomputeMix; split <;> rfl
@[simp] theorem cfgValid_recomputeMix : (recomputeMix s).cfgValid = s.cfgValid := by unfold recomputeMix; split <;> rfl
@[simp] theorem waveSel_recomputeMix : (recomputeMix s).waveSel = s.waveSel := by unfold recomputeMix; split <;> rfl
@[simp] theorem rate_recomputeMix : (recomputeMix s).rate = s.rate := by unfold recomputeMix; split <;> rfl
@[simp] theorem incInt_recomputeMix : (recomputeMix s).incInt = s.incInt := by unfold recomputeMix; split <;> rfl
@[simp] theorem incFrac_recomputeMix : (recomputeMix s).incFrac = s.incFrac := by unfold recomputeMix; split <;> rfl
@[simp] theorem osc0_recomputeMix : (recomputeMix s).osc0 = s.osc0 := by unfold recomputeMix; split <;> rfl
@[simp] theorem osc1_recomputeMix : (recomputeMix s).osc1 = s.osc1 := by unfold recomputeMix; split <;> rfl
@[simp] theorem polMask_recomputeMix : (recomputeMix s).polMask = s.polMask := by unfold recomputeMix; split <;> rfl
@[simp] theorem dl0_recomputeMix : (recomputeMix s).dl0 = s.dl0 := by unfold recomputeMix; split <;> rfl
@[simp] theorem dl1_recomputeMix : (recomputeMix s).dl1 = s.dl1 := by unfold recomputeMix; split <;> rfl
@[simp] theorem pDryWet_recomputeMix : (recomputeMix s).pDryWet = s.pDryWet := by unfold recomputeMix; split <;> rfl
@[simp] theorem pFeedback_recomputeMix : (recomputeMix s).pFeedback = s.pFeedback := by unfold recomputeMix; split <;> rfl
@[simp] theorem pDepth_recomputeMix : (recomputeMix s).pDepth = s.pDepth := by unfold recomputeMix; split <;> rfl
@[simp] theorem pChorusOfs_recomputeMix : (recomputeMix s).pChorusOfs = s.pChorusOfs := by unfold recomputeMix; split <;> rfl
@[simp] theorem effect_recomputeMix : (recomputeMix s).effect = s.effect := by unfold recomputeMix; split <;> rfl
@[simp] theorem delta_recomputeMix : (recomputeMix s).delta = s.delta := by unfold recomputeMix; split <;> rfl
@[simp] theorem cmask_recomputeMix : (recomputeMix s).cmask = s.cmask := by unfold recomputeMix; split <;> rfl
@[simp] theorem bypass_recomputeMix : (recomputeMix s).bypass = s.bypass := by unfold recomputeMix; split <;> rfl
@[simp] theorem sticky_recomputeMix : (recomputeMix s).sticky = s.sticky := by unfold recomputeMix; split <;> rfl
@[simp] theorem rsp_recomputeMix : (recomputeMix s).rsp = s.rsp := by unfold recomputeMix; split <;> rfl
@[simp] theorem inputs_recomputeMix : (recomputeMix s).inputs = s.inputs := by unfold recomputeMix; split <;> rfl
@[simp] theorem record_recomputeMix : (recomputeMix s).record = s.record := by unfold recomputeMix; split <;> rfl
@[simp] theorem osc_recomputeMix (b : Ch) : (recomputeMix s).osc b = s.osc b := by
  cases b <;> simp [State.osc]
@[simp] theorem dl_recomputeMix (b : Ch) : (recomputeMix s).dl b = s.dl b := by
  cases b <;> simp [State.dl]

/-! ## `advance` -/

@[simp] theorem build_advance : (advance s ch).build = s.build := by simp [advance]
@[simp] theorem fs_advance : (advance s ch).fs = s.fs := by simp [advance]
@[simp] theorem maxBlock_advance : (advance s ch).maxBlock = s.maxBlock := by simp [advance]
@[simp] theorem cfgValid_advance : (advance s ch).cfgValid = s.cfgValid := by simp [advance]
@[simp] theorem waveSel_advance : (advance s ch).waveSel = s.waveSel := by simp [advance]
@[simp] theorem rate_advance : (advance s ch).rate = s.rate := by simp [advance]
@[simp] theorem incInt_advance : (advance s ch).incInt = s.incInt := by simp [advance]
@[simp] theorem incFrac_advance : (advance s ch).incFrac = s.incFrac := by simp [advance]
@[simp] theorem polMask_advance : (advance s ch).polMask = s.polMask := by simp [advance]
@[simp] theorem dl0_advance : (advance s ch).dl0 = s.dl0 := by simp [advance]
@[simp] theorem dl1_advance : (advance s ch).dl1 = s.dl1 := by simp [advance]
@[simp] theorem wet_advance : (advance s ch).wet = s.wet := by simp [advance]
@[simp] theorem dry_advance : (advance s ch).dry = s.dry := by simp [advance]
@[simp] theorem fb_advance : (advance s ch).fb = s.fb := by simp [advance]
@[simp] theorem pDryWet_advance : (advance s ch).pDryWet = s.pDryWet := by simp [advance]
@[simp] theorem pFeedback_advance : (advance s ch).pFeedback = s.pFeedback := by simp [advance]
@[simp] theorem pDepth_advance : (advance s ch).pDepth = s.pDepth := by simp [advance]
@[simp] theorem pChorusOfs_advance : (advance s ch).pChorusOfs = s.pChorusOfs := by simp [advance]
@[simp] theorem effect_advance : (advance s ch).effect = s.effect := by simp [advance]
@[simp] theorem delta_advance : (advance s ch).delta = s.delta := by simp [advance]
@[simp] theorem cmask_advance : (advance s ch).cmask = s.cmask := by simp [advance]
@[simp] theorem bypass_advance : (advance s ch).bypass = s.bypass := by simp [advance]
@[simp] theorem sticky_advance : (advance s ch).sticky = s.sticky := by simp [advance]
@[simp] theorem rsp_advance : (advance s ch).rsp = s.rsp := by simp [advance]
@[simp] theorem inputs_advance : (advance s ch).inputs = s.inputs := by simp [advance]
@[simp] theorem record_advance : (advance s ch).record = s.record := by simp [advance]

/-! ## `placeRead` -/

@[simp] theorem build_placeRead (x y : Word) : (placeRead s ch x y).build = s.build := by simp [placeRead]
@[simp] theorem fs_placeRead (x y : Word) : (placeRead s ch x y).fs = s.fs := by simp [placeRead]
@[simp] theorem maxBlock_placeRead (x y : Word) : (placeRead s ch x y).maxBlock = s.maxBlock := by simp [placeRead]
@[simp] theorem cfgValid_placeRead (x y : Word) : (placeRead s ch x y).cfgValid = s.cfgValid := by simp [placeRead]
@[simp] theorem waveSel_placeRead (x y : Word) : (placeRead s ch x y).waveSel = s.waveSel := by simp [placeRead]
@[simp] theorem rate_placeRead (x y : Word) : (placeRead s ch x y).rate = s.rate := by simp [placeRead]
@[simp] theorem incInt_placeRead (x y : Word) : (placeRead s ch x y).incInt = s.incInt := by simp [placeRead]
@[simp] theorem incFrac_placeRead (x y : Word) : (placeRead s ch x y).incFrac = s.incFrac := by simp [placeRead]
@[simp] theorem osc0_placeRead (x y : Word) : (placeRead s ch x y).osc0 = s.osc0 := by simp [placeRead]
@[simp] theorem osc1_placeRead (x y : Word) : (placeRead s ch x y).osc1 = s.osc1 := by simp [placeRead]
@[simp] theorem polMask_placeRead (x y : Word) : (placeRead s ch x y).polMask = s.polMask := by simp [placeRead]
@[simp] theorem wet_placeRead (x y : Word) : (placeRead s ch x y).wet = s.wet := by simp [placeRead]
@[simp] theorem dry_placeRead (x y : Word) : (placeRead s ch x y).dry = s.dry := by simp [placeRead]
@[simp] theorem fb_placeRead (x y : Word) : (placeRead s ch x y).fb = s.fb := by simp [placeRead]
@[simp] theorem pDryWet_placeRead (x y : Word) : (placeRead s ch x y).pDryWet = s.pDryWet := by simp [placeRead]
@[simp] theorem pFeedback_placeRead (x y : Word) : (placeRead s ch x y).pFeedback = s.pFeedback := by simp [placeRead]
@[simp] theorem pDepth_placeRead (x y : Word) : (placeRead s ch x y).pDepth = s.pDepth := by simp [placeRead]
@[simp] theorem pChorusOfs_placeRead (x y : Word) : (placeRead s ch x y).pChorusOfs = s.pChorusOfs := by simp [placeRead]
@[simp] theorem effect_placeRead (x y : Word) : (placeRead s ch x y).effect = s.effect := by simp [placeRead]
@[simp] theorem delta_placeRead (x y : Word) : (placeRead s ch x y).delta = s.delta := by simp [placeRead]
@[simp] theorem cmask_placeRead (x y : Word) : (placeRead s ch x y).cmask = s.cmask := by simp [placeRead]
@[simp] theorem bypass_placeRead (x y : Word) : (placeRead s ch x y).bypass = s.bypass := by simp [placeRead]
@[simp] theorem sticky_placeRead (x y : Word) : (placeRead s ch x y).sticky = s.sticky := by simp [placeRead]
@[simp] theorem rsp_placeRead (x y : Word) : (placeRead s ch x y).rsp = s.rsp := by simp [placeRead]
@[simp] theorem inputs_placeRead (x y : Word) : (placeRead s ch x y).inputs = s.inputs := by simp [placeRead]
@[simp] theorem record_placeRead (x y : Word) : (placeRead s ch x y).record = s.record := by simp [placeRead]

/-! ## `stepWrite` -/

@[simp] theorem build_stepWrite : (stepWrite s ch).build = s.build := by simp [stepWrite]
@[simp] theorem fs_stepWrite : (stepWrite s ch).fs = s.fs := by simp [stepWrite]
@[simp] theorem maxBlock_stepWrite : (stepWrite s ch).maxBlock = s.maxBlock := by simp [stepWrite]
@[simp] theorem cfgValid_stepWrite : (stepWrite s ch).cfgValid = s.cfgValid := by simp [stepWrite]
@[simp] theorem waveSel_stepWrite : (stepWrite s ch).waveSel = s.waveSel := by simp [stepWrite]
@[simp] theorem rate_stepWrite : (stepWrite s ch).rate = s.rate := by simp [stepWrite]
@[simp] theorem incInt_stepWrite : (stepWrite s ch).incInt = s.incInt := by simp [stepWrite]
@[simp] theorem incFrac_stepWrite : (stepWrite s ch).incFrac = s.incFrac := by simp [stepWrite]
@[simp] theorem osc0_stepWrite : (stepWrite s ch).osc0 = s.osc0 := by simp [stepWrite]
@[simp] theorem osc1_stepWrite : (stepWrite s ch).osc1 = s.osc1 := by simp [stepWrite]
@[simp] theorem polMask_stepWrite : (stepWrite s ch).polMask = s.polMask := by simp [stepWrite]
@[simp] theorem wet_stepWrite : (stepWrite s ch).wet = s.wet := by simp [stepWrite]
@[simp] theorem dry_stepWrite : (stepWrite s ch).dry = s.dry := by simp [stepWrite]
@[simp] theorem fb_stepWrite : (stepWrite s ch).fb = s.fb := by simp [stepWrite]
@[simp] theorem pDryWet_stepWrite : (stepWrite s ch).pDryWet = s.pDryWet := by simp [stepWrite]
@[simp] theorem pFeedback_stepWrite : (stepWrite s ch).pFeedback = s.pFeedback := by simp [stepWrite]
@[simp] theorem pDepth_stepWrite : (stepWrite s ch).pDepth = s.pDepth := by simp [stepWrite]
@[simp] theorem pChorusOfs_stepWrite : (stepWrite s ch).pChorusOfs = s.pChorusOfs := by simp [stepWrite]
@[simp] theorem effect_stepWrite : (stepWrite s ch).effect = s.effect := by simp [stepWrite]
@[simp] theorem delta_stepWrite : (stepWrite s ch).delta = s.delta := by simp [stepWrite]
@[simp] theorem cmask_stepWrite : (stepWrite s ch).cmask = s.cmask := by simp [stepWrite]
@[simp] theorem bypass_stepWrite : (stepWrite s ch).bypass = s.bypass := by simp [stepWrite]
@[simp] theorem sticky_stepWrite : (stepWrite s ch).sticky = s.sticky := by simp [stepWrite]
@[simp] theorem rsp_stepWrite : (stepWrite s ch).rsp = s.rsp := by simp [stepWrite]
@[simp] theorem inputs_stepWrite : (stepWrite s ch).inputs = s.inputs := by simp [stepWrite]
@[simp] theorem record_stepWrite : (stepWrite s ch).record = s.record := by simp [stepWrite]

/-! ## `bufWrite` -/

@[simp] theorem build_bufWrite (x y : Word) : (bufWrite s ch x y).build = s.build := by simp [bufWrite]
@[simp] theorem fs_bufWrite (x y : Word) : (bufWrite s ch x y).fs = s.fs := by simp [bufWrite]
@[simp] theorem maxBlock_bufWrite (x y : Word) : (bufWrite s ch x y).maxBlock = s.maxBlock := by simp [bufWrite]
@[simp] theorem cfgValid_bufWrite (x y : Word) : (bufWrite s ch x y).cfgValid = s.cfgValid := by simp [bufWrite]
@[simp] theorem waveSel_bufWrite (x y : Word) : (bufWrite s ch x y).waveSel = s.waveSel := by simp [bufWrite]
@[simp] theorem rate_bufWrite (x y : Word) : (bufWrite s ch x y).rate = s.rate := by simp [bufWrite]
@[simp] theorem incInt_bufWrite (x y : Word) : (bufWrite s ch x y).incInt = s.incInt := by simp [bufWrite]
@[simp] theorem incFrac_bufWrite (x y : Word) : (bufWrite s ch x y).incFrac = s.incFrac := by simp [bufWrite]
@[simp] theorem osc0_bufWrite (x y : Word) : (bufWrite s ch x y).osc0 = s.osc0 := by simp [bufWrite]
@[simp] theorem osc1_bufWrite (x y : Word) : (bufWrite s ch x y).osc1 = s.osc1 := by simp [bufWrite]
@[simp] theorem polMask_bufWrite (x y : Word) : (bufWrite s ch x y).polMask = s.polMask := by simp [bufWrite]
@[simp] theorem wet_bufWrite (x y : Word) : (bufWrite s ch x y).wet = s.wet := by simp [bufWrite]
@[simp] theorem dry_bufWrite (x y : Word) : (bufWrite s ch x y).dry = s.dry := by simp [bufWrite]
@[simp] theorem fb_bufWrite (x y : Word) : (bufWrite s ch x y).fb = s.fb := by simp [bufWrite]
@[simp] theorem pDryWet_bufWrite (x y : Word) : (bufWrite s ch x y).pDryWet = s.pDryWet := by simp [bufWrite]
@[simp] theorem pFeedback_bufWrite (x y : Word) : (bufWrite s ch x y).pFeedback = s.pFeedback := by simp [bufWrite]
@[simp] theorem pDepth_bufWrite (x y : Word) : (bufWrite s ch x y).pDepth = s.pDepth := by simp [bufWrite]
@[simp] theorem pChorusOfs_bufWrite (x y : Word) : (bufWrite s ch x y).pChorusOfs = s.pChorusOfs := by simp [bufWrite]
@[simp] theorem effect_bufWrite (x y : Word) : (bufWrite s ch x y).effect = s.effect := by simp [bufWrite]
@[simp] theorem delta_bufWrite (x y : Word) : (bufWrite s ch x y).delta = s.delta := by simp [bufWrite]
@[simp] theorem cmask_bufWrite (x y : Word) : (bufWrite s ch x y).cmask = s.cmask := by simp [bufWrite]
@[simp] theorem bypass_bufWrite (x y : Word) : (bufWrite s ch x y).bypass = s.bypass := by simp [bufWrite]
@[simp] theorem sticky_bufWrite (x y : Word) : (bufWrite s ch x y).sticky = s.sticky := by simp [bufWrite]
@[simp] theorem rsp_bufWrite (x y : Word) : (bufWrite s ch x y).rsp = s.rsp := by simp [bufWrite]
@[simp] theorem inputs_bufWrite (x y : Word) : (bufWrite s ch x y).inputs = s.inputs := by simp [bufWrite]
@[simp] theorem record_bufWrite (x y : Word) : (bufWrite s ch x y).record = s.record := by simp [bufWrite]

/-! ## `updateState` -/

@[simp] theorem build_updateState (e : Ch) (x : Word) : (updateState s ch e x).build = s.build := by simp [updateState]
@[simp] theorem fs_updateState (e : Ch) (x : Word) : (updateState s ch e x).fs = s.fs := by simp [updateState]
@[simp] theorem maxBlock_updateState (e : Ch) (x : Word) : (updateState s ch e x).maxBlock = s.maxBlock := by simp [updateState]
@[simp] theorem cfgValid_updateState (e : Ch) (x : Word) : (updateState s ch e x).cfgValid = s.cfgValid := by simp [updateState]
@[simp] theorem waveSel_updateState (e : Ch) (x : Word) : (updateState s ch e x).waveSel = s.waveSel := by simp [updateState]
@[simp] theorem rate_updateState (e : Ch) (x : Word) : (updateState s ch e x).rate = s.rate := by simp [updateState]
@[simp] theorem incInt_updateState (e : Ch) (x : Word) : (updateState s ch e x).incInt = s.incInt := by simp [updateState]
@[simp] theorem incFrac_updateState (e : Ch) (x : Word) : (updateState s ch e x).incFrac = s.incFrac := by simp [updateState]
@[simp] theorem osc0_updateState (e : Ch) (x : Word) : (updateState s ch e x).osc0 = s.osc0 := by simp [updateState]
@[simp] theorem osc1_updateState (e : Ch) (x : Word) : (updateState s ch e x).osc1 = s.osc1 := by simp [updateState]
@[simp] theorem polMask_updateState (e : Ch) (x : Word) : (updateState s ch e x).polMask = s.polMask := by simp [updateState]
@[simp] theorem wet_updateState (e : Ch) (x : Word) : (updateState s ch e x).wet = s.wet := by simp [updateState]
@[simp] theorem dry_updateState (e : Ch) (x : Word) : (updateState s ch e x).dry = s.dry := by simp [updateState]
@[simp] theorem fb_updateState (e : Ch) (x : Word) : (updateState s ch e x).fb = s.fb := by simp [updateState]
@[simp] theorem pDryWet_updateState (e : Ch) (x : Word) : (updateState s ch e x).pDryWet = s.pDryWet := by simp [updateState]
@[simp] theorem pFeedback_updateState (e : Ch) (x : Word) : (updateState s ch e x).pFeedback = s.pFeedback := by simp [updateState]
@[simp] theorem pDepth_updateState (e : Ch) (x : Word) : (updateState s ch e x).pDepth = s.pDepth := by simp [updateState]
@[simp] theorem pChorusOfs_updateState (e : Ch) (x : Word) : (updateState s ch e x).pChorusOfs = s.pChorusOfs := by simp [updateState]
@[simp] theorem effect_updateState (e : Ch) (x : Word) : (updateState s ch e x).effect = s.effect := by simp [updateState]
@[simp] theorem delta_updateState (e : Ch) (x : Word) : (updateState s ch e x).delta = s.delta := by simp [updateState]
@[simp] theorem cmask_updateState (e : Ch) (x : Word) : (updateState s ch e x).cmask = s.cmask := by simp [updateState]
@[simp] theorem bypass_updateState (e : Ch) (x : Word) : (updateState s ch e x).bypass = s.bypass := by simp [updateState]
@[simp] theorem sticky_updateState (e : Ch) (x : Word) : (updateState s ch e x).sticky = s.sticky := by simp [updateState]
@[simp] theorem rsp_updateState (e : Ch) (x : Word) : (updateState s ch e x).rsp = s.rsp := by simp [updateState]
@[simp] theorem inputs_updateState (e : Ch) (x : Word) : (updateState s ch e x).inputs = s.inputs := by simp [updateState]
@[simp] theorem record_updateState (e : Ch) (x : Word) : (updateState s ch e x).record = s.record := by simp [updateState]
@[simp] theorem dl_advance (b : Ch) : (advance s ch).dl b = s.dl b := by simp [advance]
@[simp] theorem osc_placeRead (x y : Word) (b : Ch) : (placeRead s ch x y).osc b = s.osc b := by simp [placeRead]
@[simp] theorem osc_stepWrite (b : Ch) : (stepWrite s ch).osc b = s.osc b := by simp [stepWrite]
@[simp] theorem osc_bufWrite (x y : Word) (b : Ch) : (bufWrite s ch x y).osc b = s.osc b := by simp [bufWrite]
@[simp] theorem osc_updateState (e : Ch) (x : Word) (b : Ch) : (updateState s ch e x).osc b = s.osc b := by
  simp [updateState]

end Sys2Proof.Machine
end

