-- ==== Sys2Proof/Laws/Ops.lean ====
section
/-! SUPPORT. For each shared operation, what it can do, said once: the ends of a command, the clock edge, and the
operations over the oscillator and the delay line. -/

namespace Sys2Proof.Machine

/-! ## The ends of a command -/

@[simp] theorem respond_eq (code : RspCode) (v : Word) (s : State) : respond code v s = .next (commit code v s) := rfl
@[simp] theorem reject_eq (code : RspCode) (s : State) : reject code s = .next (commit code 0 s) := rfl

theorem sameBuf_of_eq {ch : Ch} {s t : State} (h : (t.dl ch).buf = (s.dl ch).buf) : sameBuf ch s t := by
  intro a; rw [h]

theorem sameDelay_of_eq {ch : Ch} {s t : State} (h : t.dl ch = s.dl ch) : sameDelay ch s t :=
  ⟨congrArg _ h, ⟨congrArg _ h, congrArg _ h⟩, sameBuf_of_eq (congrArg _ h)⟩

/-- A commit of the state before the command leaves the core as it was. -/
theorem sameCore_commit (code : RspCode) (v : Word) (s : State) : sameCore s (commit code v s) :=
  ⟨⟨rfl, rfl, rfl, rfl⟩, ⟨rfl, rfl, rfl, rfl, rfl⟩, fun b => osc_commit s code v b,
    fun b => sameDelay_of_eq (dl_commit s code v b),
    ⟨⟨rfl, rfl, rfl⟩, ⟨rfl, rfl, rfl, rfl⟩, ⟨rfl, rfl, rfl⟩, rfl⟩⟩

/-- What `reject` does (60_exceptions.md R151). -/
theorem rejectedWith_commit (code : RspCode) (s : State) : rejectedWith code s (commit code 0 s) :=
  ⟨⟨rfl, rfl⟩, sameCore_commit code 0 s⟩

/-- OK sets no STATUS bit and leaves the run's record alone. -/
@[simp] theorem or_stickyBit_ok (x : BitVec 5) : x ||| stickyBit .ok = x := by simp [stickyBit]
@[simp] theorem noteCode_ok (r : RunRecord) : noteCode r .ok = r := by
  obtain ⟨a, b⟩ := r; cases b <;> simp [noteCode, codeRejects]

/-! ## The ends of the commands that split a number -/

@[simp] theorem storeIncrement_none (freq : Word) (s : State) : storeIncrement freq s none = .next (commit .range 0 s) := rfl
@[simp] theorem storeIncrement_some (freq : Word) (s : State) (i f : Word) :
    storeIncrement freq s (some (i, f)) =
      .next (commit (rangeCode rateLo rateHi freq) 0 { s with incInt := i, incFrac := f, rate := freq }) := rfl
@[simp] theorem storeOffset_none (ch : Ch) (s : State) : storeOffset ch s none = .next (commit .range 0 s) := rfl
@[simp] theorem storeOffset_some (ch : Ch) (s : State) (d f : Word) :
    storeOffset ch s (some (d, f)) = .next (commit .ok 0 (placeRead s ch d f)) := rfl
@[simp] theorem updateModulated_none (ch : Ch) (xn : Word) (s : State) :
    updateModulated ch xn s none = .next (commit .range 0 s) := rfl
@[simp] theorem updateModulated_some (ch : Ch) (xn : Word) (s : State) (d f : Word) :
    updateModulated ch xn s (some (d, f)) =
      .next (commit .ok (crossfade (modulated s ch d f) xn (delayRead (modulated s ch d f) ch xn))
        (updateState (modulated s ch d f) ch ch
          (feedbackWord (modulated s ch d f) xn (delayRead (modulated s ch d f) ch xn)))) := rfl

/-! ## The clock edge -/

/-- A reset edge. -/
theorem clockEdge_reset {e : Edge} (h : e.rst = true) (s : State) : clockEdge e s = .next (applyReset s) := by
  simp [clockEdge, h]

/-- An edge while a response waits. -/
theorem clockEdge_pending {e : Edge} {s : State} {r : Response} (h : e.rst = false) (hr : s.rsp = some r) :
    clockEdge e s = .next (if e.rspReady then takeResponse s else s) := by
  simp [clockEdge, h, rspValid, hr]

/-- An edge at which nothing is offered. -/
theorem clockEdge_idle {e : Edge} {s : State} (h : e.rst = false) (hr : s.rsp = none) (hc : e.cmd = none) :
    clockEdge e s = .next s := by
  simp [clockEdge, h, rspValid, hr, hc]

/-- An edge at which a command is accepted. -/
theorem clockEdge_accept {e : Edge} {s : State} {c : Command} (h : e.rst = false) (hr : s.rsp = none)
    (hc : e.cmd = some c) : clockEdge e s = accept c s := by
  simp [clockEdge, h, rspValid, hr, hc]

/-- Everything a step can do. -/
theorem step_cases (s : State) :
    (s.inputs = [] ∧ step s = .next s) ∨
    ∃ e rest, s.inputs = e :: rest ∧
      ((e.rst = true ∧ step s = .next (applyReset { s with inputs := rest })) ∨
       (e.rst = false ∧ (∃ r, s.rsp = some r) ∧
          step s = .next (if e.rspReady then takeResponse { s with inputs := rest } else { s with inputs := rest })) ∨
       (e.rst = false ∧ s.rsp = none ∧ e.cmd = none ∧ step s = .next { s with inputs := rest }) ∨
       (e.rst = false ∧ s.rsp = none ∧ ∃ c, e.cmd = some c ∧
          ((∃ x, decode c = .error x ∧ step s = .next (commit .illegal 0 { s with inputs := rest })) ∨
           ∃ i, decode c = .ok i ∧ step s = exec i { s with inputs := rest }))) := by
  unfold step nextEdge
  cases hi : s.inputs with
  | nil => exact .inl ⟨rfl, rfl⟩
  | cons e rest =>
    refine .inr ⟨e, rest, rfl, ?_⟩
    dsimp only
    rcases hr : e.rst with _ | _
    · obtain hp | ⟨r, hp⟩ := Option.eq_none_or_eq_some s.rsp
      · obtain hc | ⟨c, hc⟩ := Option.eq_none_or_eq_some e.cmd
        · exact .inr (.inr (.inl ⟨rfl, hp, hc, clockEdge_idle hr hp hc⟩))
        · refine .inr (.inr (.inr ⟨rfl, hp, c, hc, ?_⟩))
          rw [clockEdge_accept (s := { s with inputs := rest }) hr hp hc]
          unfold accept
          cases hd : decode c with
          | error x => exact .inl ⟨x, rfl, rfl⟩
          | ok i => exact .inr ⟨i, rfl, rfl⟩
      · exact .inr (.inl ⟨rfl, ⟨r, hp⟩, clockEdge_pending (r := r) hr hp⟩)
    · exact .inl ⟨rfl, clockEdge_reset hr _⟩

/-! ## The oscillator -/

@[simp] theorem osc_advance (s : State) (ch : Ch) :
    (advance s ch).osc ch = advancedCursor s.build s.incInt s.incFrac (s.osc ch) := by simp [advance]
@[simp] theorem osc_advance_other (s : State) (ch : Ch) : (advance s ch).osc ch.other = s.osc ch.other := by
  simp [advance]

/-- The polarity-applied sample is the one of the two neighbouring table words, the second one wrapping (R97, R99). -/
theorem bipolarSample_eq {s : State} (h : s.build.sizesLegal = true) (ch : Ch) : bipolarSample s ch = tableSample s ch := by
  unfold bipolarSample polarity oscSample tableSample
  dsimp only
  rw [romRead_next h, romRead_eq h]

/-- An advance with a finite fraction sum, in integers (R101). -/
theorem advancesOsc_advance {s : State} (h : s.build.sizesLegal = true) {ch : Ch}
    (hf : f32IsFinite (fractionSum s ch) = true) : advancesOsc ch s (advance s ch) := by
  unfold advancesOsc
  rw [osc_advance]
  unfold advancedCursor carryOf
  simp only [fractionSum] at hf ⊢
  simp only [hf, if_true, f32Floor, and_true]
  apply toNat_and_maskN_of_int h
  rw [BitVec.toNat_add, BitVec.toNat_add, BitVec.toNat_ofInt, BitVec.toInt_eq_toNat_bmod]
  simp only [Int.bmod]
  split <;> omega

/-! ## The delay line -/

/-- What `placeRead` does to its channel. -/
@[simp] theorem dl_placeRead (s : State) (ch : Ch) (d f : Word) :
    (placeRead s ch d f).dl ch = { s.dl ch with rptr := ((s.dl ch).wptr - d) &&& maskL s.build, dfrac := f } := by
  simp [placeRead]
@[simp] theorem dl_placeRead_other (s : State) (ch : Ch) (d f : Word) :
    (placeRead s ch d f).dl ch.other = s.dl ch.other := by simp [placeRead]

/-- The delayed sample, in integers (R112). -/
theorem delayRead_eq {s : State} (h : s.build.sizesLegal = true) (ch : Ch) (xn : Word) :
    delayRead s ch xn = delayedSample s ch (s.dl ch).rptr (s.dl ch).dfrac xn := by
  have key : ∀ (w : Word) (z : Int), (w.toNat : Int) % 2 ^ 32 = z % 2 ^ 32 → bufRead s ch w = bufWord s ch z := by
    intro w z hz
    unfold bufRead bufWord
    rw [← toNat_and_maskL_of_int h w z hz, Int.toNat_natCast]
  unfold delayRead delayedSample
  dsimp only
  rw [key _ ((s.dl ch).rptr.toNat : Int) rfl, ← key ((s.dl ch).rptr - 1) (((s.dl ch).rptr.toNat : Int) - 1)
    (by rw [BitVec.toNat_sub]; simp; omega)]
  unfold bufRead
  rw [toNat_and_maskL h, toNat_and_maskL h, Nat.mod_mod, ← toNat_and_maskL h]

/-- The write cursor after an update (R113). -/
theorem toNat_wptr_succ {b : Build} (h : b.sizesLegal = true) (w : Word) :
    ((w + 1) &&& maskL b).toNat = (w.toNat + 1) % b.bufLen := by
  rw [toNat_and_maskL h, BitVec.toNat_add, Nat.mod_mod_of_dvd _ (bufLen_dvd h)]; rfl

/-- The placed read cursor, in integers (R111). -/
theorem readPlaced_placeRead {s : State} (h : s.build.sizesLegal = true) (ch : Ch) (d f : Word) :
    readPlaced ch d f s (placeRead s ch d f) := by
  unfold readPlaced
  rw [dl_placeRead]
  refine ⟨toNat_and_maskL_of_int h _ _ ?_, rfl⟩
  rw [BitVec.toNat_sub, BitVec.toInt_eq_toNat_bmod]
  simp only [Int.bmod]
  split <;> omega

/-- An update that writes its own channel. -/
theorem dl_updateState_own (s : State) (ch : Ch) (v : Word) :
    (updateState s ch ch v).dl ch =
      { s.dl ch with
        wptr := ((s.dl ch).wptr + 1) &&& maskL s.build,
        buf := (s.dl ch).buf.write (storeAddr s ch) v } := by
  simp [updateState, stepWrite, bufWrite, storeAddr]
theorem dl_updateState_own_other (s : State) (ch : Ch) (v : Word) :
    (updateState s ch ch v).dl ch.other = s.dl ch.other := by
  simp [updateState, stepWrite, bufWrite]

/-- An update that writes the other channel (41_delay_line.md R114). -/
theorem dl_updateState_cross (s : State) (ch : Ch) (v : Word) :
    (updateState s ch ch.other v).dl ch = { s.dl ch with wptr := ((s.dl ch).wptr + 1) &&& maskL s.build } := by
  cases ch <;> rfl
theorem dl_updateState_cross_other (s : State) (ch : Ch) (v : Word) :
    (updateState s ch ch.other v).dl ch.other =
      { s.dl ch.other with buf := (s.dl ch.other).buf.write (storeAddr s ch.other) v } := by
  cases ch <;> rfl

/-- `recompute_mix` makes the working coefficients those of the effect and the host parameters (10_state.md R37). -/
theorem mixConsistent_recomputeMix (s : State) : mixConsistent (recomputeMix s) := by
  unfold mixConsistent recomputeMix
  cases h : s.effect <;> simp [oneF, zeroF]

end Sys2Proof.Machine
end

