-- ==== Sys2Proof/Laws/PerInstr.lean ====
section
/-! SUPPORT. The family EncodedWordIsLegal: the command word an instruction is encoded as matches a row of the opcode
map (30_encoding.md R80), one lemma for each constructor. -/

namespace Sys2Proof.Laws.EncodedWordIsLegal

/-- The encoded word of the instruction is a legal command. -/
def Statement (i : Instr) : Prop := (encode i).wellFormed = true

/-- Legality is a matter of the CTRL word alone. -/
theorem legal_of_ctrl {ctrl d0 d1 : Word} (h : opcodeRows.any (fun r => r.matchesWord ctrl) = true) :
    Command.wellFormed ⟨ctrl, d0, d1⟩ = true := h

theorem nop : Statement .nop := legal_of_ctrl (by decide)
theorem oscFreq (freq : Word) : Statement (.oscFreq freq) := legal_of_ctrl (by decide)
theorem oscWave (sel : Word) : Statement (.oscWave sel) := legal_of_ctrl (by decide)
theorem oscGen (ch : Ch) : Statement (.oscGen ch) := legal_of_ctrl (by cases ch <;> decide)
theorem oscGenu (ch : Ch) : Statement (.oscGenu ch) := legal_of_ctrl (by cases ch <;> decide)
theorem oscQuad : Statement .oscQuad := legal_of_ctrl (by decide)
theorem oscUnison : Statement .oscUnison := legal_of_ctrl (by decide)
theorem oscInv : Statement .oscInv := legal_of_ctrl (by decide)
theorem dlOfs (ch : Ch) (ms : Word) : Statement (.dlOfs ch ms) :=
  legal_of_ctrl (by cases ch <;> decide)
theorem dlUpd (ch : Ch) (xn : Word) : Statement (.dlUpd ch xn) :=
  legal_of_ctrl (by cases ch <;> decide)
theorem dlUpdx (ch : Ch) (xn : Word) : Statement (.dlUpdx ch xn) :=
  legal_of_ctrl (by cases ch <;> decide)
theorem dlUpde (ch : Ch) (xn ext : Word) : Statement (.dlUpde ch xn ext) :=
  legal_of_ctrl (by cases ch <;> decide)
theorem dlDrywet (w : Word) : Statement (.dlDrywet w) := legal_of_ctrl (by decide)
theorem dlFlush : Statement .dlFlush := legal_of_ctrl (by decide)
theorem modUpdate (ch : Ch) (xn : Word) : Statement (.modUpdate ch xn) :=
  legal_of_ctrl (by cases ch <;> decide)
theorem setDepth (v : Word) : Statement (.setDepth v) := legal_of_ctrl (by decide)
theorem setFeedback (v : Word) : Statement (.setFeedback v) := legal_of_ctrl (by decide)
theorem setChorusOfs (v : Word) : Statement (.setChorusOfs v) := legal_of_ctrl (by decide)
theorem setEffect (e : Word) : Statement (.setEffect e) := legal_of_ctrl (by decide)
theorem setBypass (b : Word) : Statement (.setBypass b) := legal_of_ctrl (by decide)
theorem config (fs mb : Word) : Statement (.config fs mb) := legal_of_ctrl (by decide)
theorem readReg (r : Word) : Statement (.readReg r) := legal_of_ctrl (by decide)
theorem readBuf (ch : Ch) (a : Word) : Statement (.readBuf ch a) :=
  legal_of_ctrl (by cases ch <;> decide)
theorem readRom (w i : Word) : Statement (.readRom w i) := legal_of_ctrl (by decide)
theorem clrStatus (m : Word) : Statement (.clrStatus m) := legal_of_ctrl (by decide)

end Sys2Proof.Laws.EncodedWordIsLegal
end

