-- ==== Sys2Proof/Laws/Range.lean ====
section
/-! SUPPORT. The unipolar range (40_oscillator.md R108, 93_implementation_defined.md I8), checked and not assumed: the
three rounded operations of `lerp` never leave `[−1, 1]`, and every word a legal ROM answers lies there. -/

namespace Sys2Proof.Machine

/-! ## Sums and products of finite values -/

theorem f32IsNaN_eq_false_of_finite {x : Word} (h : f32IsFinite x = true) : f32IsNaN x = false := by
  simp only [f32IsFinite, f32IsNaN, decide_eq_true_eq, decide_eq_false_iff_not] at *; omega

theorem f32IsInf_eq_false_of_finite {x : Word} (h : f32IsFinite x = true) : f32IsInf x = false := by
  simp only [f32IsFinite, f32IsInf, decide_eq_true_eq, decide_eq_false_iff_not] at *; omega

theorem f32Int_roundInt_zero : f32Int (f32RoundInt 0) = 0 := f32Int_roundInt_exact (m := 0) (Nat.zero_le _) rfl

theorem f32Int_pack_zero (neg : Bool) : f32Int (f32Pack neg 0) = 0 := by cases neg <;> rfl

theorem f32IsNaN_pack (neg : Bool) {m : Nat} (h : m ≤ f32InfMag) : f32IsNaN (f32Pack neg m) = false := by
  unfold f32IsNaN; rw [f32Mag_pack _ (Nat.lt_of_le_of_lt h f32InfMag_lt)]
  simpa using h

/-- The value of a sum of finite values is the exact sum rounded. -/
theorem f32Int_add {a b : Word} (ha : f32IsFinite a = true) (hb : f32IsFinite b = true) :
    f32Int (f32Add a b) = f32Int (f32RoundInt (f32Int a + f32Int b)) := by
  unfold f32Add
  simp only [f32IsNaN_eq_false_of_finite, f32IsInf_eq_false_of_finite, ha, hb, Bool.or_self, Bool.false_eq_true, if_false]
  split
  · next h => rw [h, f32Int_pack_zero, f32Int_roundInt_zero]
  · rfl

/-- A sum of finite values is no NaN. -/
theorem f32IsNaN_add {a b : Word} (ha : f32IsFinite a = true) (hb : f32IsFinite b = true) :
    f32IsNaN (f32Add a b) = false := by
  unfold f32Add
  simp only [f32IsNaN_eq_false_of_finite, f32IsInf_eq_false_of_finite, ha, hb, Bool.or_self, Bool.false_eq_true, if_false]
  split
  · exact f32IsNaN_pack _ (Nat.zero_le _)
  · exact f32IsNaN_pack _ (f32RoundMag_le_inf _ _)

theorem f32Mag_neg (x : Word) : f32Mag (f32Neg x) = f32Mag x := by
  have h : (f32Neg x).setWidth 31 = x.setWidth 31 := by
    unfold f32Neg
    rw [BitVec.setWidth_xor, show (0x80000000 : Word).setWidth 31 = 0#31 by decide, BitVec.xor_zero]
  have := congrArg BitVec.toNat h
  rwa [BitVec.toNat_setWidth, BitVec.toNat_setWidth] at this

theorem f32Sign_neg (x : Word) : f32Sign (f32Neg x) = !f32Sign x := by
  unfold f32Sign f32Neg
  rw [BitVec.msb_xor, show (0x80000000 : Word).msb = true by decide, Bool.xor_true]

theorem f32Int_neg (x : Word) : f32Int (f32Neg x) = -f32Int x := by
  unfold f32Int f32Units
  rw [f32Mag_neg, f32Sign_neg]
  cases f32Sign x <;> simp

theorem f32IsFinite_neg {x : Word} (h : f32IsFinite x = true) : f32IsFinite (f32Neg x) = true := by
  unfold f32IsFinite at *; rwa [f32Mag_neg]

theorem natAbs_f32Int (x : Word) : (f32Int x).natAbs = f32Units x := by unfold f32Int; split <;> omega

theorem f32Int_nonneg_or (x : Word) : 0 ≤ f32Int x ∧ f32Int x = f32Units x ∨ f32Int x ≤ 0 ∧ f32Int x = -(f32Units x : Int) := by
  unfold f32Int; split <;> omega

/-- A product with a factor of magnitude at most one lies between zero and the other factor. -/
theorem f32Int_mul_between {f d : Word} (hf : f32IsFinite f = true) (hd : f32IsFinite d = true) (h0 : 0 ≤ f32Int f)
    (h1 : f32Int f ≤ 2 ^ 149) :
    f32IsFinite (f32Mul f d) = true ∧ min 0 (f32Int d) ≤ f32Int (f32Mul f d) ∧ f32Int (f32Mul f d) ≤ max 0 (f32Int d) := by
  have huf : f32Units f ≤ 2 ^ 149 := by have := natAbs_f32Int f; omega
  have hm : f32RoundMag (f32Units f * f32Units d) (2 ^ 149) ≤ f32Mag d := by
    have e : f32RoundMag (2 ^ 149 * f32Units d) (2 ^ 149) = f32Mag d :=
      f32RoundMag_exact (Nat.two_pow_pos _) (by simp only [f32IsFinite, decide_eq_true_eq] at hd; omega)
    rw [← e]
    exact f32RoundMag_mono (Nat.two_pow_pos _) (Nat.two_pow_pos _)
      (Nat.mul_le_mul_right _ (Nat.mul_le_mul_right _ huf))
  have hlt : f32Mag d < f32InfMag := by simpa [f32IsFinite] using hd
  unfold f32Mul
  simp only [f32IsNaN_eq_false_of_finite, f32IsInf_eq_false_of_finite, hf, hd, Bool.or_self, Bool.false_eq_true, if_false]
  set m := f32RoundMag (f32Units f * f32Units d) (2 ^ 149) with hmdef
  have hmi : m < 2 ^ 31 := by have := f32InfMag_lt; omega
  refine ⟨?_, ?_⟩
  · unfold f32IsFinite; rw [f32Mag_pack _ hmi]; simp; omega
  rw [f32Int_pack _ hmi]
  have hle : f32MagUnits m ≤ f32Units d := f32MagUnits_le_iff.2 hm
  -- a negative zero factor gives a zero product, whatever its sign
  by_cases hz : f32Units f = 0
  · have : m = 0 := by
      rw [hmdef, hz, Nat.zero_mul]
      have := f32RoundMag_exact (m := 0) (den := 2 ^ 149) (Nat.two_pow_pos _) (Nat.zero_le _)
      simpa using this
    rw [this]
    simp
  · have hsf : f32Sign f = false := by
      by_contra h
      have : f32Int f = -(f32Units f : Int) := by unfold f32Int; simp at h; simp [h]
      omega
    rw [hsf]
    unfold f32Int
    cases f32Sign d <;> simp <;> omega

/-! ## Rounding inside two -/

/-- Below 2 the rounding error is at most half a step of `[1, 2)`, 2^-24 of one. -/
theorem abs_f32Int_roundInt_sub_le {z : Int} (h : |z| ≤ 2 ^ 150) : |f32Int (f32RoundInt z) - z| ≤ 2 ^ 125 := by
  rcases eq_or_lt_of_le h with h | h
  · have e : z.natAbs = f32MagUnits 0x40000000 := by
      rw [show f32MagUnits 0x40000000 = 2 ^ 150 by decide]; cases abs_cases z <;> omega
    rw [f32Int_roundInt_exact (by decide) e]; simp
  · have hz : z.natAbs < 2 ^ 150 := by rw [abs_lt] at h; omega
    have ht : roundBinade z.natAbs 1 ≤ 126 := by
      unfold roundBinade
      rw [Nat.div_one]
      by_cases h0 : z.natAbs = 0
      · rw [h0]; decide
      · have := (Nat.log2_lt h0).2 hz; omega
    have hr := isRoundHalfEven_roundHalfEven z.natAbs (den := 1 * 2 ^ roundBinade z.natAbs 1) (by simp)
    have hcode := f32MagUnits_roundCode z.natAbs (den := 1) (by omega)
    set t := roundBinade z.natAbs 1 with htd
    have h2 : 2 ^ t ≤ 2 ^ 126 := Nat.pow_le_pow_right (by omega) ht
    have hlow := hr.low
    have hhigh := hr.high
    change 2 * (1 * 2 ^ t) * roundSignificand z.natAbs 1 ≤ _ at hlow
    change _ ≤ 2 * (1 * 2 ^ t) * roundSignificand z.natAbs 1 + _ at hhigh
    have e : 2 * (1 * 2 ^ t) * roundSignificand z.natAbs 1 = 2 * f32MagUnits (roundCode z.natAbs 1) := by rw [hcode]; ring
    rw [e] at hlow hhigh
    have hc : roundCode z.natAbs 1 ≤ f32InfMag := by
      rw [← f32MagUnits_le_iff]
      have : 2 ^ 152 ≤ f32MagUnits f32InfMag := by decide +kernel
      omega
    have em : f32RoundMag z.natAbs 1 = roundCode z.natAbs 1 := by rw [f32RoundMag_eq_min]; exact min_eq_right hc
    unfold f32RoundInt
    rw [em, f32Int_pack _ (Nat.lt_of_le_of_lt hc f32InfMag_lt), abs_le]
    by_cases hn : z < 0 <;> simp only [hn, decide_true, decide_false, if_true, Bool.false_eq_true, if_false] <;> omega

/-- What rounds from at most 2^-24 beyond 1 is at most 1: the tie goes to the even 1. -/
theorem abs_f32Int_roundInt_le_one {z : Int} (h : |z| ≤ 2 ^ 149 + 2 ^ 125) : |f32Int (f32RoundInt z)| ≤ 2 ^ 149 := by
  have hp : f32Int (f32RoundInt (2 ^ 149 + 2 ^ 125)) = 2 ^ 149 := by decide +kernel
  have hn : f32Int (f32RoundInt (-(2 ^ 149 + 2 ^ 125))) = -2 ^ 149 := by decide +kernel
  rw [abs_le] at *
  have h1 := f32Int_roundInt_mono h.1
  have h2 := f32Int_roundInt_mono h.2
  omega

/-! ## The range of `lerp` -/

/-- A value in `[−1, 1]` is finite, and its number of units is at most that of 1. -/
theorem bipolar_iff (x : Word) : bipolar x ↔ f32IsNaN x = false ∧ |f32Int x| ≤ 2 ^ 149 := by
  unfold bipolar
  have h1 : f32Int 0x3F800000 = 2 ^ 149 := by decide +kernel
  have h2 : f32Int 0xBF800000 = -2 ^ 149 := by decide +kernel
  have h3 : f32IsNaN 0x3F800000 = false := by decide +kernel
  have h4 : f32IsNaN 0xBF800000 = false := by decide +kernel
  simp only [f32Le, h1, h2, h3, h4, abs_le, Bool.and_eq_true, Bool.not_eq_true', decide_eq_true_eq]
  tauto

/-- A value in `[0, 1]` is finite, and its number of units is at most that of 1. -/
theorem atMostOne_iff (x : Word) : atMostOne x ↔ f32IsNaN x = false ∧ 0 ≤ f32Int x ∧ f32Int x ≤ 2 ^ 149 := by
  have h1 : f32Int oneF = 2 ^ 149 := by decide +kernel
  have h2 : f32Int zeroF = 0 := by decide +kernel
  have h3 : f32IsNaN oneF = false := by decide +kernel
  have h4 : f32IsNaN zeroF = false := by decide +kernel
  simp only [atMostOne, f32Le, h1, h2, h3, h4, Bool.and_eq_true, Bool.not_eq_true', decide_eq_true_eq]
  tauto

theorem f32IsFinite_of_abs_le {x : Word} (h : |f32Int x| ≤ 2 ^ 150) : f32IsFinite x = true := by
  unfold f32IsFinite
  rw [decide_eq_true_eq, ← f32MagUnits_lt_iff]
  have h1 : 2 ^ 152 ≤ f32MagUnits f32InfMag := by decide +kernel
  have h2 := natAbs_f32Int x
  have h3 := abs_le.1 h
  change f32Units x < _
  omega

/-- R108: with both table words in `[−1, 1]` and the fraction in `[0, 1]`, the three rounded operations of `lerp` stay in
`[−1, 1]`. The difference is off by 2^-24 at most, and the last rounding takes that back. -/
theorem f32Lerp_bipolar {a b f : Word} (ha : bipolar a) (hb : bipolar b) (hf : atMostOne f) : bipolar (f32Lerp a b f) := by
  rw [bipolar_iff] at ha hb ⊢
  obtain ⟨-, hf0, hf1⟩ := (atMostOne_iff f).1 hf
  have ha' := abs_le.1 ha.2
  have hb' := abs_le.1 hb.2
  have finA := f32IsFinite_of_abs_le (x := a) (by omega)
  have finB := f32IsFinite_of_abs_le (x := b) (by omega)
  have finF := f32IsFinite_of_abs_le (x := f) (by rw [abs_le]; omega)
  set z := f32Int b + f32Int (f32Neg a) with hz
  rw [f32Int_neg] at hz
  have hz2 : |z| ≤ 2 ^ 150 := by rw [abs_le]; omega
  have hd : f32Int (f32Sub b a) = f32Int (f32RoundInt z) := f32Int_add finB (f32IsFinite_neg finA)
  have herr := abs_le.1 (abs_f32Int_roundInt_sub_le hz2)
  have hdAbs : |f32Int (f32Sub b a)| ≤ 2 ^ 150 := by
    have h1 := f32Int_roundInt_mono (abs_le.1 hz2).1
    have h2 := f32Int_roundInt_mono (abs_le.1 hz2).2
    have e1 : f32Int (f32RoundInt (-2 ^ 150)) = -2 ^ 150 := by decide +kernel
    have e2 : f32Int (f32RoundInt (2 ^ 150)) = 2 ^ 150 := by decide +kernel
    rw [hd, abs_le]; omega
  have finD := f32IsFinite_of_abs_le hdAbs
  obtain ⟨finP, hp1, hp2⟩ := f32Int_mul_between finF finD hf0 hf1
  unfold f32Lerp
  refine ⟨f32IsNaN_add finA finP, ?_⟩
  rw [f32Int_add finA finP]
  apply abs_f32Int_roundInt_le_one
  rw [abs_le]
  rw [hd] at hp1 hp2
  omega

/-! ## The words of a legal ROM -/

/-- A legal ROM word lies in `[−1, 1]` (10_state.md R28). -/
theorem bipolar_of_romWordLegal {w : Word} (h : romWordLegal w = true) : bipolar w := by
  have hm : f32Mag w ≤ 0x3F800000 := by
    unfold romWordLegal at h
    rw [decide_eq_true_eq, BitVec.toNat_and, show (0x7FFFFFFF : Word).toNat = 2 ^ 31 - 1 from rfl, Nat.and_two_pow_sub_one_eq_mod] at h
    exact h
  rw [bipolar_iff]
  refine ⟨decide_eq_false (by unfold f32InfMag; omega), ?_⟩
  have h1 : f32Units w ≤ f32MagUnits 0x3F800000 := f32MagUnits_le_iff.2 hm
  have h2 : f32MagUnits 0x3F800000 = 2 ^ 149 := by decide +kernel
  have := natAbs_f32Int w
  rw [abs_le]; omega

/-- Every word that a read of a legal ROM answers lies in `[−1, 1]` (10_state.md R28). -/
theorem tableWord_bipolar {b : Build} (h : b.wellFormed = true) (w n : Nat) :
    bipolar (tableWord b w n) := by
  apply bipolar_of_romWordLegal
  simp only [Build.wellFormed, RomImage.wellFormed, tableLegal, Bool.and_eq_true, beq_iff_eq, List.all_eq_true] at h
  obtain ⟨-, ⟨⟨⟨-, h0⟩, -, h1⟩, -, h2⟩, -, h3⟩ := h
  have key : ∀ l : List Word, (∀ x ∈ l, romWordLegal x = true) → romWordLegal (l.getD (n % b.tableLen) 0) = true := by
    intro l hl
    rw [List.getD_eq_getElem?_getD]
    cases e : l[n % b.tableLen]? with
    | none => decide
    | some x => exact hl x (List.mem_of_getElem? e)
  unfold tableWord romTable
  split <;> exact key _ (by assumption)

end Sys2Proof.Machine
end

