-- ==== Sys2Proof/Machine/Assembler.lean ====
section
/-! DEFINITION. What the assembler notation stands for (30_encoding.md R93 to R95): the mnemonic text of each command, the
named operand values, the decimal literals, and the pseudo-instructions as the commands they expand to. The notation has
no meaning of its own (R78), and parsing and printing its text is left out (log entry 17). -/

namespace Sys2Proof.Machine

/-- The mnemonic text of a command (R93). -/
def asmMnemonic : Instr → String
  | .nop => "nop"
  | .oscFreq _ => "osc.freq"
  | .oscWave _ => "osc.wave"
  | .oscGen _ => "osc.gen"
  | .oscGenu _ => "osc.genu"
  | .oscQuad => "osc.quad"
  | .oscUnison => "osc.unison"
  | .oscInv => "osc.inv"
  | .dlOfs _ _ => "dl.ofs"
  | .dlUpd _ _ => "dl.upd"
  | .dlUpdx _ _ => "dl.updx"
  | .dlUpde _ _ _ => "dl.upde"
  | .dlDrywet _ => "dl.drywet"
  | .dlFlush => "dl.flush"
  | .modUpdate _ _ => "mod.update"
  | .setDepth _ => "set.depth"
  | .setFeedback _ => "set.fb"
  | .setChorusOfs _ => "set.chorus"
  | .setEffect _ => "set.effect"
  | .setBypass _ => "set.bypass"
  | .config _ _ => "cfg"
  | .readReg _ => "rd.reg"
  | .readBuf _ _ => "rd.buf"
  | .readRom _ _ => "rd.rom"
  | .clrStatus _ => "clr.status"

/-- The word of the decimal literal `n / d`, the nearest binary32 with ties to even (R94). -/
def literalWord (n : Int) (d : Nat) : Word := f32OfRatio n d

/-- The names a `u` operand may be written by (R94): a waveform or an effect stands for its number. -/
def waveformName (w : Waveform) : Word := BitVec.ofNat 32 (waveformNum w)
def effectName (e : Effect) : Word := BitVec.ofNat 32 (effectNum e)

/-- The pseudo-instructions (R95). -/
inductive Pseudo where
  | setRate (f : Word)
  | setWave (u : Word)
  | setDrywet (f : Word)
  | oscPhaseQuad
  | oscPhaseUnison
  | sample (f0 f1 : Word)
  | reactivate
  | clrAll
deriving DecidableEq, Repr

/-- The commands a pseudo-instruction expands to (R95). -/
def Pseudo.expand : Pseudo → List Instr
  | .setRate f => [.oscFreq f]
  | .setWave u => [.oscWave u]
  | .setDrywet f => [.dlDrywet f]
  | .oscPhaseQuad => [.oscQuad]
  | .oscPhaseUnison => [.oscUnison]
  | .sample f0 f1 => [.modUpdate .primary f0, .modUpdate .quadrature f1]
  | .reactivate => [.dlFlush]
  | .clrAll => [.clrStatus 0x1F]

end Sys2Proof.Machine
end

