-- ==== Sys2Proof/Tests/Slice0.lean ====
section
/-! SUPPORT. The tests: ill-formed terms refused, every command's word decoded, one small test or two for each command from
spec/95_test_vectors.md (its row is named in each comment), and for every obligation with hypotheses a witness that meets
them. Expected values are the spec's, or computed by hand from its rules. -/

namespace Sys2Proof.Tests

-- one theorem after another: each thread of the compiler reserves a large stack
set_option Elab.async false

open Sys2Proof Sys2Proof.Machine

/-! ## Helpers -/

/-- The state after a command, or the state itself if there is none. -/
def after (i : Instr) (s : State) : State :=
  match exec i s with
  | .next t => t
  | .fault _ => s
  | .refused _ => s

/-- What a command answers: the code's number and the data. -/
def answer (i : Instr) (s : State) : Option (Nat × Word) :=
  (after i s).rsp.map (fun r => ((rspCodeBits r.code).toNat, r.data))

/-- The state an outcome goes on in, if it does. -/
def nextOf : Result → Option State
  | .next t => some t
  | .fault _ => none
  | .refused _ => none

/-- A ROM of four words a table, R29 for N = 4 worked by hand. -/
def tinyRom : RomImage where
  sine := [0x00000000, 0x3F800000, 0x00000000, 0xBF800000]
  sawtooth := [0xBF800000, 0xBF000000, 0x00000000, 0x3F000000]
  triangle := [0xBF800000, 0x00000000, 0x3F800000, 0x00000000]
  square := [0x3F800000, 0x3F800000, 0xBF800000, 0xBF800000]

/-- The smallest table with the reference buffer length. -/
def tinyBuild : Build := ⟨2, 17, .closed, tinyRom⟩

/-- Reset of the small build. -/
def fresh : State := State.resetOf tinyBuild

/-- The small build configured at 1000 Hz, one sample a millisecond. -/
def ready : State := { fresh with fs := 0x447A0000, cfgValid := true }

/-- The reference build at 1024 Hz on the sawtooth, the setting of 95_test_vectors.md section 2.1. -/
def sawState : State := { State.reset with fs := 0x44800000, cfgValid := true, waveSel := .sawtooth }

/-- The half mix of 95_test_vectors.md section 2.2. -/
def halfMix (s : State) (fb : Word) : State := { s with dry := 0x3F000000, wet := 0x3F000000, fb := fb }

/-! ## WellFormed refuses ill-formed terms -/

/-- R83: bit 9 of CTRL. -/
theorem test_wf_refuses_reserved_bit : Command.wellFormed ⟨0x00000210, 0x3F800000, 0⟩ = false := by decide
/-- R85. -/
theorem test_wf_refuses_unassigned_opcode : Command.wellFormed ⟨0x00000017, 0, 0⟩ = false := by decide
/-- R84: OSC_QUAD with CH = 1. -/
theorem test_wf_refuses_stray_channel : Command.wellFormed ⟨0x00000114, 0, 0⟩ = false := by decide
theorem test_wf_accepts_legal_command : Command.wellFormed ⟨0x00000130, 0x3F800000, 0⟩ = true := by decide
/-- R5: LOG2_N is 2 to 16, LOG2_L is 1 to 24. -/
theorem test_wf_refuses_short_table : Build.wellFormed { tinyBuild with log2N := 1 } = false := by decide
theorem test_wf_refuses_long_table : Build.sizesLegal { tinyBuild with log2N := 17 } = false := by decide
theorem test_wf_refuses_empty_buffer : Build.wellFormed { tinyBuild with log2L := 0 } = false := by decide
theorem test_wf_refuses_long_buffer : Build.wellFormed { tinyBuild with log2L := 25 } = false := by decide
/-- R5: NUM_HARMONICS is at least 1. -/
theorem test_wf_refuses_no_harmonics : Build.wellFormed { tinyBuild with mode := .additive 0 } = false := by decide
/-- R28: a table has N words, each finite and in [−1, +1]. -/
theorem test_wf_refuses_table_length :
    Build.wellFormed { tinyBuild with rom := { tinyRom with sine := [0, 0, 0] } } = false := by decide
theorem test_wf_refuses_big_rom_word :
    Build.wellFormed { tinyBuild with rom := { tinyRom with square := [0, 0x3F800001, 0, 0] } } = false := by decide
theorem test_wf_refuses_nan_rom_word :
    Build.wellFormed { tinyBuild with rom := { tinyRom with sawtooth := [0, 0, 0xFFC00000, 0] } } = false := by decide
theorem test_wf_refuses_infinite_rom_word :
    Build.wellFormed { tinyBuild with rom := { tinyRom with triangle := [0x7F800000, 0, 0, 0] } } = false := by decide
theorem test_wf_accepts_tiny_build : tinyBuild.wellFormed = true := by decide

/-! ## Decoding: each command's word as R75, R77 and R80 write it -/

theorem test_decode_nop : decode ⟨0x00000000, 0x00000000, 0x00000000⟩ = .ok .nop := by decide
theorem test_decode_oscFreq : decode ⟨0x00000010, 0x40200000, 0⟩ = .ok (.oscFreq 0x40200000) := by decide
theorem test_decode_oscWave : decode ⟨0x00000011, 0x00000007, 0⟩ = .ok (.oscWave 7) := by decide
theorem test_decode_oscGen : decode ⟨0x00000112, 0, 0⟩ = .ok (.oscGen .quadrature) := by decide
theorem test_decode_oscGenu : decode ⟨0x00000013, 0, 0⟩ = .ok (.oscGenu .primary) := by decide
theorem test_decode_oscQuad : decode ⟨0x00000014, 0, 0⟩ = .ok .oscQuad := by decide
theorem test_decode_oscUnison : decode ⟨0x00000015, 0, 0⟩ = .ok .oscUnison := by decide
theorem test_decode_oscInv : decode ⟨0x00000016, 0, 0⟩ = .ok .oscInv := by decide
theorem test_decode_dlOfs : decode ⟨0x00000020, 0x40400000, 0⟩ = .ok (.dlOfs .primary 0x40400000) := by decide
theorem test_decode_dlUpd : decode ⟨0x00000121, 0x3F800000, 0⟩ = .ok (.dlUpd .quadrature 0x3F800000) := by decide
theorem test_decode_dlUpdx : decode ⟨0x00000022, 0x3F800000, 0⟩ = .ok (.dlUpdx .primary 0x3F800000) := by decide
theorem test_decode_dlUpde :
    decode ⟨0x00000023, 0x3F000000, 0x40000000⟩ = .ok (.dlUpde .primary 0x3F000000 0x40000000) := by decide
theorem test_decode_dlDrywet : decode ⟨0x00000024, 0x3F000000, 0⟩ = .ok (.dlDrywet 0x3F000000) := by decide
theorem test_decode_dlFlush : decode ⟨0x00000025, 0, 0⟩ = .ok .dlFlush := by decide
theorem test_decode_modUpdate : decode ⟨0x00000130, 0x3F800000, 0⟩ = .ok (.modUpdate .quadrature 0x3F800000) := by
  decide
theorem test_decode_setDepth : decode ⟨0x00000031, 0x40000000, 0⟩ = .ok (.setDepth 0x40000000) := by decide
theorem test_decode_setFeedback : decode ⟨0x00000032, 0x3F733333, 0⟩ = .ok (.setFeedback 0x3F733333) := by decide
theorem test_decode_setChorusOfs : decode ⟨0x00000033, 0x40A00000, 0⟩ = .ok (.setChorusOfs 0x40A00000) := by decide
theorem test_decode_setEffect : decode ⟨0x00000034, 0x00000003, 0⟩ = .ok (.setEffect 3) := by decide
theorem test_decode_setBypass : decode ⟨0x00000035, 0x00000001, 0⟩ = .ok (.setBypass 1) := by decide
theorem test_decode_config : decode ⟨0x00000040, 0x472C4400, 0x00000200⟩ = .ok (.config 0x472C4400 0x200) := by decide
theorem test_decode_readReg : decode ⟨0x00000041, 0x00000013, 0⟩ = .ok (.readReg 0x13) := by decide
theorem test_decode_readBuf : decode ⟨0x00000142, 0x0000004D, 0⟩ = .ok (.readBuf .quadrature 77) := by decide
theorem test_decode_readRom : decode ⟨0x00000043, 0x00000001, 0x00000101⟩ = .ok (.readRom 1 257) := by decide
theorem test_decode_clrStatus : decode ⟨0x00000044, 0x0000001F, 0⟩ = .ok (.clrStatus 0x1F) := by decide

/-- V-S14 to V-S17: every unassigned block's ends, and the two other grounds. -/
theorem test_decode_illegal_opcodes :
    ([0x01, 0x0F, 0x17, 0x1F, 0x26, 0x2F, 0x36, 0x3F, 0x45, 0xFF].map (fun w => decode ⟨w, 0, 0⟩)) =
      List.replicate 10 (.error .unassignedOpcode) := by decide
theorem test_decode_illegal_channel : decode ⟨0x00000114, 0, 0⟩ = .error .strayChannel := by decide
theorem test_decode_illegal_reserved :
    ([0x00000210, 0x80000000, 0x00000317].map (fun w => decode ⟨w, 0x3F800000, 0⟩)) =
      List.replicate 3 (.error .reservedBit) := by decide

/-- The bits of a whole command: CTRL lowest, then DATA0, then DATA1. -/
theorem test_table_word_places : decodeTableWord 96 (0x40000000_3F000000_00000123) =
    some (.dlUpde .quadrature 0x3F000000 0x40000000) := by decide
theorem test_table_word_short : decodeTableWord 32 0x00000044 = some (.clrStatus 0) := by decide

/-! ## Arithmetic (00_scope.md R10, R11, R17 to R19) -/

/-- 0.3 + 0.3, 1 − 0.3, 0.5 · 7 + 0.01, 1000 · 3.51: V-D10, V-M1. -/
theorem test_f32_basic :
    f32Sub 0x3F800000 0x3E99999A = 0x3F333333 ∧ f32Add (f32Mul 0x3F000000 0x40E00000) 0x3C23D70A = 0x4060A3D7 ∧
    f32Div 0x3F800000 0x40400000 = 0x3EAAAAAB ∧ f32Div 0xBF800000 0 = 0xFF800000 := by decide +kernel
/-- A tie goes to the even neighbour: 1 + 2^-24 is 1, (1 + 2^-23) + 2^-24 is 1 + 2^-22. -/
theorem test_f32_ties :
    f32Add 0x3F800000 0x33800000 = 0x3F800000 ∧ f32Add 0x3F800001 0x33800000 = 0x3F800002 := by decide +kernel
/-- Subnormals are kept, overflow is an infinity, and a NaN result is canonical whatever the payload. -/
theorem test_f32_corners :
    f32Mul 0x00000001 0x40000000 = 0x00000002 ∧ f32Mul 0x7F7FFFFF 0x40000000 = 0x7F800000 ∧
    f32Sub 0x7F800000 0x7F800000 = 0x7FC00000 ∧ f32Add 0xFF800001 0x3F800000 = 0x7FC00000 ∧
    f32Add 0x80000000 0x80000000 = 0x80000000 ∧ f32Sub 0x3F800000 0x3F800000 = 0 := by decide +kernel
/-- R11: floor toward −∞, the fraction of a tiny negative value rounded to 1.0, and the s32 bounds. -/
theorem test_split :
    f32Split 0xC0200000 = some (0xFFFFFFFD, 0x3F000000) ∧ f32Split 0x80000001 = some (0xFFFFFFFF, 0x3F800000) ∧
    f32Split 0xCF000000 = some (0x80000000, 0) ∧ f32Split 0x4F000000 = none ∧ f32Split 0x7FC00000 = none := by
  decide +kernel
/-- R155: a NaN is out of range, −0.0 is not. -/
theorem test_range_of_nan : inRange 0 0x3F800000 0x7FC00000 = false ∧ inRange 0 0x3F800000 0x80000000 = true := by
  decide +kernel

/-! ## The ROM (10_state.md R29, V-O20, V-S12) -/

theorem test_rom_tiny_is_closed : closedRom 4 = tinyRom := by decide +kernel
theorem test_rom_sine_reference :
    closedSine 1024 256 = 0x3F800000 ∧ closedSine 1024 1 = 0x3BC90F88 ∧ closedSine 1024 0 = 0 ∧
    closedSine 1024 512 = 0 := by decide +kernel
theorem test_rom_other_reference :
    closedTriangle 1024 0 = 0xBF800000 ∧ closedTriangle 1024 256 = 0 ∧ closedTriangle 1024 512 = 0x3F800000 ∧
    closedSawtooth 1024 0 = 0xBF800000 ∧ closedSquare 1024 512 = 0xBF800000 := by decide +kernel
/-- R30 for one harmonic: every table is the sine, scaled to unit peak. -/
theorem test_rom_additive_one : additiveRom 4 1 = ⟨tinyRom.sine, tinyRom.sine, tinyRom.sine, tinyRom.sine⟩ := by
  decide +kernel

/-! ## System commands -/

/-- V-S1. -/
theorem test_nop : after .nop fresh = { fresh with rsp := some ⟨.ok, 0⟩ } := by decide +kernel
/-- V-S2. -/
theorem test_config_ok :
    answer (.config 0x472C4400 0x200) fresh = some (0, 0) ∧
    (after (.config 0x472C4400 0x200) fresh).fs = 0x472C4400 ∧
    (after (.config 0x472C4400 0x200) fresh).maxBlock = 512 ∧
    statusWord (after (.config 0x472C4400 0x200) fresh) = 0x100 := by decide +kernel
/-- V-S3 to V-S6: 65536 Hz is the last usable rate, and a rejection leaves the configuration in force. -/
theorem test_config_bounds :
    ([0x47800000, 0x47800080, 0x47AC4400, 0, 0xBF800000, 0x7F800000, 0x7FC00000, 1].map
      (fun x => (answer (.config x 0) ready).map Prod.fst)) = [some 0, some 4, some 4, some 4, some 4, some 4, some 4, some 0] ∧
    (after (.config 0x47AC4400 0) ready).fs = 0x447A0000 ∧ (after (.config 0x47AC4400 0) ready).cfgValid = true := by
  decide +kernel
/-- V-S7, V-S8. -/
theorem test_readReg :
    answer (.readReg 0x13) State.reset = some (0, 0x3F800000) ∧ answer (.readReg 0x1D) State.reset = some (0, 0x4D440001) ∧
    answer (.readReg 0x1E) State.reset = some (0, 0x0000110A) := by decide +kernel
/-- V-S10: the first unassigned number; and the whole word is compared. -/
theorem test_readReg_range :
    answer (.readReg 0x1F) fresh = some (3, 0) ∧ answer (.readReg 0x100) fresh = some (3, 0) ∧
    statusWord (after (.readReg 0x1F) fresh) = 0x4 := by decide +kernel
/-- V-S11, and the last legal address. -/
theorem test_readBuf :
    answer (.readBuf .quadrature 131072) fresh = some (3, 0) ∧
    answer (.readBuf .quadrature 131071) { fresh with dl1 := ⟨0, 0, 0, ⟨[(131071, 0x3F800000)]⟩⟩ } =
      some (0, 0x3F800000) := by decide +kernel
/-- V-S12. -/
theorem test_readRom :
    answer (.readRom 1 0) fresh = some (0, 0xBF800000) ∧ answer (.readRom 3 3) fresh = some (0, 0xBF800000) ∧
    answer (.readRom 4 0) fresh = some (3, 0) ∧ answer (.readRom 0 4) fresh = some (3, 0) := by decide +kernel
/-- V-S13. -/
theorem test_clrStatus :
    statusWord (after (.clrStatus 1) { fresh with cfgValid := true, sticky := 0b00101 }) = 0x104 ∧
    statusWord (after (.clrStatus 0xFFFFFFFF) { fresh with cfgValid := true, sticky := 0b00101 }) = 0x100 := by
  decide +kernel

/-- By hand from R12's formula (log entry 16): at fraction 1.0, `1 +f (1 ×f (2^-30 −f 1)) = 1 +f −1 = +0.0`. -/
theorem test_lerp_fraction_one : f32Lerp 0x3F800000 0x30800000 0x3F800000 = 0 := by decide +kernel

/-- By hand from R115's formula (log entry 16): at FB = 0 a NaN `ext` makes the written word the canonical NaN. -/
theorem test_feedback_nan_ext : feedbackWord fresh 0x3F000000 0x7FC00001 = 0x7FC00000 := by decide +kernel
/-- By hand from R111's formula (log entry 16): 65535 × 0x3C7A00FA is below 1000 and rounds to it, so D = 1. -/
theorem test_offset_rounds_up : offsetSplit { ready with fs := 0x477FFF00 } 0x3C7A00FA = some (1, 0) := by decide +kernel
/-- By hand from R98's formula (log entry 16): 4 × −2^-149 ÷ 44100 underflows to −0.0, whose floor is 0. -/
theorem test_increment_underflows :
    incrementSplit { ready with fs := 0x472C4400 } 0x80000001 = some (0, 0x80000000) := by decide +kernel

/-! ## Oscillator -/

/-- V-O1, V-O2: −2.5 Hz runs backwards and is ORANGE. -/
theorem test_oscFreq :
    (after (.oscFreq 0x40200000) sawState).incInt = 2 ∧ (after (.oscFreq 0x40200000) sawState).incFrac = 0x3F000000 ∧
    answer (.oscFreq 0xC0200000) sawState = some (5, 0) ∧ (after (.oscFreq 0xC0200000) sawState).incInt = 0xFFFFFFFD := by
  decide +kernel
/-- V-O15, V-O16, V-S18: the gate, then RANGE; nothing is stored. -/
theorem test_oscFreq_rejections :
    answer (.oscFreq 0x7149F2CA) fresh = some (2, 0) ∧ answer (.oscFreq 0x7149F2CA) ready = some (3, 0) ∧
    answer (.oscFreq 0x7FC00000) ready = some (3, 0) ∧ (after (.oscFreq 0x7149F2CA) ready).rate = 0 := by decide +kernel
/-- V-O13, V-O14. -/
theorem test_oscWave :
    ([3, 4, 7, 0xFFFFFFFF].map (fun w => (after (.oscWave w) ready).waveSel)) = [.square, .sine, .sine, .sine] := by
  decide +kernel
/-- V-O6: the second word of the pair and the cursor both wrap. -/
theorem test_oscGen_wraps :
    answer (.oscGen .primary) { sawState with incInt := 1, osc0 := ⟨1023, 0x3F000000⟩ } = some (0, 0xBA800000) ∧
    (after (.oscGen .primary) { sawState with incInt := 1, osc0 := ⟨1023, 0x3F000000⟩ }).osc0 = ⟨0, 0x3F000000⟩ := by
  decide +kernel
/-- V-O8: the fraction sum rounds to 2.0 and the carry is 2. -/
theorem test_oscGen_carry_two :
    answer (.oscGen .primary) { sawState with incFrac := 0x3F800000, osc0 := ⟨10, 0x3F7FFFFF⟩ } = some (0, 0xBF7A8000) ∧
    (after (.oscGen .primary) { sawState with incFrac := 0x3F800000, osc0 := ⟨10, 0x3F7FFFFF⟩ }).osc0 = ⟨12, 0⟩ := by
  decide +kernel
/-- V-O7: the inverted square at its top is −1, so the unipolar sample is +0. -/
theorem test_oscGenu :
    answer (.oscGenu .primary) { fresh with waveSel := .square, polMask := 0x80000000 } = some (0, 0) := by decide +kernel
/-- V-O10. -/
theorem test_oscQuad :
    (after .oscQuad { State.reset with osc0 := ⟨1000, 0x3F000000⟩ }).osc1 = ⟨232, 0x3F000000⟩ ∧
    (after .oscQuad { State.reset with osc0 := ⟨1000, 0x3F000000⟩ }).osc0 = ⟨1000, 0x3F000000⟩ := by decide +kernel
/-- V-O11. -/
theorem test_oscUnison : (after .oscUnison { State.reset with osc0 := ⟨15, 0⟩, osc1 := ⟨271, 1⟩ }).osc1 = ⟨15, 0⟩ := by
  decide +kernel
/-- V-O12. -/
theorem test_oscInv :
    (after .oscInv fresh).polMask = 0x80000000 ∧ (after .oscInv (after .oscInv fresh)).polMask = 0 := by decide +kernel

/-! ## Delay line -/

/-- V-D1, V-D3, V-D4: behind, a whole turn, and ahead. -/
theorem test_dlOfs :
    (after (.dlOfs .primary 0x40200000) ready).dl0 = ⟨0, 131070, 0x3F000000, ⟨[]⟩⟩ ∧
    (after (.dlOfs .primary 0x48000000) ready).dl0.rptr = 0 ∧
    (after (.dlOfs .primary 0xC0000000) ready).dl0.rptr = 2 := by decide +kernel
/-- V-D12, V-D13. -/
theorem test_dlOfs_rejections :
    answer (.dlOfs .primary 0x3F800000) fresh = some (2, 0) ∧ answer (.dlOfs .quadrature 0x7149F2CA) ready = some (3, 0) := by
  decide +kernel
/-- V-D6. -/
theorem test_dlUpd_passes_through :
    answer (.dlUpd .primary 0x3F400000) (halfMix fresh 0x3F000000) = some (0, 0x3F400000) ∧
    (after (.dlUpd .primary 0x3F400000) (halfMix fresh 0x3F000000)).dl0 = ⟨1, 0, 0, ⟨[(0, 0x3F900000)]⟩⟩ := by
  decide +kernel
/-- V-M1 at k = 3: the two words are the one at the read cursor and the one BEHIND it (0.5 · lerp(1, 0, 0.51)). -/
theorem test_dlUpd_interpolates :
    answer (.dlUpd .primary 0) { halfMix fresh 0 with dl0 := ⟨3, 0, 0x3F028F5C, ⟨[(0, 0x3F800000)]⟩⟩ } =
      some (0, 0x3E7AE148) ∧
    answer (.dlUpd .primary 0) { halfMix fresh 0 with dl0 := ⟨4, 1, 0x3F028F5C, ⟨[(0, 0x3F800000)]⟩⟩ } =
      some (0, 0x3E828F5C) := by decide +kernel
/-- V-D7: the other channel's buffer at ITS write cursor, this channel's cursor moves. -/
theorem test_dlUpdx :
    answer (.dlUpdx .primary 0x3F800000)
      { halfMix fresh 0x3F000000 with dl0 := ⟨5, 5, 0, ⟨[]⟩⟩, dl1 := ⟨7, 0, 0, ⟨[]⟩⟩ } = some (0, 0x3F800000) ∧
    (after (.dlUpdx .primary 0x3F800000)
      { halfMix fresh 0x3F000000 with dl0 := ⟨5, 5, 0, ⟨[]⟩⟩, dl1 := ⟨7, 0, 0, ⟨[]⟩⟩ }).dl1 =
        ⟨7, 0, 0, ⟨[(7, 0x3FC00000)]⟩⟩ ∧
    (after (.dlUpdx .primary 0x3F800000)
      { halfMix fresh 0x3F000000 with dl0 := ⟨5, 5, 0, ⟨[]⟩⟩, dl1 := ⟨7, 0, 0, ⟨[]⟩⟩ }).dl0 = ⟨6, 5, 0, ⟨[]⟩⟩ := by
  decide +kernel
/-- V-D8. -/
theorem test_dlUpde :
    answer (.dlUpde .primary 0x3F000000 0x40000000) (halfMix fresh 0x3E800000) = some (0, 0x3F000000) ∧
    (after (.dlUpde .primary 0x3F000000 0x40000000) (halfMix fresh 0x3E800000)).dl0 =
      ⟨1, 0, 0, ⟨[(0, 0x3F800000)]⟩⟩ := by decide +kernel
/-- V-D10: 0.3, and 1.5 stored unchanged but ORANGE. -/
theorem test_dlDrywet :
    (after (.dlDrywet 0x3E99999A) fresh).wet = 0x3E99999A ∧ (after (.dlDrywet 0x3E99999A) fresh).dry = 0x3F333333 ∧
    answer (.dlDrywet 0x3FC00000) fresh = some (5, 0) ∧ (after (.dlDrywet 0x3FC00000) fresh).dry = 0xBF000000 := by
  decide +kernel
/-- V-D11. -/
theorem test_dlFlush :
    answer (.readBuf .quadrature 77) (after .dlFlush { fresh with dl1 := ⟨80, 79, 1, ⟨[(77, 0x3F800000)]⟩⟩ }) =
      some (0, 0) ∧
    (after .dlFlush { fresh with dl1 := ⟨80, 79, 1, ⟨[(77, 0x3F800000)]⟩⟩ }).dl1 = ⟨80, 79, 1, ⟨[]⟩⟩ := by decide +kernel

/-! ## Coordinator -/

/-- V-M1 at k = 0: the square gives 1.0, the offset is 3.51 ms, three samples behind the write cursor. -/
theorem test_modUpdate :
    answer (.modUpdate .primary 0x3F800000)
      { halfMix ready 0 with waveSel := .square, incFrac := 0x3CA7C5AC, pDepth := 0x3F000000 } = some (0, 0x3F000000) ∧
    (after (.modUpdate .primary 0x3F800000)
      { halfMix ready 0 with waveSel := .square, incFrac := 0x3CA7C5AC, pDepth := 0x3F000000 }).dl0 =
        ⟨1, 131069, 0x3F028F5C, ⟨[(0, 0x3F800000)]⟩⟩ ∧
    (after (.modUpdate .primary 0x3F800000)
      { halfMix ready 0 with waveSel := .square, incFrac := 0x3CA7C5AC, pDepth := 0x3F000000 }).osc0 =
        ⟨0, 0x3CA7C5AC⟩ := by decide +kernel
/-- V-M9, V-M16, V-M11: bypass before the gate, the gate, and RANGE with nothing kept. -/
theorem test_modUpdate_priority :
    answer (.modUpdate .primary 0x7FC00001) { fresh with bypass := true } = some (0, 0x7FC00001) ∧
    answer (.modUpdate .quadrature 0x3F800000) fresh = some (2, 0) ∧
    after (.modUpdate .primary 0)
      { ready with effect := .chorus, cmask := 0xFFFFFFFF, pChorusOfs := 0x7FC00000, incInt := 1 } =
      { ready with effect := .chorus, cmask := 0xFFFFFFFF, pChorusOfs := 0x7FC00000, incInt := 1, sticky := 0b00100,
                   rsp := some ⟨.range, 0⟩, record := ⟨some .range, false⟩ } := by decide +kernel
/-- V-M14. -/
theorem test_setDepth :
    answer (.setDepth 0x40000000) fresh = some (5, 0) ∧ (after (.setDepth 0x40000000) fresh).pDepth = 0x40000000 ∧
    answer (.setDepth 0x80000000) fresh = some (0, 0) ∧ (after (.setDepth 0x80000000) fresh).pDepth = 0x80000000 := by
  decide +kernel
/-- V-M13; under vibrato the working feedback stays 0 (10_state.md R37). -/
theorem test_setFeedback :
    answer (.setFeedback 0x3F733333) fresh = some (0, 0) ∧ answer (.setFeedback 0x3F75C28F) fresh = some (5, 0) ∧
    (after (.setFeedback 0x3F000000) fresh).fb = 0x3F000000 ∧
    (after (.setFeedback 0x3F000000) { fresh with effect := .vibrato }).fb = 0 := by decide +kernel
/-- V-M15. -/
theorem test_setChorusOfs :
    answer (.setChorusOfs 0x420C0000) fresh = some (0, 0) ∧ answer (.setChorusOfs 0x40800000) fresh = some (5, 0) ∧
    (after (.setChorusOfs 0x40800000) fresh).pChorusOfs = 0x40800000 := by decide +kernel
/-- V-M6, V-M7, V-M8. -/
theorem test_setEffect :
    (after (.setEffect 1) fresh).delta = 0x41C80000 ∧ (after (.setEffect 1) fresh).cmask = 0xFFFFFFFF ∧
    answer (.setEffect 3) fresh = some (3, 0) ∧ answer (.setEffect 0x100) fresh = some (3, 0) := by decide +kernel
theorem test_setEffect_vibrato :
    (after (.setEffect 2) { fresh with pDryWet := 0x3E99999A, pFeedback := 0x3F000000 }).wet = 0x3F800000 ∧
    (after (.setEffect 2) { fresh with pDryWet := 0x3E99999A, pFeedback := 0x3F000000 }).dry = 0 ∧
    (after (.setEffect 2) { fresh with pDryWet := 0x3E99999A, pFeedback := 0x3F000000 }).fb = 0 := by decide +kernel
/-- V-M10. -/
theorem test_setBypass :
    (after (.setBypass 1) fresh).bypass = true ∧ answer (.setBypass 2) fresh = some (3, 0) ∧
    (after (.setBypass 2) { fresh with bypass := true }).bypass = true := by decide +kernel

/-! ## The clock edge -/

/-- V-S14: an ILLEGAL command at an edge (R147). -/
theorem test_step_illegal :
    nextOf (step (offer ⟨0x00000017, 0, 0⟩ fresh)) =
      some { fresh with sticky := 1, rsp := some ⟨.illegal, 0⟩, record := ⟨some .illegal, false⟩ } := by
  decide +kernel
/-- R70, R71: a pending response blocks the offered command and is taken by `rsp_ready`. -/
theorem test_step_pending :
    nextOf (step { fresh with rsp := some ⟨.ok, 5⟩, inputs := [⟨false, some ⟨0x00000016, 0, 0⟩, true⟩] }) = some fresh := by
  decide +kernel
/-- R72, R163: reset drops the response and restores the registers. -/
theorem test_step_reset :
    nextOf (step { ready with rsp := some ⟨.ok, 5⟩, sticky := 3, dl0 := ⟨9, 8, 1, ⟨[(3, 1)]⟩⟩,
                              inputs := [⟨true, some ⟨0x00000016, 0, 0⟩, true⟩] }) = some fresh := by decide +kernel
/-- R161: with nothing driven the core keeps all state. -/
theorem test_step_idle : nextOf (step fresh) = some fresh := by decide +kernel
/-- The fetch word is the command the next step runs. -/
theorem test_step_fetch_word :
    nextOf (step (fresh.withFetchWord 96 0x00000000_3F000000_00000031)) = nextOf (exec (.setDepth 0x3F000000) fresh) := by decide +kernel
/-- R73: `err` is the OR of the sticky bits; R147's order of the record: the first rejecting code is kept. -/
theorem test_err_and_record :
    errPin fresh = false ∧ errPin (after (.setEffect 3) fresh) = true ∧
    (after (.setEffect 3) (after (.oscFreq 0) fresh)).record.rejected = some .nocfg ∧
    (after (.setDepth 0x40000000) fresh).record = ⟨none, true⟩ := by decide +kernel

/-! ## Witnesses: for each obligation with hypotheses, values that meet them, one theorem for each clause -/

/-- A channel's cursors inside the small build. -/
theorem forall_channel {p : Ch → Prop} (h0 : p .primary) (h1 : p .quadrature) : ∀ ch, p ch
  | .primary => h0
  | .quadrature => h1

/-- The configured small state meets the structural invariant. -/
theorem inv_ready : Inv ready :=
  ⟨by decide, ⟨forall_channel (by decide) (by decide), forall_channel (by decide) (by decide),
    forall_channel (by decide) (by decide)⟩, ⟨forall_channel (by decide) (by decide),
    forall_channel (by decide) (by decide)⟩, ⟨.inl rfl, ⟨rfl, rfl⟩, ⟨rfl, by decide +kernel, rfl⟩,
    fun _ => by decide +kernel⟩⟩

/-- The configured small state meets the fraction invariant. -/
theorem fractions_ready : FractionsInside ready :=
  ⟨⟨by decide +kernel, by decide +kernel⟩,
    forall_channel ⟨by decide +kernel, by decide +kernel⟩ ⟨by decide +kernel, by decide +kernel⟩,
    forall_channel ⟨by decide +kernel, by decide +kernel⟩ ⟨by decide +kernel, by decide +kernel⟩⟩

theorem test_witness_UnusedWordsAreIgnored :
    decode ⟨0x00000014, 0xDEADBEEF, 0x12345678⟩ = .ok .oscQuad ∧ usesData0 .oscQuad = false ∧ usesData1 .oscQuad = false := by
  decide
/-- The premises of the statements about one clock edge: an accepted command, an ILLEGAL one, a pending response, a
reset. -/
theorem test_witness_StepRunsDecodedCommand :
    (offer ⟨0x00000016, 0, 0⟩ ready).inputs = [offerEdge ⟨0x00000016, 0, 0⟩] ∧
    (offerEdge ⟨0x00000016, 0, 0⟩).rst = false ∧ (offerEdge ⟨0x00000016, 0, 0⟩).cmd = some ⟨0x00000016, 0, 0⟩ ∧
    (offer ⟨0x00000016, 0, 0⟩ ready).rsp = none ∧ decode ⟨0x00000016, 0, 0⟩ = .ok .oscInv := by decide
theorem test_witness_IllegalCommandIsRejected :
    (offer ⟨0x00000116, 0, 0⟩ ready).inputs = [offerEdge ⟨0x00000116, 0, 0⟩] ∧
    (offerEdge ⟨0x00000116, 0, 0⟩).rst = false ∧ (offerEdge ⟨0x00000116, 0, 0⟩).cmd = some ⟨0x00000116, 0, 0⟩ ∧
    (offer ⟨0x00000116, 0, 0⟩ ready).rsp = none ∧ decode ⟨0x00000116, 0, 0⟩ = .error .strayChannel := by decide
theorem test_witness_PendingResponseBlocksCommands :
    let s : State := { ready with rsp := some ⟨.ok, 5⟩, inputs := [⟨false, some ⟨0, 0, 0⟩, false⟩] }
    s.inputs = [⟨false, some ⟨0, 0, 0⟩, false⟩] ∧ s.rsp = some ⟨.ok, 5⟩ := by decide
theorem test_witness_ResetEdgeRestoresEveryRegister :
    ({ ready with inputs := [⟨true, none, false⟩] } : State).inputs = [⟨true, none, false⟩] ∧
    (⟨true, none, false⟩ : Edge).rst = true := by decide
theorem test_witness_ResetStateRegisterMap : 0 < 31 ∧ 30 < 31 ∧ (registerMap fresh).length = 31 := by decide
theorem test_witness_RejectionIsPrecise :
    ∃ t, exec (.oscFreq 0) fresh = .next t ∧ t.rsp = some ⟨.nocfg, 0⟩ ∧ codeRejects .nocfg = true := ⟨_, rfl, rfl, rfl⟩
theorem test_witness_OnlyClrStatusClearsStickyBits :
    (∀ m, Instr.nop ≠ .clrStatus m) ∧ ∃ t, exec .nop fresh = .next t ∧ t.rsp = some ⟨.ok, 0⟩ :=
  ⟨fun _ h => (by cases h), _, rfl, rfl⟩
theorem test_witness_StickyBitsNeverDecide : Instr.readReg 1 ≠ .readReg 0 ∧ Instr.oscInv ≠ .readReg 0 := by decide
theorem test_witness_ObservationReadsAreIdempotent :
    (∃ r, Instr.readReg 0x1F = .readReg r) ∧ (∃ ch a, Instr.readBuf .quadrature 7 = .readBuf ch a) ∧
    ∃ w n, Instr.readRom 3 0 = .readRom w n := ⟨⟨_, rfl⟩, ⟨_, _, rfl⟩, ⟨_, _, rfl⟩⟩
theorem test_witness_BuffersWrittenOnlyByTheirCommands :
    writesBuf .primary (.dlUpdx .primary 1) = false ∧ ∃ t, exec (.dlUpdx .primary 1) fresh = .next t := ⟨rfl, _, rfl⟩
theorem test_witness_CursorsMoveOnlyByTheirCommands :
    writesOsc .primary .oscQuad = false ∧ writesWptr .quadrature .oscQuad = false ∧
    writesRptr .primary .oscQuad = false ∧ ∃ t, exec .oscQuad fresh = .next t := ⟨rfl, rfl, rfl, _, rfl⟩
theorem test_witness_StepKeepsStructuralInvariant : Inv ready ∧ ∃ t, step ready = .next t := ⟨inv_ready, _, rfl⟩
theorem test_witness_StepKeepsFractionInvariant : FractionsInside ready ∧ ∃ t, step ready = .next t :=
  ⟨fractions_ready, _, rfl⟩
theorem test_witness_ClosedTablesAreExact :
    2 ≤ 2 ∧ 0 < 2 ^ 2 ∧ 0 < 2 ^ 2 / 2 ∧ 16 ≤ 16 ∧ 2 ^ 16 - 1 < 2 ^ 16 ∧ ¬ 2 ^ 16 - 1 < 2 ^ 16 / 2 := by decide
theorem test_witness_ConfigStoresUsableRate :
    cfgOk tinyBuild 0x47800000 = true ∧ cfgOk tinyBuild 0x47800080 = false := by decide +kernel
theorem test_witness_UsableRateMeansTwoSecondsFit : tinyBuild.sizesLegal = true := by decide
theorem test_witness_ReadRegAnswersRegisterMap : (0x1E : Word).toNat < 0x1F ∧ 0x1F ≤ (0x1F : Word).toNat := by decide
theorem test_witness_ReadBufAnswersBufferWord :
    (0x1FFFF : Word).toNat < fresh.build.bufLen ∧ fresh.build.bufLen ≤ (0x20000 : Word).toNat := by decide
theorem test_witness_ReadRomAnswersTableWord :
    fresh.build.sizesLegal = true ∧ (3 : Word).toNat < 4 ∧ (3 : Word).toNat < fresh.build.tableLen := by decide
theorem test_witness_ReadRomAnswersTableWord_range :
    fresh.build.sizesLegal = true ∧ 4 ≤ (4 : Word).toNat ∧ fresh.build.tableLen ≤ (4 : Word).toNat := by decide
theorem test_witness_OscFreqStoresIncrement : fresh.cfgValid = false := by decide
theorem test_witness_OscFreqStoresIncrement_range :
    ready.cfgValid = true ∧ f32Split (f32Div (f32Mul (tableLenF ready.build) 0x7149F2CA) ready.fs) = none := by
  decide +kernel
theorem test_witness_OscFreqStoresIncrement_stores :
    ready.cfgValid = true ∧
    f32Split (f32Div (f32Mul (tableLenF ready.build) 0x447A0000) ready.fs) = some (4, 0) := by decide +kernel
theorem test_witness_OscGenAnswersSampleAndAdvances :
    ready.build.sizesLegal = true ∧ f32IsFinite (fractionSum ready .primary) = true := by decide +kernel
theorem test_witness_OscGenuAnswersUnipolarSample :
    ready.build.sizesLegal = true ∧ f32IsFinite (fractionSum ready .quadrature) = true := by decide +kernel
theorem test_witness_QuadAndUnisonSetPhase : fresh.build.sizesLegal = true := by decide
theorem test_witness_PolarityFlipIsNegation : f32IsNaN 0x80000000 = false ∧ f32IsNaN 0x7F800000 = false := by decide
theorem test_witness_UnipolarRemapIsMonotone :
    f32Le 0xBF800000 0xBF800000 = true ∧ f32Le 0xBF800000 0x3F800000 = true ∧ f32Le 0x3F800000 0x3F800000 = true := by
  decide +kernel
theorem test_witness_UnipolarRemapIsMonotone_samples :
    fresh.build.wellFormed = true ∧ FractionsInside ready ∧ ready.polMask = 0 ∧ (after .oscInv ready).polMask = 0x80000000 :=
  ⟨by decide, fractions_ready, rfl, rfl⟩
theorem test_witness_QuadratureRelationIsKept : fresh.build.sizesLegal = true := by decide
theorem test_witness_DlOfsPlacesReadCursor : fresh.cfgValid = false := by decide
theorem test_witness_DlOfsPlacesReadCursor_range :
    ready.cfgValid = true ∧ samplesSplit ready 0x7149F2CA = none := by decide +kernel
theorem test_witness_DlOfsPlacesReadCursor_places :
    ready.build.sizesLegal = true ∧ ready.cfgValid = true ∧ samplesSplit ready 0xBF000000 = some (0xFFFFFFFF, 0x3F000000) := by
  decide +kernel
theorem test_witness_DlUpdUpdatesOwnChannel : fresh.build.sizesLegal = true ∧ (fresh.dl .primary).buf.wf = true := by decide
theorem test_witness_DlUpdxWritesOtherChannel :
    fresh.build.sizesLegal = true ∧ (fresh.dl (Ch.other .primary)).buf.wf = true := by decide
theorem test_witness_DlUpdeFeedsExternalScalar :
    fresh.build.sizesLegal = true ∧ (fresh.dl .quadrature).buf.wf = true := by decide
theorem test_witness_ZeroOffsetPassesThrough : Inv ready ∧ ready.cfgValid = true := ⟨inv_ready, rfl⟩
theorem test_witness_UpdatesKeepReadCursor :
    fresh.build.sizesLegal = true ∧ (fresh.dl .primary).wptr.toNat < fresh.build.bufLen := by decide
theorem test_witness_ModUpdateBypassAndRejections : ({ fresh with bypass := true } : State).bypass = true := by decide
theorem test_witness_ModUpdateBypassAndRejections_gate : fresh.bypass = false ∧ fresh.cfgValid = false := by decide
/-- Chorus with a NaN offset (V-M11). -/
theorem test_witness_ModUpdateBypassAndRejections_range :
    let s : State := { ready with effect := .chorus, cmask := 0xFFFFFFFF, pChorusOfs := 0x7FC00000 }
    s.bypass = false ∧ s.cfgValid = true ∧ s.build.sizesLegal = true ∧
    samplesSplit s (offsetMs s (remapped (tableSample s .primary))) = none := by decide +kernel
/-- The setting of V-M1: 3.51 samples. -/
theorem test_witness_ModUpdateModulatesDelay :
    let s : State := { ready with waveSel := .square, pDepth := 0x3F000000 }
    s.build.sizesLegal = true ∧ (s.dl .primary).buf.wf = true ∧ f32IsFinite (fractionSum s .primary) = true ∧
    s.bypass = false ∧ s.cfgValid = true ∧
    samplesSplit s (offsetMs s (remapped (tableSample s .primary))) = some (3, 0x3F028F5C) := by decide +kernel
theorem test_witness_ModUpdateIsItsThreeSteps :
    let s : State := { ready with waveSel := .square, pDepth := 0x3F000000 }
    s.bypass = false ∧ s.cfgValid = true ∧ s.build.sizesLegal = true ∧
    samplesSplit s (offsetMs s (remapped (tableSample s .quadrature))) = some (3, 0x3F028F5C) := by decide +kernel
theorem test_witness_SetEffectSelectsConstants : (2 : Word).toNat < 3 ∧ 3 ≤ (3 : Word).toNat := by decide
theorem test_witness_SetBypassStoresBoolean : (1 : Word).toNat < 2 ∧ 2 ≤ (2 : Word).toNat := by decide
theorem test_witness_EffectSwitchLeavesNoResidue : (2 : Word).toNat < 3 := by decide
theorem test_witness_OffsetStaysBounded :
    effectConsistent fresh ∧ f32Le 0 fresh.pDepth = true ∧ f32Le fresh.pDepth 0x3F800000 = true ∧
    f32Le 0 0x3F800000 = true ∧ f32Le 0x3F800000 0x3F800000 = true ∧ fresh.effect ≠ .chorus :=
  ⟨⟨rfl, rfl⟩, by decide +kernel⟩
theorem test_witness_OffsetStaysBounded_chorus :
    let s : State := { fresh with effect := .chorus, delta := 0x41C80000, cmask := 0xFFFFFFFF, pChorusOfs := 0x40A00000 }
    effectConsistent s ∧ f32Le 0 s.pDepth = true ∧ f32Le s.pDepth 0x3F800000 = true ∧
    s.effect = .chorus ∧ f32Le 0 s.pChorusOfs = true :=
  ⟨⟨rfl, rfl⟩, by decide +kernel⟩
theorem test_witness_DryPlusWetIsOne : f32Le 0 0x3F800000 = true ∧ f32Le 0x3F800000 0x3F800000 = true := by
  decide +kernel
theorem test_witness_AdditionRoundsToNearestEven :
    f32IsFinite 0x3F800000 = true ∧ f32IsFinite 0x33800000 = true ∧ f32IsFinite (f32Add 0x3F800000 0x33800000) = true := by
  decide +kernel
theorem test_witness_ProductAndQuotientRoundToNearestEven :
    f32IsFinite 0x3F800000 = true ∧ f32IsFinite 0x40400000 = true ∧ f32IsFinite (f32Mul 0x3F800000 0x40400000) = true ∧
    f32Int 0x40400000 ≠ 0 ∧ f32IsFinite (f32Div 0x3F800000 0x40400000) = true := by decide +kernel
theorem test_witness_SplitIsFloorAndRemainder :
    f32Split 0x40200000 = some (2, 0x3F000000) ∧ 0 ≤ f32Int 0x40200000 := by decide +kernel
/-- The finite operands at which R12's claim about `lerp` fails: their difference overflows, and +0 times it is a NaN. -/
theorem test_witness_LerpAtZeroFractionAnswersFirst :
    f32IsFinite 0xFF7FFFFF = true ∧ f32IsFinite 0x7F7FFFFF = true := by decide

/-! ## The assembler's shorthands (30_encoding.md R94, R95) -/

theorem test_pseudo_sample :
    (Pseudo.sample 0x3F800000 0x3F000000).expand.map encode = [⟨0x00000030, 0x3F800000, 0⟩, ⟨0x00000130, 0x3F000000, 0⟩] := by
  decide
theorem test_literal_words :
    literalWord 18 100 = 0x3E3851EC ∧ literalWord 44100 1 = 0x472C4400 ∧ literalWord (-95) 100 = 0xBF733333 := by
  decide +kernel

end Sys2Proof.Tests
end

section
/-! What a command can do to the state, said once: it is rejected with nothing written, or it commits the writes of
its own constructor and answers OK or ORANGE. -/

namespace Sys2Proof.Machine

/-- `Commits s i u`: the registers and memories that command `i`, executed in `s` and not rejected, leaves in `u`. -/
inductive Commits (s : State) : Instr → State → Prop where
  | nop : Commits s .nop s
  | oscFreq (freq i f) (h : incrementSplit s freq = some (i, f)) :
      Commits s (.oscFreq freq) { s with incInt := i, incFrac := f, rate := freq }
  | oscWave (sel) : Commits s (.oscWave sel) { s with waveSel := waveformOf sel }
  | oscGen (ch) : Commits s (.oscGen ch) (advance s ch)
  | oscGenu (ch) : Commits s (.oscGenu ch) (advance s ch)
  | oscQuad :
      Commits s .oscQuad
        { s with osc1 := { idx := (s.osc0.idx + quarterLen s.build) &&& maskN s.build, frac := s.osc0.frac } }
  | oscUnison : Commits s .oscUnison { s with osc1 := s.osc0 }
  | oscInv : Commits s .oscInv { s with polMask := s.polMask ^^^ polSign }
  | dlOfs (ch ms d f) (h : offsetSplit s ms = some (d, f)) : Commits s (.dlOfs ch ms) (placeRead s ch d f)
  | dlUpd (ch xn) :
      Commits s (.dlUpd ch xn) (updateState s ch ch (feedbackWord s xn (delayRead s ch xn)))
  | dlUpdx (ch xn) :
      Commits s (.dlUpdx ch xn) (updateState s ch ch.other (feedbackWord s xn (delayRead s ch xn)))
  | dlUpde (ch xn ext) : Commits s (.dlUpde ch xn ext) (updateState s ch ch (feedbackWord s xn ext))
  | dlDrywet (w) : Commits s (.dlDrywet w) (recomputeMix { s with pDryWet := w })
  | dlFlush :
      Commits s .dlFlush
        { s with dl0 := { s.dl0 with buf := Memory.zero }, dl1 := { s.dl1 with buf := Memory.zero } }
  | modBypassed (ch xn) (h : s.bypass = true) : Commits s (.modUpdate ch xn) s
  | modUpdate (ch xn d f) (h : offsetSplit s (modOffset s (unipolarSample s ch)) = some (d, f)) :
      Commits s (.modUpdate ch xn)
        (updateState (modulated s ch d f) ch ch
          (feedbackWord (modulated s ch d f) xn (delayRead (modulated s ch d f) ch xn)))
  | setDepth (v) : Commits s (.setDepth v) { s with pDepth := v }
  | setFeedback (v) : Commits s (.setFeedback v) (recomputeMix { s with pFeedback := v })
  | setChorusOfs (v) : Commits s (.setChorusOfs v) { s with pChorusOfs := v }
  | setEffect (e x) (h : effectOf e = some x) :
      Commits s (.setEffect e) (recomputeMix { s with effect := x, delta := effectDelta x, cmask := effectMask x })
  | setBypass (b x) (h : bypassOf b = some x) : Commits s (.setBypass b) { s with bypass := x }
  | config (fs mb) (h : cfgOk s.build fs = true) :
      Commits s (.config fs mb) { s with fs := fs, maxBlock := mb, cfgValid := true }
  | readReg (r) : Commits s (.readReg r) s
  | readBuf (ch a) : Commits s (.readBuf ch a) s
  | readRom (w i) : Commits s (.readRom w i) s
  | clrStatus (m) : Commits s (.clrStatus m) { s with sticky := clearSticky s.sticky m }

/-- `Ends i s r`: the result `r` of command `i` in `s` is a rejection of `s` itself, or a response that does not reject
and commits the command's writes (00_scope.md R14). -/
inductive Ends (i : Instr) (s : State) : Result → Prop where
  | rejected {code} (hc : codeRejects code = true) : Ends i s (reject code s)
  | committed {code v u} (hc : codeRejects code = false) (hu : Commits s i u) : Ends i s (respond code v u)

@[simp] theorem codeRejects_rangeCode (lo hi v : Word) : codeRejects (rangeCode lo hi v) = false := by
  unfold rangeCode; split <;> rfl

theorem ends_oscFreq (freq : Word) (s : State) : Ends (.oscFreq freq) s (execOscFreq freq s) := by
  unfold execOscFreq
  split
  · exact .rejected rfl
  · cases h : incrementSplit s freq with
    | none => exact .rejected rfl
    | some p => exact .committed (codeRejects_rangeCode ..) (.oscFreq freq p.1 p.2 h)

theorem ends_dlOfs (ch : Ch) (ms : Word) (s : State) : Ends (.dlOfs ch ms) s (execDlOfs ch ms s) := by
  unfold execDlOfs
  split
  · exact .rejected rfl
  · cases h : offsetSplit s ms with
    | none => exact .rejected rfl
    | some p => exact .committed rfl (.dlOfs ch ms p.1 p.2 h)

theorem ends_modUpdate (ch : Ch) (xn : Word) (s : State) : Ends (.modUpdate ch xn) s (execModUpdate ch xn s) := by
  unfold execModUpdate
  split_ifs with hb hc
  · exact .committed rfl (.modBypassed ch xn hb)
  · exact .rejected rfl
  · cases h : offsetSplit s (modOffset s (unipolarSample s ch)) with
    | none => exact .rejected rfl
    | some p => exact .committed rfl (.modUpdate ch xn p.1 p.2 h)

theorem ends_setEffect (e : Word) (s : State) : Ends (.setEffect e) s (execSetEffect e s) := by
  unfold execSetEffect
  cases h : effectOf e with
  | none => exact .rejected rfl
  | some x => exact .committed rfl (.setEffect e x h)

theorem ends_setBypass (b : Word) (s : State) : Ends (.setBypass b) s (execSetBypass b s) := by
  unfold execSetBypass
  cases h : bypassOf b with
  | none => exact .rejected rfl
  | some x => exact .committed rfl (.setBypass b x h)

theorem ends_config (fs mb : Word) (s : State) : Ends (.config fs mb) s (execConfig fs mb s) := by
  unfold execConfig
  split
  · next h => exact .committed rfl (.config fs mb h)
  · exact .rejected rfl

theorem ends_readReg (r : Word) (s : State) : Ends (.readReg r) s (execReadReg r s) := by
  unfold execReadReg
  cases regValue s r.toNat with
  | none => exact .rejected rfl
  | some v => exact .committed rfl (.readReg r)

theorem ends_readBuf (ch : Ch) (a : Word) (s : State) : Ends (.readBuf ch a) s (execReadBuf ch a s) := by
  unfold execReadBuf
  split
  · exact .committed rfl (.readBuf ch a)
  · exact .rejected rfl

theorem ends_readRom (w i : Word) (s : State) : Ends (.readRom w i) s (execReadRom w i s) := by
  unfold execReadRom
  split
  · exact .committed rfl (.readRom w i)
  · exact .rejected rfl

/-- Every command ends in one of the two ways. -/
theorem exec_ends (i : Instr) (s : State) : Ends i s (exec i s) := by
  cases i with
  | nop => exact .committed rfl .nop
  | oscFreq freq => exact ends_oscFreq freq s
  | oscWave sel => exact .committed rfl (.oscWave sel)
  | oscGen ch => exact .committed rfl (.oscGen ch)
  | oscGenu ch => exact .committed rfl (.oscGenu ch)
  | oscQuad => exact .committed rfl .oscQuad
  | oscUnison => exact .committed rfl .oscUnison
  | oscInv => exact .committed rfl .oscInv
  | dlOfs ch ms => exact ends_dlOfs ch ms s
  | dlUpd ch xn => exact .committed rfl (.dlUpd ch xn)
  | dlUpdx ch xn => exact .committed rfl (.dlUpdx ch xn)
  | dlUpde ch xn ext => exact .committed rfl (.dlUpde ch xn ext)
  | dlDrywet w => exact .committed (codeRejects_rangeCode ..) (.dlDrywet w)
  | dlFlush => exact .committed rfl .dlFlush
  | modUpdate ch xn => exact ends_modUpdate ch xn s
  | setDepth v => exact .committed (codeRejects_rangeCode ..) (.setDepth v)
  | setFeedback v => exact .committed (codeRejects_rangeCode ..) (.setFeedback v)
  | setChorusOfs v => exact .committed (codeRejects_rangeCode ..) (.setChorusOfs v)
  | setEffect e => exact ends_setEffect e s
  | setBypass b => exact ends_setBypass b s
  | config fs mb => exact ends_config fs mb s
  | readReg r => exact ends_readReg r s
  | readBuf ch a => exact ends_readBuf ch a s
  | readRom w n => exact ends_readRom w n s
  | clrStatus m => exact .committed rfl (.clrStatus m)

/-- The next state of a command: the state before it, rejected, or the state it commits. -/
theorem exec_next_cases {i : Instr} {s t : State} (h : exec i s = .next t) :
    (∃ code, codeRejects code = true ∧ t = commit code 0 s) ∨
      ∃ code v u, codeRejects code = false ∧ Commits s i u ∧ t = commit code v u := by
  have he := exec_ends i s
  rw [h] at he
  generalize hr : (Host.Outcome.next t : Result) = r at he
  cases he with
  | rejected hc => exact .inl ⟨_, hc, Host.Outcome.next.inj hr⟩
  | committed hc hu => exact .inr ⟨_, _, _, hc, hu, Host.Outcome.next.inj hr⟩

/-- Settles O11: only a rejection answers a rejecting code, and it is of the state before the command. -/
theorem rejectionIsPrecise : Obligations.RejectionIsPrecise := by
  intro i s t r hexec hrsp hcode
  rcases exec_next_cases hexec with ⟨code, -, rfl⟩ | ⟨code, v, u, hc, -, rfl⟩
  · obtain rfl : ⟨code, 0⟩ = r := Option.some.inj hrsp
    exact rejectedWith_commit code s
  · obtain rfl : ⟨code, v⟩ = r := Option.some.inj hrsp
    exact absurd hcode (by simp [hc])

end Sys2Proof.Machine
end

section
/-! The structural invariant: what keeps each of its parts, then one lemma for a command's writes, one for the reset
edge, and the step. -/

namespace Sys2Proof.Machine

/-! ## Writes that keep the invariant -/

/-- The invariant speaks of the build, the cursors, the delay lines and the dependent registers only. The three frame
hypotheses hold by computation for a record update of other fields. -/
theorem Inv.of_same {s t : State} (h : Inv s) (hr : RegistersConsistent t) (hb : t.build = s.build := by rfl)
    (ho : ∀ ch, t.osc ch = s.osc ch := by rintro (_ | _) <;> rfl)
    (hd : ∀ ch, t.dl ch = s.dl ch := by rintro (_ | _) <;> rfl) : Inv t where
  sizes := by rw [hb]; exact h.sizes
  cursors :=
    { idx := fun ch => by rw [hb, ho]; exact h.cursors.idx ch
      wptr := fun ch => by rw [hb, hd]; exact h.cursors.wptr ch
      rptr := fun ch => by rw [hb, hd]; exact h.cursors.rptr ch }
  buffers :=
    { wf := fun ch => by rw [hd]; exact h.buffers.wf ch
      inside := fun ch => by rw [hb, hd]; exact h.buffers.inside ch }
  registers := hr

/-- The dependent registers do not depend on the cursors and buffers. -/
theorem RegistersConsistent.setOsc {s : State} (h : RegistersConsistent s) (ch : Ch) (c : OscCursor) :
    RegistersConsistent (s.setOsc ch c) := by
  obtain ⟨hp, he, hm, hc⟩ := h
  cases ch <;> exact ⟨hp, he, hm, hc⟩

theorem RegistersConsistent.setDl {s : State} (h : RegistersConsistent s) (ch : Ch) (d : DelayChannel) :
    RegistersConsistent (s.setDl ch d) := by
  obtain ⟨hp, he, hm, hc⟩ := h
  cases ch <;> exact ⟨hp, he, hm, hc⟩

/-- What one channel's delay line must meet in a buffer of `n` words. -/
structure DelayChannel.Inside (n : Nat) (d : DelayChannel) : Prop where
  wptr : d.wptr.toNat < n
  rptr : d.rptr.toNat < n
  wf : d.buf.wf = true
  below : d.buf.below n = true

theorem Inv.dl {s : State} (h : Inv s) (ch : Ch) : (s.dl ch).Inside s.build.bufLen :=
  ⟨h.cursors.wptr ch, h.cursors.rptr ch, h.buffers.wf ch, h.buffers.inside ch⟩

theorem Inv.setOsc {s : State} (h : Inv s) (ch : Ch) {c : OscCursor} (hc : c.idx.toNat < s.build.tableLen) :
    Inv (s.setOsc ch c) where
  sizes := by rw [build_setOsc]; exact h.sizes
  cursors :=
    { idx := fun b => by
        rw [build_setOsc]
        rcases Ch.eq_or_other b ch with rfl | rfl
        · rwa [osc_setOsc]
        · rw [osc_setOsc_other]; exact h.cursors.idx _
      wptr := fun b => by rw [build_setOsc, dl_setOsc]; exact h.cursors.wptr b
      rptr := fun b => by rw [build_setOsc, dl_setOsc]; exact h.cursors.rptr b }
  buffers :=
    { wf := fun b => by rw [dl_setOsc]; exact h.buffers.wf b
      inside := fun b => by rw [build_setOsc, dl_setOsc]; exact h.buffers.inside b }
  registers := h.registers.setOsc ch c

theorem Inv.setDl {s : State} (h : Inv s) (ch : Ch) {d : DelayChannel} (hd : d.Inside s.build.bufLen) :
    Inv (s.setDl ch d) := by
  have key : ∀ b, ((s.setDl ch d).dl b).Inside s.build.bufLen := by
    intro b
    rcases Ch.eq_or_other b ch with rfl | rfl
    · rwa [dl_setDl]
    · rw [dl_setDl_other]; exact h.dl _
  refine ⟨?_, ⟨?_, ?_, ?_⟩, ⟨fun b => (key b).wf, ?_⟩, h.registers.setDl ch d⟩ <;> rw [build_setDl]
  · exact h.sizes
  · intro b; rw [osc_setDl]; exact h.cursors.idx b
  · exact fun b => (key b).wptr
  · exact fun b => (key b).rptr
  · exact fun b => (key b).below

/-! ## The shared operations -/

theorem Inv.commit {s : State} (h : Inv s) (code : RspCode) (v : Word) : Inv (commit code v s) :=
  have ⟨hp, he, hm, hc⟩ := h.registers
  h.of_same ⟨hp, he, hm, hc⟩

theorem Inv.takeResponse {s : State} (h : Inv s) : Inv (takeResponse s) :=
  have ⟨hp, he, hm, hc⟩ := h.registers
  h.of_same ⟨hp, he, hm, hc⟩

theorem Inv.setInputs {s : State} (h : Inv s) (es : List Edge) : Inv { s with inputs := es } :=
  have ⟨hp, he, hm, hc⟩ := h.registers
  h.of_same ⟨hp, he, hm, hc⟩

theorem Inv.advance {s : State} (h : Inv s) (ch : Ch) : Inv (advance s ch) :=
  h.setOsc ch (and_maskN_lt h.sizes _)

theorem Inv.placeRead {s : State} (h : Inv s) (ch : Ch) (d f : Word) : Inv (placeRead s ch d f) :=
  h.setDl ch { h.dl ch with rptr := and_maskL_lt h.sizes _ }

theorem Inv.stepWrite {s : State} (h : Inv s) (ch : Ch) : Inv (stepWrite s ch) :=
  h.setDl ch { h.dl ch with wptr := and_maskL_lt h.sizes _ }

theorem Inv.bufWrite {s : State} (h : Inv s) (ch : Ch) (i v : Word) : Inv (bufWrite s ch i v) :=
  h.setDl ch
    { h.dl ch with
      wf := Memory.wf_write (h.dl ch).wf _ v
      below := Memory.below_write (h.dl ch).below (and_maskL_lt h.sizes i) v }

theorem Inv.updateState {s : State} (h : Inv s) (ch dst : Ch) (v : Word) : Inv (updateState s ch dst v) :=
  (h.bufWrite dst _ v).stepWrite ch

theorem Inv.modulated {s : State} (h : Inv s) (ch : Ch) (d f : Word) : Inv (modulated s ch d f) :=
  (h.advance ch).placeRead ch d f

/-- `recompute_mix` after writes that keep what DELTA, CMASK, POLMASK and FS depend on. -/
theorem registersConsistent_recomputeMix {s : State} (hp : s.polMask = 0 ∨ s.polMask = 0x80000000)
    (he : effectConsistent s) (hc : s.cfgValid = true → cfgOk s.build s.fs = true) :
    RegistersConsistent (recomputeMix s) where
  polMask := by rwa [polMask_recomputeMix]
  effect := by unfold effectConsistent; rwa [effect_recomputeMix, delta_recomputeMix, cmask_recomputeMix]
  mix := mixConsistent_recomputeMix s
  config := by rwa [cfgValid_recomputeMix, build_recomputeMix, fs_recomputeMix]

theorem polMask_xor_polSign {m : Word} (h : m = 0 ∨ m = 0x80000000) :
    m ^^^ polSign = 0 ∨ m ^^^ polSign = 0x80000000 := by
  rcases h with rfl | rfl
  · exact .inr (by decide)
  · exact .inl (by decide)

/-- DL_FLUSH's writes, a channel at a time. -/
theorem flush_eq_setDl (s : State) :
    { s with dl0 := { s.dl0 with buf := Memory.zero }, dl1 := { s.dl1 with buf := Memory.zero } } =
      (s.setDl .primary { s.dl .primary with buf := Memory.zero }).setDl .quadrature
        { s.dl .quadrature with buf := Memory.zero } := rfl

theorem Inv.flush {s : State} (h : Inv s) :
    Inv { s with dl0 := { s.dl0 with buf := Memory.zero }, dl1 := { s.dl1 with buf := Memory.zero } } := by
  have hd : ∀ ch, { s.dl ch with buf := Memory.zero }.Inside s.build.bufLen := fun ch =>
    { h.dl ch with wf := Memory.wf_zero, below := Memory.below_zero _ }
  rw [flush_eq_setDl]
  exact (h.setDl .primary (hd .primary)).setDl .quadrature (hd .quadrature)

/-! ## Commands, the reset edge, and the step -/

/-- No command's writes leave the invariant. -/
theorem Commits.keeps_inv {i : Instr} {s u : State} (hu : Commits s i u) (h : Inv s) : Inv u := by
  have ⟨hp, he, hm, hc⟩ := h.registers
  cases hu with
  | nop | modBypassed | readReg | readBuf | readRom => exact h
  | oscFreq | oscWave | setDepth | setChorusOfs | setBypass | clrStatus =>
    exact h.of_same ⟨hp, he, hm, hc⟩
  | oscGen ch | oscGenu ch => exact h.advance ch
  | oscQuad => exact h.setOsc .quadrature (and_maskN_lt h.sizes _)
  | oscUnison => exact h.setOsc .quadrature (h.cursors.idx .primary)
  | oscInv =>
    exact h.of_same ⟨polMask_xor_polSign hp, he, hm, hc⟩
  | dlOfs ch ms d f => exact h.placeRead ch d f
  | dlUpd ch xn => exact h.updateState ch ch _
  | dlUpdx ch xn => exact h.updateState ch ch.other _
  | dlUpde ch xn ext => exact h.updateState ch ch _
  | dlFlush => exact h.flush
  | modUpdate ch xn d f => exact (h.modulated ch d f).updateState ch ch _
  | dlDrywet | setFeedback =>
    exact h.of_same (registersConsistent_recomputeMix hp he hc) (build_recomputeMix _) (osc_recomputeMix _)
      (dl_recomputeMix _)
  | setEffect e x =>
    refine h.of_same (registersConsistent_recomputeMix hp ?_ hc) (build_recomputeMix _) (osc_recomputeMix _)
      (dl_recomputeMix _)
    cases x <;> exact ⟨rfl, rfl⟩
  | config fs mb hok =>
    exact h.of_same ⟨hp, he, hm, fun _ => hok⟩

/-- Every command keeps the invariant, rejected or not. -/
theorem Inv.exec {i : Instr} {s t : State} (h : Inv s) (ht : exec i s = .next t) : Inv t := by
  rcases exec_next_cases ht with ⟨code, -, rfl⟩ | ⟨code, v, u, -, hu, rfl⟩
  · exact h.commit code 0
  · exact (hu.keeps_inv h).commit code v

theorem f32Sub_one_zero : f32Sub 0x3F800000 0 = 0x3F800000 := by decide +kernel

/-- A core of a legal build meets the invariant at reset. -/
theorem inv_resetOf {b : Build} (hb : b.sizesLegal = true) : Inv (State.resetOf b) where
  sizes := hb
  cursors :=
    { idx := by rintro (_ | _) <;> exact tableLen_pos
      wptr := by rintro (_ | _) <;> exact bufLen_pos
      rptr := by rintro (_ | _) <;> exact bufLen_pos }
  buffers :=
    { wf := by rintro (_ | _) <;> rfl
      inside := by rintro (_ | _) <;> rfl }
  registers :=
    { polMask := .inl rfl
      effect := ⟨rfl, rfl⟩
      mix := ⟨rfl, f32Sub_one_zero.symm, rfl⟩
      config := fun h => absurd h Bool.false_ne_true }

theorem Inv.applyReset {s : State} (h : Inv s) : Inv (applyReset s) :=
  have h0 := inv_resetOf h.sizes
  have ⟨hp, he, hm, hc⟩ := h0.registers
  h0.of_same ⟨hp, he, hm, hc⟩

/-- Settles O18: each kind of clock edge keeps the invariant. -/
theorem stepKeepsStructuralInvariant : Obligations.StepKeepsStructuralInvariant := by
  intro s t h hstep
  rcases step_cases s with ⟨-, hs⟩ | ⟨e, rest, -, hedge⟩
  · rw [hs] at hstep; cases hstep; exact h
  · have hin := h.setInputs rest
    rcases hedge with ⟨-, hs⟩ | ⟨-, -, hs⟩ | ⟨-, -, -, hs⟩ | ⟨-, -, c, -, ⟨x, -, hs⟩ | ⟨i, -, hs⟩⟩ <;>
      rw [hs] at hstep
    · cases hstep; exact hin.applyReset
    · cases hstep
      split
      · exact hin.takeResponse
      · exact hin
    · cases hstep; exact hin
    · cases hstep; exact hin.commit .illegal 0
    · exact hin.exec hstep

end Sys2Proof.Machine
end

section
/-! Rounding of sums, products and quotients (00_scope.md R10, R18): `f32RoundMag` is the nearest magnitude, the even one
on a tie, and a sign carries that over to signed values. -/

namespace Sys2Proof.Machine

/-! ## Ties -/

/-- Where another integer is as near, the nearest integer is the even one. -/
theorem IsRoundHalfEven.even_of_tie {num den n : Nat} (h : IsRoundHalfEven num den n) {k : Int} (hne : k ≠ n)
    (htie : |(num : Int) - den * n| = |(num : Int) - den * k|) : n % 2 = 0 := by
  -- two integers at the same distance lie on both sides of the ratio
  have hsum : 2 * (num : Int) = den * n + den * k := by
    rcases abs_eq_abs.1 htie with h1 | h1
    · have hmul : (den : Int) * n = den * k := by omega
      rcases mul_eq_mul_left_iff.1 hmul with h2 | h2
      · exact absurd h2.symm hne
      · have hnum : num = 0 := by have := h.high; simp_all
        simp [hnum, h2]
    · omega
  have hlow : 2 * ((den : Int) * n) ≤ 2 * num + den := by
    exact_mod_cast (by linarith [h.low] : 2 * (den * n) ≤ 2 * num + den)
  have hhigh : 2 * (num : Int) ≤ 2 * ((den : Int) * n) + den := by
    exact_mod_cast (by linarith [h.high] : 2 * num ≤ 2 * (den * n) + den)
  rcases lt_or_gt_of_ne hne with hk | hk
  · have hstep : (den : Int) * k ≤ den * n - den := by nlinarith [Int.natCast_nonneg den]
    have : 2 * ((den : Int) * n) = 2 * num + den := by omega
    exact h.tieLow (by zify; linarith)
  · have hstep : (den : Int) * n + den ≤ den * k := by nlinarith [Int.natCast_nonneg den]
    have : 2 * (num : Int) = 2 * ((den : Int) * n) + den := by omega
    exact h.tieHigh (by zify; linarith)

/-- Below a binade that is not the first, a value is farther from the ratio than the binade's bottom. -/
theorem roundCode_nearer_of_below_binade {num den m : Nat} (hd : 0 < den) (ht : roundBinade num den ≠ 0)
    (hm : f32MagUnits m < 2 ^ (roundBinade num den + 23)) :
    |(num : Int) - den * f32MagUnits (roundCode num den)| < |(num : Int) - den * f32MagUnits m| := by
  set t := roundBinade num den
  have hbottom : f32MagUnits (2 ^ 23 * t + 2 ^ 23) = 2 ^ (t + 23) := by
    rw [f32MagUnits_code (.inr ⟨le_refl _, by decide⟩), ← pow_add, Nat.add_comm]
  have hge : den * 2 ^ (t + 23) ≤ num := by
    rw [pow_add, ← mul_assoc]; exact (roundBinade_spec num hd).2.resolve_left ht
  have hnear := roundCode_nearest num hd (2 ^ 23 * t + 2 ^ 23)
  rw [hbottom] at hnear
  have hlt : den * f32MagUnits m < den * 2 ^ (t + 23) := Nat.mul_lt_mul_of_pos_left hm hd
  refine lt_of_le_of_lt hnear ?_
  zify at hge hlt ⊢
  rw [abs_of_nonneg (by omega), abs_of_nonneg (by omega)]
  omega

/-- Where another value is as near to `num / den`, the magnitude bits of `roundCode` are even. -/
theorem roundCode_even_of_tie {num den m : Nat} (hd : 0 < den) (hne : f32MagUnits m ≠ f32MagUnits (roundCode num den))
    (htie : |(num : Int) - den * f32MagUnits (roundCode num den)| = |(num : Int) - den * f32MagUnits m|) :
    roundCode num den % 2 = 0 := by
  set t := roundBinade num den with ht
  have hdvd : 2 ^ t ∣ f32MagUnits m := by
    by_cases h0 : t = 0
    · simp [h0]
    · refine pow_dvd_f32MagUnits (not_lt.1 fun hlt => ?_)
      exact absurd htie (roundCode_nearer_of_below_binade hd h0 hlt).ne
  obtain ⟨k, hk⟩ := hdvd
  rw [f32MagUnits_roundCode num hd, ← ht, hk] at hne htie
  have hr : IsRoundHalfEven num (den * 2 ^ t) (roundSignificand num den) :=
    isRoundHalfEven_roundHalfEven num (Nat.mul_pos hd (Nat.two_pow_pos _))
  have heven : roundSignificand num den % 2 = 0 := by
    refine hr.even_of_tie (k := k) (fun h => hne ?_) ?_
    · rw [Nat.cast_injective h, mul_comm]
    · push_cast at htie ⊢
      convert htie using 2 <;> ring
  unfold roundCode
  omega

/-! ## Signed values -/

/-- A signed value whose magnitude a binary32 holds is no nearer to a ratio that is not negative, and on a tie the rounded
magnitude is even. -/
theorem roundCode_nearest_signed {num den m : Nat} (hd : 0 < den) {k : Int} (hk : k.natAbs = f32MagUnits m) :
    |(num : Int) - den * f32MagUnits (roundCode num den)| ≤ |(num : Int) - den * k| ∧
      (|(num : Int) - den * f32MagUnits (roundCode num den)| = |(num : Int) - den * k| →
        k ≠ f32MagUnits (roundCode num den) → roundCode num den % 2 = 0) := by
  rcases le_or_gt 0 k with h0 | h0
  · obtain rfl : k = f32MagUnits m := by omega
    exact ⟨roundCode_nearest num hd m, fun htie hne => roundCode_even_of_tie hd (by exact_mod_cast hne) htie⟩
  · -- zero is nearer than a value of the other sign
    have hzero := roundCode_nearest num hd 0
    have hneg : (den : Int) * k < 0 := mul_neg_of_pos_of_neg (by exact_mod_cast hd) h0
    have hlt : |(num : Int) - den * f32MagUnits 0| < |(num : Int) - den * k| := by
      rw [f32MagUnits_zero, abs_of_nonneg (by simp), abs_of_nonneg (by omega)]
      simp only [Nat.cast_zero, mul_zero]
      omega
    exact ⟨(hzero.trans_lt hlt).le, fun htie => absurd htie (hzero.trans_lt hlt).ne⟩

/-- `n`, negated under a sign bit of 1: a packed value is `signed` of its magnitude (`f32Int_pack_eq_signed`). -/
def signed (neg : Bool) (n : Int) : Int := if neg then -n else n

@[simp] theorem signed_signed (neg : Bool) (n : Int) : signed neg (signed neg n) = n := by cases neg <;> simp [signed]
@[simp] theorem natAbs_signed (neg : Bool) (n : Int) : (signed neg n).natAbs = n.natAbs := by cases neg <;> simp [signed]
theorem signed_inj {neg : Bool} {m n : Int} : signed neg m = signed neg n ↔ m = n := by cases neg <;> simp [signed]
theorem signed_mul_signed (p q : Bool) (m n : Int) : signed p m * signed q n = signed (p != q) (m * n) := by
  cases p <;> cases q <;> simp [signed]
theorem abs_signed_sub (neg : Bool) (n d k : Int) : |signed neg n - d * k| = |n - d * signed neg k| := by
  cases neg
  · rfl
  · rw [← abs_neg]; simp only [signed, if_true]; ring_nf

theorem signed_natAbs (z : Int) : signed (decide (z < 0)) z.natAbs = z := by
  unfold signed
  split <;> simp only [decide_eq_true_eq] at * <;> omega

theorem f32Int_eq_signed (x : Word) : f32Int x = signed (f32Sign x) (f32Units x) := rfl

theorem f32Int_pack_eq_signed (neg : Bool) {m : Nat} (h : m < 2 ^ 31) :
    f32Int (f32Pack neg m) = signed neg (f32MagUnits m) := f32Int_pack neg h

theorem f32IsFinite_pack (neg : Bool) {m : Nat} (h : m < 2 ^ 31) :
    f32IsFinite (f32Pack neg m) = decide (m < f32InfMag) := by
  unfold f32IsFinite; rw [f32Mag_pack neg h]

theorem f32RoundMag_lt (num den : Nat) : f32RoundMag num den < 2 ^ 31 :=
  Nat.lt_of_le_of_lt (f32RoundMag_le_inf num den) f32InfMag_lt

/-- A rounding that gives a finite value is to nearest, ties to even. -/
theorem nearestEven_pack (neg : Bool) (num : Nat) {den : Nat} (hd : 0 < den)
    (hfin : f32IsFinite (f32Pack neg (f32RoundMag num den)) = true) :
    nearestEven (signed neg num) den (f32Pack neg (f32RoundMag num den)) := by
  rw [f32IsFinite_pack neg (f32RoundMag_lt num den), decide_eq_true_eq] at hfin
  have hcode : f32RoundMag num den = roundCode num den := by rw [f32RoundMag_eq_min] at hfin ⊢; omega
  intro m _
  rw [f32Int_pack_eq_signed neg (f32RoundMag_lt num den), f32Mag_pack neg (f32RoundMag_lt num den), hcode,
    abs_signed_sub, abs_signed_sub, signed_signed]
  have hk : (signed neg (f32Int m)).natAbs = f32MagUnits (f32Mag m) := by rw [natAbs_signed, natAbs_f32Int]; rfl
  obtain ⟨hnear, heven⟩ := roundCode_nearest_signed (num := num) hd hk
  refine ⟨hnear, fun htie hne => heven htie fun h => hne ?_⟩
  rw [← h, signed_signed]

/-! ## The three operations on finite values -/

theorem f32RoundMag_zero {den : Nat} (hd : 0 < den) : f32RoundMag 0 den = 0 := by
  simpa using f32RoundMag_exact (m := 0) hd (Nat.zero_le _)

/-- A sum of finite values is the exact sum, rounded; only the sign of a zero is its own. -/
theorem exists_f32Add_eq {a b : Word} (ha : f32IsFinite a = true) (hb : f32IsFinite b = true) :
    ∃ neg, f32Add a b = f32Pack neg (f32RoundMag (f32Int a + f32Int b).natAbs 1) ∧
      f32Int a + f32Int b = signed neg (f32Int a + f32Int b).natAbs := by
  unfold f32Add
  simp only [f32IsNaN_eq_false_of_finite, f32IsInf_eq_false_of_finite, ha, hb, Bool.or_self, Bool.false_eq_true, if_false]
  split
  · next h =>
    refine ⟨f32Sign a && f32Sign b, by rw [h, Int.natAbs_zero, f32RoundMag_zero Nat.one_pos], ?_⟩
    rw [h]; cases f32Sign a && f32Sign b <;> rfl
  · exact ⟨_, rfl, (signed_natAbs _).symm⟩

theorem f32Mul_eq {a b : Word} (ha : f32IsFinite a = true) (hb : f32IsFinite b = true) :
    f32Mul a b = f32Pack (f32Sign a != f32Sign b) (f32RoundMag (f32Units a * f32Units b) (2 ^ 149)) := by
  simp [f32Mul, f32IsNaN_eq_false_of_finite, f32IsInf_eq_false_of_finite, ha, hb]

theorem f32Div_eq {a b : Word} (ha : f32IsFinite a = true) (hb : f32IsFinite b = true) (h0 : f32Units b ≠ 0) :
    f32Div a b = f32Pack (f32Sign a != f32Sign b) (f32RoundMag (2 ^ 149 * f32Units a) (f32Units b)) := by
  simp [f32Div, f32IsNaN_eq_false_of_finite, f32IsInf_eq_false_of_finite, ha, hb, h0]

/-- Settles O57: `f32Add` packs the exact sum rounded. -/
theorem additionRoundsToNearestEven : Obligations.AdditionRoundsToNearestEven := by
  intro a b ha hb hfin
  obtain ⟨neg, hadd, hsum⟩ := exists_f32Add_eq ha hb
  rw [hadd] at hfin ⊢
  have h := nearestEven_pack neg _ Nat.one_pos hfin
  rwa [← hsum, Nat.cast_one] at h

theorem mul_rounds_nearestEven {a b : Word} (ha : f32IsFinite a = true) (hb : f32IsFinite b = true)
    (hfin : f32IsFinite (f32Mul a b) = true) : nearestEven (f32Int a * f32Int b) (2 ^ 149) (f32Mul a b) := by
  rw [f32Mul_eq ha hb] at hfin ⊢
  have h := nearestEven_pack _ _ (Nat.two_pow_pos 149) hfin
  rw [Nat.cast_mul, Nat.cast_pow, Nat.cast_ofNat] at h
  rwa [f32Int_eq_signed a, f32Int_eq_signed b, signed_mul_signed]

theorem sign_f32Int {b : Word} (h0 : f32Units b ≠ 0) : (f32Int b).sign = signed (f32Sign b) 1 := by
  rw [f32Int_eq_signed]
  have hpos : ((f32Units b : Nat) : Int).sign = 1 := Int.sign_eq_one_of_pos (by omega)
  cases f32Sign b <;> simp [signed, hpos]

theorem div_rounds_nearestEven {a b : Word} (ha : f32IsFinite a = true) (hb : f32IsFinite b = true) (h0 : f32Int b ≠ 0)
    (hfin : f32IsFinite (f32Div a b) = true) :
    nearestEven (f32Int a * 2 ^ 149 * (f32Int b).sign) |f32Int b| (f32Div a b) := by
  have hu : f32Units b ≠ 0 := by rwa [← natAbs_f32Int, Int.natAbs_ne_zero]
  rw [f32Div_eq ha hb hu] at hfin ⊢
  have h := nearestEven_pack _ _ (Nat.pos_of_ne_zero hu) hfin
  have hnum : f32Int a * 2 ^ 149 * (f32Int b).sign =
      signed (f32Sign a != f32Sign b) ((2 ^ 149 * f32Units a : Nat) : Int) := by
    rw [sign_f32Int hu, f32Int_eq_signed a, mul_right_comm, signed_mul_signed, mul_one, mul_comm]
    cases f32Sign a != f32Sign b <;> simp [signed]
  rw [hnum, Int.abs_eq_natAbs, natAbs_f32Int]
  exact h

/-- Settles O58: both operations pack the exact ratio of magnitudes rounded, under the product of the signs. -/
theorem productAndQuotientRoundToNearestEven : Obligations.ProductAndQuotientRoundToNearestEven :=
  fun _ _ ha hb => ⟨mul_rounds_nearestEven ha hb, div_rounds_nearestEven ha hb⟩

end Sys2Proof.Machine
end

section
/-! `split` (00_scope.md R11): the floor of a finite binary32 is again the value of one, and so is the remainder of a
value that is not negative, so only a negative value's fraction is rounded. -/

namespace Sys2Proof.Machine

/-! ## The integers that are values of finite binary32s -/

/-- The integer `z`, in units of 2^-149, is the value of a finite binary32. -/
def IsF32Value (z : Int) : Prop := ∃ m < f32InfMag, z.natAbs = f32MagUnits m

theorem isF32Value_f32Int {x : Word} (h : f32IsFinite x = true) : IsF32Value (f32Int x) :=
  ⟨f32Mag x, of_decide_eq_true h, natAbs_f32Int x⟩

/-- 24 bits at any binade are the value of some magnitude bits. -/
theorem exists_f32MagUnits_eq (t : Nat) {r : Nat} (hr : r ≤ 2 ^ 24) : ∃ m, f32MagUnits m = r * 2 ^ t := by
  induction t generalizing r with
  | zero => exact ⟨2 ^ 23 * 0 + r, f32MagUnits_code (.inl ⟨rfl, hr⟩)⟩
  | succ t ih =>
    rcases le_or_gt (2 ^ 23) r with h | h
    · exact ⟨2 ^ 23 * (t + 1) + r, f32MagUnits_code (.inr ⟨h, hr⟩)⟩
    · obtain ⟨m, hm⟩ := ih (r := 2 * r) (by omega)
      exact ⟨m, by rw [hm, pow_succ]; ring⟩

theorem f32MagUnits_infMag : f32MagUnits f32InfMag = 2 ^ 277 := by decide +kernel

/-- 24 bits at a binade below the top are the value of a finite binary32. -/
theorem isF32Value_of_natAbs_eq {z : Int} {r t : Nat} (hz : z.natAbs = r * 2 ^ t) (hr : r ≤ 2 ^ 24)
    (hlt : z.natAbs < 2 ^ 277) : IsF32Value z := by
  obtain ⟨m, hm⟩ := exists_f32MagUnits_eq t hr
  refine ⟨m, ?_, by rw [hz, hm]⟩
  rwa [← f32MagUnits_lt_iff, hm, ← hz, f32MagUnits_infMag]

/-- Such a value is rounded to itself. -/
theorem IsF32Value.f32Int_roundInt {z : Int} (h : IsF32Value z) : f32Int (f32RoundInt z) = z := by
  obtain ⟨m, hm, hz⟩ := h
  exact f32Int_roundInt_exact hm.le hz

theorem IsF32Value.f32IsFinite_roundInt {z : Int} (h : IsF32Value z) : f32IsFinite (f32RoundInt z) = true := by
  have hround := h.f32Int_roundInt
  obtain ⟨m, hm, hz⟩ := h
  have hu : f32Units (f32RoundInt z) = f32MagUnits m := by rw [← natAbs_f32Int, hround, hz]
  exact decide_eq_true ((f32MagUnits_inj.1 hu).symm ▸ hm)

/-! ## Floor and remainder -/

theorem f32OfInt_eq_roundInt (k : Int) : f32OfInt k = f32RoundInt (2 ^ 149 * k) := by
  have hneg : 2 ^ 149 * k < 0 ↔ k < 0 := by omega
  have habs : (2 ^ 149 * k).natAbs = 2 ^ 149 * k.natAbs := by rw [Int.natAbs_mul]; rfl
  simp only [f32OfInt, f32OfRatio, f32RoundInt, hneg, habs]

theorem f32Int_floor_add_mod (v : Word) : 2 ^ 149 * f32Floor v + f32Int v % 2 ^ 149 = f32Int v :=
  Int.mul_ediv_add_emod _ _

/-- The floor of a finite value is the value of a binary32: from 2^23 on the value is an integer itself, and below that
the floor has at most 24 bits. -/
theorem isF32Value_floor {v : Word} (h : f32IsFinite v = true) : IsF32Value (2 ^ 149 * f32Floor v) := by
  rcases le_or_gt (2 ^ (149 + 23)) (f32Units v) with hbig | hsmall
  · have hdvd : (2 ^ 149 : Int) ∣ f32Int v := by
      rw [← Int.natAbs_dvd_natAbs, natAbs_f32Int]; exact pow_dvd_f32MagUnits hbig
    rw [f32Floor, Int.mul_ediv_cancel' hdvd]
    exact isF32Value_f32Int h
  · have habs := natAbs_f32Int v
    have hfloor := f32Int_floor_add_mod v
    refine isF32Value_of_natAbs_eq (r := (f32Floor v).natAbs) (t := 149) ?_ (by omega) (by omega)
    rw [Int.natAbs_mul, mul_comm]; rfl

theorem f32Int_ofInt_floor {v : Word} (h : f32IsFinite v = true) :
    f32Int (f32OfInt (f32Floor v)) = 2 ^ 149 * f32Floor v := by
  rw [f32OfInt_eq_roundInt]; exact (isF32Value_floor h).f32Int_roundInt

theorem f32IsFinite_ofInt_floor {v : Word} (h : f32IsFinite v = true) :
    f32IsFinite (f32OfInt (f32Floor v)) = true := by
  rw [f32OfInt_eq_roundInt]; exact (isF32Value_floor h).f32IsFinite_roundInt

/-- The remainder of a value that is not negative needs no more bits than the value. -/
theorem isF32Value_mod {v : Word} (h0 : 0 ≤ f32Int v) : IsF32Value (f32Int v % 2 ^ 149) := by
  obtain ⟨t, r, hm, hr, ht⟩ := exists_significand (f32Mag v)
  have hv : (f32Int v).natAbs = r * 2 ^ t := by
    rw [natAbs_f32Int, f32Units, hm, f32MagUnits_code (isSignificand_of hr.le ht)]
  obtain ⟨n, hn⟩ : ∃ n : Nat, f32Int v = n := ⟨_, (Int.natAbs_of_nonneg h0).symm⟩
  have hmod : (f32Int v % 2 ^ 149).natAbs = n % 2 ^ 149 := by omega
  have hnv : n = r * 2 ^ t := by omega
  have hlt : n % 2 ^ 149 < 2 ^ 149 := Nat.mod_lt _ (Nat.two_pow_pos _)
  rcases le_or_gt 149 t with h | h
  · have hzero : n % 2 ^ 149 = 0 := Nat.mod_eq_zero_of_dvd (hnv ▸ (pow_dvd_pow 2 h).mul_left r)
    exact isF32Value_of_natAbs_eq (r := 0) (t := 0) (by omega) (by omega) (by omega)
  · obtain ⟨q, hq⟩ : 2 ^ t ∣ n % 2 ^ 149 := (Nat.dvd_mod_iff (pow_dvd_pow 2 h.le)).2 (hnv ▸ dvd_mul_left _ r)
    have hqr : 2 ^ t * q ≤ 2 ^ t * r := by rw [← hq, mul_comm _ r, ← hnv]; exact Nat.mod_le _ _
    have hq24 : q ≤ 2 ^ 24 := (Nat.le_of_mul_le_mul_left hqr (Nat.two_pow_pos t)).trans hr.le
    exact isF32Value_of_natAbs_eq (by rw [hmod, hq, mul_comm]) hq24 (by omega)

/-! ## The fraction -/

/-- The fraction of `split` is the remainder, rounded. -/
theorem f32Int_sub_floor {v : Word} (h : f32IsFinite v = true) :
    f32Int (f32Sub v (f32OfInt (f32Floor v))) = f32Int (f32RoundInt (f32Int v % 2 ^ 149)) := by
  have hfin := f32IsFinite_neg (f32IsFinite_ofInt_floor h)
  have hrem : f32Int v + f32Int (f32Neg (f32OfInt (f32Floor v))) = f32Int v % 2 ^ 149 := by
    rw [f32Int_neg, f32Int_ofInt_floor h]; have := f32Int_floor_add_mod v; omega
  rw [f32Sub, f32Int_add h hfin, hrem]

theorem isF32Value_zero : IsF32Value 0 := ⟨0, by decide, rfl⟩
theorem isF32Value_one : IsF32Value (2 ^ 149) := ⟨0x3F800000, by decide, by decide +kernel⟩

/-- Rounding keeps a remainder in `[0, 1]`, since 0 and 1 are rounded to themselves. -/
theorem atMostOne_sub_floor {v : Word} (h : f32IsFinite v = true) : atMostOne (f32Sub v (f32OfInt (f32Floor v))) := by
  have hlow := f32Int_roundInt_mono (Int.emod_nonneg (f32Int v) (show (2 ^ 149 : Int) ≠ 0 by omega))
  have hhigh := f32Int_roundInt_mono (Int.emod_lt_of_pos (f32Int v) (show (0 : Int) < 2 ^ 149 by omega)).le
  rw [isF32Value_zero.f32Int_roundInt] at hlow
  rw [isF32Value_one.f32Int_roundInt] at hhigh
  rw [atMostOne_iff, f32Int_sub_floor h]
  exact ⟨f32IsNaN_add h (f32IsFinite_neg (f32IsFinite_ofInt_floor h)), hlow, hhigh⟩

theorem f32Int_sub_floor_of_nonneg {v : Word} (h : f32IsFinite v = true) (h0 : 0 ≤ f32Int v) :
    f32Int (f32Sub v (f32OfInt (f32Floor v))) = f32Int v % 2 ^ 149 := by
  rw [f32Int_sub_floor h, (isF32Value_mod h0).f32Int_roundInt]

/-! ## `split` -/

/-- `split` answers RANGE exactly for a value that is not finite or whose floor is no s32. -/
theorem f32Split_eq_none_iff (v : Word) :
    f32Split v = none ↔ f32IsFinite v = false ∨ f32Floor v < -(2 ^ 31) ∨ 2 ^ 31 - 1 < f32Floor v := by
  unfold f32Split
  cases f32IsFinite v with
  | false => simp
  | true =>
    simp only [if_true, Bool.true_eq_false, false_or]
    split_ifs with h
    · simpa using h
    · simpa using h

theorem f32Split_eq_some_iff {v i f : Word} :
    f32Split v = some (i, f) ↔ f32IsFinite v = true ∧ -(2 ^ 31) ≤ f32Floor v ∧ f32Floor v ≤ 2 ^ 31 - 1 ∧
      i = BitVec.ofInt 32 (f32Floor v) ∧ f = f32Sub v (f32OfInt (f32Floor v)) := by
  unfold f32Split
  cases f32IsFinite v with
  | false => simp
  | true =>
    simp only [if_true, true_and]
    split_ifs with h
    · simp only [false_iff]; omega
    · simp only [Option.some.injEq, Prod.mk.injEq, eq_comm (b := i), eq_comm (b := f)]
      exact ⟨fun hsome => ⟨by omega, by omega, hsome⟩, fun ⟨_, _, hsome⟩ => hsome⟩

theorem toInt_ofInt_of_s32 {k : Int} (hlow : -(2 ^ 31) ≤ k) (hhigh : k ≤ 2 ^ 31 - 1) :
    (BitVec.ofInt 32 k).toInt = k := by
  rw [BitVec.toInt_ofInt]; exact Int.bmod_eq_of_le (by omega) (by omega)

/-- Settles O59: the floor and the fraction of `f32Split`, each by its own lemma. -/
theorem splitIsFloorAndRemainder : Obligations.SplitIsFloorAndRemainder := by
  intro v
  refine ⟨f32Split_eq_none_iff v, fun i f hsplit => ?_⟩
  obtain ⟨hfin, hlow, hhigh, rfl, rfl⟩ := f32Split_eq_some_iff.1 hsplit
  exact ⟨toInt_ofInt_of_s32 hlow hhigh, atMostOne_sub_floor hfin, f32Int_sub_floor_of_nonneg hfin⟩

/-! ## `lerp` at fraction +0.0 -/

/-- The operands of largest magnitude and opposite sign: their difference overflows, and +0.0 times it is a NaN. -/
theorem f32Lerp_overflow_eq_nan : f32Lerp 0xFF7FFFFF 0x7F7FFFFF 0 = f32QNaN := by decide +kernel

/-- Refutes O60: where `b - a` overflows the fraction +0.0 gives a NaN (log entry 16). -/
theorem not_lerpAtZeroFractionAnswersFirst : ¬ Obligations.LerpAtZeroFractionAnswersFirst := by
  intro h
  have hfirst := h 0xFF7FFFFF 0x7F7FFFFF (by decide) (by decide)
  rw [f32Lerp_overflow_eq_nan] at hfirst
  exact absurd hfirst (by decide)

end Sys2Proof.Machine
end

section
/-! The reference ROM (10_state.md R28, R29): a ratio of magnitude at most one, up to half a step, is a legal ROM word; the
closed forms are such ratios for every even table length, and the sine by its quarter wave. -/

namespace Sys2Proof.Machine

/-! ## Legal words -/

theorem romWordLegal_iff (w : Word) : romWordLegal w = true ↔ f32Mag w ≤ 0x3F800000 := by
  have hmask : (w &&& 0x7FFFFFFF).toNat = f32Mag w := by
    rw [BitVec.toNat_and, show (0x7FFFFFFF : Word).toNat = 2 ^ 31 - 1 from rfl, Nat.and_two_pow_sub_one_eq_mod]; rfl
  rw [romWordLegal, hmask, decide_eq_true_eq]

/-- Half a step above 1 is a tie, which goes to the even 1. -/
theorem f32RoundMag_half_step_above_one : f32RoundMag (2 ^ 149 + 2 ^ 125) 1 = 0x3F800000 := by decide +kernel

/-- A ratio at most half a step beyond `[−1, 1]` rounds to a legal word. -/
theorem romWordLegal_ofRatio {n : Int} {d : Nat} (hd : 0 < d) (h : 2 ^ 24 * n.natAbs ≤ (2 ^ 24 + 1) * d) :
    romWordLegal (f32OfRatio n d) = true := by
  rw [romWordLegal_iff, f32OfRatio, f32Mag_pack _ (f32RoundMag_lt _ _), ← f32RoundMag_half_step_above_one]
  exact f32RoundMag_mono hd Nat.one_pos (by omega)

theorem romWordLegal_ofRatio_of_le {n : Int} {d : Nat} (hd : 0 < d) (h : n.natAbs ≤ d) :
    romWordLegal (f32OfRatio n d) = true := romWordLegal_ofRatio hd (by omega)

/-! ## The closed forms -/

theorem romWordLegal_closedSawtooth {n i : Nat} (hi : i < n) : romWordLegal (closedSawtooth n i) = true :=
  romWordLegal_ofRatio_of_le (by omega) (by omega)

theorem romWordLegal_closedTriangle {n i : Nat} (hn : 2 ∣ n) (hi : i < n) :
    romWordLegal (closedTriangle n i) = true := by
  unfold closedTriangle
  split
  · exact romWordLegal_ofRatio_of_le (by omega) (by omega)
  · exact romWordLegal_ofRatio_of_le (by omega) (by omega)

theorem romWordLegal_closedSquare (n i : Nat) : romWordLegal (closedSquare n i) = true := by
  unfold closedSquare; split <;> decide

theorem tableLegal_map_range {n : Nat} {f : Nat → Word} (h : ∀ i < n, romWordLegal (f i) = true) :
    tableLegal n ((List.range n).map f) = true := by
  simpa [tableLegal] using h

/-- Three of the four closed tables are legal at every even length, so the sine decides. -/
theorem closedRom_wellFormed {n : Nat} (hn : 2 ∣ n) (hsine : ∀ i < n, romWordLegal (closedSine n i) = true) :
    (closedRom n).wellFormed n = true := by
  simp only [RomImage.wellFormed, closedRom, Bool.and_eq_true]
  exact ⟨⟨⟨tableLegal_map_range hsine, tableLegal_map_range fun i => romWordLegal_closedSawtooth⟩,
    tableLegal_map_range fun i => romWordLegal_closedTriangle hn⟩,
    tableLegal_map_range fun i _ => romWordLegal_closedSquare n i⟩

/-! ## The reference sine -/

/-- The sine of any index is one of the quarter wave, up to its sign. -/
theorem exists_fixSineQuarter_eq (i : Nat) {n : Nat} (hn : 0 < n / 4) :
    ∃ r ≤ n / 4, (fixSine i n).natAbs = (fixSineQuarter r (n / 4)).natAbs := by
  have hr : i % (n / 4) < n / 4 := Nat.mod_lt _ hn
  unfold fixSine
  dsimp only
  split
  · exact ⟨_, hr.le, rfl⟩
  · exact ⟨_, Nat.sub_le _ _, rfl⟩
  · exact ⟨_, hr.le, Int.natAbs_neg _⟩
  · exact ⟨_, Nat.sub_le _ _, Int.natAbs_neg _⟩

/-- The reference quarter wave, summed in fixed point, exceeds 1 by far less than half a step. -/
theorem fixSineQuarter_reference_le :
    ∀ r ≤ 256, 2 ^ 24 * (fixSineQuarter r 256).natAbs ≤ (2 ^ 24 + 1) * 2 ^ 256 := by decide +kernel

theorem romWordLegal_closedSine_reference (i : Nat) : romWordLegal (closedSine 1024 i) = true := by
  obtain ⟨r, hr, habs⟩ := exists_fixSineQuarter_eq i (n := 1024) (by decide)
  refine romWordLegal_ofRatio (Nat.two_pow_pos _) ?_
  rw [habs]
  exact fixSineQuarter_reference_le r hr

/-- Settles O21: the closed tables are legal in general, the sine by its quarter wave. -/
theorem referenceBuildIsLegal : Obligations.ReferenceBuildIsLegal := by
  have hrom : (closedRom 1024).wellFormed 1024 = true :=
    closedRom_wellFormed (by decide) fun i _ => romWordLegal_closedSine_reference i
  simp only [Obligations.ReferenceBuildIsLegal, Build.wellFormed, Bool.and_eq_true]
  exact ⟨⟨rfl, rfl⟩, hrom⟩

end Sys2Proof.Machine
end

section
/-! The reset state (10_state.md R41, R45): its registers, and both invariants. A reset edge leaves the same registers. -/

namespace Sys2Proof.Machine

/-! ## The register map -/

/-- READ_REG's register is the entry of the register map. -/
theorem regValue_eq_registerMap (s : State) {r : Nat} (hr : r < 31) : regValue s r = some ((registerMap s).getD r 0) := by
  interval_cases r <;> rfl

/-- The reset values of R41, PARAMS those of the build. -/
theorem registerMap_resetOf (b : Build) :
    registerMap (State.resetOf b) =
      List.replicate 19 0 ++ [0x3F800000] ++ List.replicate 6 0 ++ [0x40E00000] ++ List.replicate 2 0 ++
        [0x4D440001, paramsWord b] := by
  have hstatus : statusWord (State.resetOf b) = 0 := by simp [statusWord, State.resetOf]
  rw [registerMap, hstatus]
  rfl

/-- The coming edges and the run's record are in no register. -/
theorem registerMap_applyReset (s : State) : registerMap (applyReset s) = registerMap (State.resetOf s.build) := rfl

theorem read_buf_applyReset (s : State) (ch : Ch) (a : Nat) : ((applyReset s).dl ch).buf.read a = 0 := by
  cases ch <;> rfl

theorem step_reset {s : State} {e : Edge} {rest : List Edge} (hs : s.inputs = e :: rest) (he : e.rst = true) :
    step s = .next (applyReset { s with inputs := rest }) := by
  simp only [step, nextEdge, hs, clockEdge_reset he]

/-- Settles O8: the edge is `applyReset`, whose registers are those of the reset state. -/
theorem resetEdgeRestoresEveryRegister : Obligations.ResetEdgeRestoresEveryRegister := by
  intro s e rest hs he
  refine ⟨_, step_reset hs he, rfl, rfl, rfl, rfl, read_buf_applyReset _, ?_⟩
  rw [registerMap_applyReset, registerMap_resetOf]

/-- R40's PARAMS of LOG2_N = 10, LOG2_L = 17, CLOSED. -/
theorem paramsWord_referenceBuild : paramsWord referenceBuild = 0x0000110A := rfl

/-- Settles O9: the register map at reset, for the reference build. -/
theorem resetStateRegisterMap : Obligations.ResetStateRegisterMap := by
  intro r hr
  rw [regValue_eq_registerMap _ hr, State.reset, registerMap_resetOf, paramsWord_referenceBuild]

/-! ## The invariants -/

theorem atMostOne_zero : atMostOne 0 := ⟨by decide, by decide⟩
theorem belowOne_zero : belowOne 0 := ⟨by decide, by decide⟩

/-- Every fraction is +0.0 at reset. -/
theorem fractionsInside_resetOf (b : Build) : FractionsInside (State.resetOf b) where
  inc := atMostOne_zero
  osc := by rintro (_ | _) <;> exact belowOne_zero
  delay := by rintro (_ | _) <;> exact atMostOne_zero

/-- Settles O17: the reset states of all builds of legal sizes meet both invariants. -/
theorem invariantsHoldAtReset : Obligations.InvariantsHoldAtReset :=
  ⟨inv_resetOf (b := referenceBuild) rfl, fractionsInside_resetOf referenceBuild⟩

end Sys2Proof.Machine
end

section
/-! What a command's writes leave alone: the cursors that its rule does not name (10_state.md R26, R31, R32), and the
build. -/

namespace Sys2Proof.Machine

/-! ## The delay cursors after a delay update -/

theorem wptr_updateState_of_ne (s : State) (dst : Ch) (v : Word) {ch b : Ch} (h : ch ≠ b) :
    ((updateState s ch dst v).dl b).wptr = (s.dl b).wptr := by
  have hwrite : ((bufWrite s dst (s.dl dst).wptr v).dl b).wptr = (s.dl b).wptr := by
    unfold bufWrite; rcases Ch.eq_or_other b dst with rfl | rfl <;> simp
  rw [← hwrite, updateState, stepWrite, dl_setDl_ne _ _ _ _ h.symm]

theorem wptr_placeRead (s : State) (ch b : Ch) (d f : Word) : ((placeRead s ch d f).dl b).wptr = (s.dl b).wptr := by
  rcases Ch.eq_or_other b ch with rfl | rfl <;> simp

theorem sameRptr_updateState (s : State) (ch dst b : Ch) (v : Word) : sameRptr b s (updateState s ch dst v) := by
  cases ch <;> cases dst <;> cases b <;> exact ⟨rfl, rfl⟩

/-! ## Commands -/

theorem Commits.sameOsc {i : Instr} {s u : State} {ch : Ch} (hu : Commits s i u) (hw : writesOsc ch i = false) :
    sameOsc ch s u := by
  unfold Machine.sameOsc
  cases hu with
  | oscGen c | oscGenu c => exact osc_setOsc_ne _ _ _ _ (Ne.symm (of_decide_eq_false hw))
  | oscQuad | oscUnison => exact osc_setOsc_ne _ .quadrature _ _ (of_decide_eq_false hw)
  | modUpdate c =>
    rw [osc_updateState, modulated, osc_placeRead]
    exact osc_setOsc_ne _ _ _ _ (Ne.symm (of_decide_eq_false hw))
  | dlOfs => exact osc_placeRead ..
  | dlUpd | dlUpdx | dlUpde => exact osc_updateState ..
  | dlDrywet | setFeedback | setEffect => rw [osc_recomputeMix]; cases ch <;> rfl
  | _ => cases ch <;> rfl

theorem Commits.sameWptr {i : Instr} {s u : State} {ch : Ch} (hu : Commits s i u) (hw : writesWptr ch i = false) :
    sameWptr ch s u := by
  unfold Machine.sameWptr
  cases hu with
  | dlUpd c | dlUpdx c | dlUpde c => exact wptr_updateState_of_ne s _ _ (of_decide_eq_false hw)
  | modUpdate c => rw [wptr_updateState_of_ne _ _ _ (of_decide_eq_false hw), modulated, wptr_placeRead, dl_advance]
  | dlOfs => exact wptr_placeRead ..
  | oscGen | oscGenu => rw [dl_advance]
  | dlDrywet | setFeedback | setEffect => rw [dl_recomputeMix]; cases ch <;> rfl
  | _ => cases ch <;> rfl

theorem Commits.sameRptr {i : Instr} {s u : State} {ch : Ch} (hu : Commits s i u) (hw : writesRptr ch i = false) :
    sameRptr ch s u := by
  cases hu with
  | dlUpd | dlUpdx | dlUpde => exact sameRptr_updateState ..
  | modUpdate c =>
    obtain ⟨hrptr, hdfrac⟩ := sameRptr_updateState (modulated s c _ _) c c ch _
    unfold Machine.sameRptr
    rw [hrptr, hdfrac, modulated, placeRead, dl_setDl_ne _ _ _ _ (Ne.symm (of_decide_eq_false hw)), dl_advance]
    exact ⟨rfl, rfl⟩
  | dlOfs c =>
    unfold Machine.sameRptr
    rw [placeRead, dl_setDl_ne _ _ _ _ (Ne.symm (of_decide_eq_false hw))]
    exact ⟨rfl, rfl⟩
  | oscGen | oscGenu => unfold Machine.sameRptr; rw [dl_advance]; exact ⟨rfl, rfl⟩
  | dlDrywet | setFeedback | setEffect =>
    unfold Machine.sameRptr; rw [dl_recomputeMix]; cases ch <;> exact ⟨rfl, rfl⟩
  | _ => cases ch <;> exact ⟨rfl, rfl⟩

/-- Settles O16: a rejection moves no cursor, and neither does a commit but those that the cursor's rule names. -/
theorem cursorsMoveOnlyByTheirCommands : Obligations.CursorsMoveOnlyByTheirCommands := by
  intro i s t ch hexec
  unfold sameOsc sameWptr sameRptr
  rcases exec_next_cases hexec with ⟨code, -, rfl⟩ | ⟨code, v, u, -, hu, rfl⟩ <;> rw [osc_commit, dl_commit]
  · exact ⟨fun _ => rfl, fun _ => rfl, fun _ => ⟨rfl, rfl⟩⟩
  · exact ⟨hu.sameOsc, hu.sameWptr, hu.sameRptr⟩

theorem Commits.build_eq {i : Instr} {s u : State} (hu : Commits s i u) : u.build = s.build := by
  cases hu with
  | oscGen ch | oscGenu ch => exact build_advance s ch
  | dlOfs => exact build_placeRead ..
  | dlUpd | dlUpdx | dlUpde => exact build_updateState ..
  | modUpdate => rw [build_updateState, modulated, build_placeRead, build_advance]
  | dlDrywet | setFeedback | setEffect => exact build_recomputeMix _
  | _ => rfl

/-- Every command goes on, with the build as before. -/
theorem exists_exec_eq_next (i : Instr) (s : State) : ∃ t, exec i s = .next t ∧ t.build = s.build := by
  have hends := exec_ends i s
  generalize exec i s = r at hends
  cases hends with
  | rejected => exact ⟨_, rfl, rfl⟩
  | committed _ hu => exact ⟨_, rfl, hu.build_eq⟩

/-- What a new list of edges, the reset, the taken response, an ILLEGAL rejection and every command keep, every step keeps;
and it goes on. -/
theorem exists_step_keeps {P : State → Prop} (hinputs : ∀ s es, P s → P { s with inputs := es })
    (hreset : ∀ s, P s → P (applyReset s)) (htake : ∀ s, P s → P (takeResponse s))
    (hillegal : ∀ s, P s → P (commit .illegal 0 s)) (hexec : ∀ i s, P s → ∃ t, exec i s = .next t ∧ P t) {s : State}
    (h : P s) : ∃ t, step s = .next t ∧ P t := by
  rcases step_cases s with ⟨-, hs⟩ | ⟨e, rest, -, hedge⟩
  · exact ⟨s, hs, h⟩
  · have hin := hinputs s rest h
    rcases hedge with ⟨-, hs⟩ | ⟨-, -, hs⟩ | ⟨-, -, -, hs⟩ | ⟨-, -, c, -, ⟨x, -, hs⟩ | ⟨i, -, hs⟩⟩
    · exact ⟨_, hs, hreset _ hin⟩
    · refine ⟨_, hs, ?_⟩
      split
      · exact htake _ hin
      · exact hin
    · exact ⟨_, hs, hin⟩
    · exact ⟨_, hs, hillegal _ hin⟩
    · rw [hs]; exact hexec i _ hin

/-- Settles O20: each kind of clock edge answers a next state of the same build. -/
theorem stepKeepsBuild : Obligations.StepKeepsBuild := by
  intro s
  refine exists_step_keeps (P := fun t => t.build = s.build) (fun _ _ h => h) (fun _ h => h) (fun _ h => h)
    (fun _ h => h) (fun i t h => ?_) rfl
  obtain ⟨u, hexec, hbuild⟩ := exists_exec_eq_next i t
  exact ⟨u, hexec, hbuild.trans h⟩

end Sys2Proof.Machine
end

section
/-! The fraction invariant: the arithmetic of an advance and of `split`, then the lemmas that carry the invariant through
the writes of a command, the reset edge and the step. -/

namespace Sys2Proof.Machine

/-! ## Ranges of fractions -/

theorem belowOne_iff (x : Word) : belowOne x ↔ f32IsNaN x = false ∧ 0 ≤ f32Int x ∧ f32Int x < 2 ^ 149 := by
  have h1 : f32Int oneF = 2 ^ 149 := by decide +kernel
  have h2 : f32Int zeroF = 0 := by decide +kernel
  have h3 : f32IsNaN oneF = false := by decide +kernel
  have h4 : f32IsNaN zeroF = false := by decide +kernel
  simp only [belowOne, f32Le, f32Lt, h1, h2, h3, h4, Bool.and_eq_true, Bool.not_eq_true', decide_eq_true_eq]
  tauto

theorem belowOne.atMostOne {x : Word} (h : belowOne x) : atMostOne x := by
  obtain ⟨hnan, hlow, hhigh⟩ := (belowOne_iff x).1 h
  exact (atMostOne_iff x).2 ⟨hnan, hlow, hhigh.le⟩

theorem atMostOne.f32IsFinite {x : Word} (h : atMostOne x) : f32IsFinite x = true := by
  obtain ⟨-, hlow, hhigh⟩ := (atMostOne_iff x).1 h
  exact f32IsFinite_of_abs_le (by rw [abs_le]; omega)

/-- The fraction that `split` gives lies in `[0, 1]`. -/
theorem atMostOne_of_f32Split {v i f : Word} (h : f32Split v = some (i, f)) : atMostOne f := by
  obtain ⟨hfin, -, -, -, rfl⟩ := f32Split_eq_some_iff.1 h
  exact atMostOne_sub_floor hfin

/-- A value that is not negative, less its floor, stays below 1: the remainder is exact. -/
theorem belowOne_sub_floor {v : Word} (h : f32IsFinite v = true) (h0 : 0 ≤ f32Int v) :
    belowOne (f32Sub v (f32OfInt (f32Floor v))) := by
  rw [belowOne_iff, f32Int_sub_floor_of_nonneg h h0]
  exact ⟨f32IsNaN_add h (f32IsFinite_neg (f32IsFinite_ofInt_floor h)), Int.emod_nonneg _ (by omega),
    Int.emod_lt_of_pos _ (by omega)⟩

theorem f32Int_roundInt_two : f32Int (f32RoundInt (2 ^ 150)) = 2 ^ 150 := by decide +kernel

/-- Two values in `[0, 1]` have a finite sum that is not negative. -/
theorem f32Add_of_atMostOne {a b : Word} (ha : atMostOne a) (hb : atMostOne b) :
    f32IsFinite (f32Add a b) = true ∧ 0 ≤ f32Int (f32Add a b) := by
  have hsum := f32Int_add ha.f32IsFinite hb.f32IsFinite
  obtain ⟨-, ha0, ha1⟩ := (atMostOne_iff a).1 ha
  obtain ⟨-, hb0, hb1⟩ := (atMostOne_iff b).1 hb
  have hlow := f32Int_roundInt_mono (show 0 ≤ f32Int a + f32Int b by omega)
  have hhigh := f32Int_roundInt_mono (show f32Int a + f32Int b ≤ 2 ^ 150 by omega)
  rw [← hsum, f32Int_roundInt_zero] at hlow
  rw [← hsum, f32Int_roundInt_two] at hhigh
  exact ⟨f32IsFinite_of_abs_le (abs_le.2 ⟨by omega, hhigh⟩), hlow⟩

/-- The carry fold (R101) leaves a fraction below 1, however the fraction sum was rounded. -/
theorem belowOne_advancedCursor (b : Build) (incInt : Word) {incFrac : Word} {c : OscCursor} (hc : belowOne c.frac)
    (hinc : atMostOne incFrac) : belowOne (advancedCursor b incInt incFrac c).frac := by
  obtain ⟨hfin, h0⟩ := f32Add_of_atMostOne hc.atMostOne hinc
  simp only [advancedCursor, carryOf, hfin, if_true]
  exact belowOne_sub_floor hfin h0

/-! ## Writes that keep the invariant -/

/-- The invariant speaks of INC_FRAC, the oscillator cursors and the delay lines only. The frame hypotheses hold by
computation for a record update of other fields. -/
theorem FractionsInside.of_same {s t : State} (h : FractionsInside s) (hi : t.incFrac = s.incFrac := by rfl)
    (ho : ∀ ch, t.osc ch = s.osc ch := by rintro (_ | _) <;> rfl)
    (hd : ∀ ch, t.dl ch = s.dl ch := by rintro (_ | _) <;> rfl) : FractionsInside t where
  inc := by rw [hi]; exact h.inc
  osc := fun ch => by rw [ho]; exact h.osc ch
  delay := fun ch => by rw [hd]; exact h.delay ch

theorem FractionsInside.setOsc {s : State} (h : FractionsInside s) (ch : Ch) {c : OscCursor} (hc : belowOne c.frac) :
    FractionsInside (s.setOsc ch c) where
  inc := by rw [incFrac_setOsc]; exact h.inc
  osc := fun b => by
    rcases Ch.eq_or_other b ch with rfl | rfl
    · rwa [osc_setOsc]
    · rw [osc_setOsc_other]; exact h.osc _
  delay := fun b => by rw [dl_setOsc]; exact h.delay b

theorem FractionsInside.setDl {s : State} (h : FractionsInside s) (ch : Ch) {d : DelayChannel} (hd : atMostOne d.dfrac) :
    FractionsInside (s.setDl ch d) where
  inc := by rw [incFrac_setDl]; exact h.inc
  osc := fun b => by rw [osc_setDl]; exact h.osc b
  delay := fun b => by
    rcases Ch.eq_or_other b ch with rfl | rfl
    · rwa [dl_setDl]
    · rw [dl_setDl_other]; exact h.delay _

theorem FractionsInside.commit {s : State} (h : FractionsInside s) (code : RspCode) (v : Word) :
    FractionsInside (commit code v s) := h.of_same

theorem FractionsInside.recomputeMix {s : State} (h : FractionsInside s) : FractionsInside (recomputeMix s) :=
  h.of_same (incFrac_recomputeMix s) (osc_recomputeMix s) (dl_recomputeMix s)

theorem FractionsInside.advance {s : State} (h : FractionsInside s) (ch : Ch) : FractionsInside (advance s ch) :=
  h.setOsc ch (belowOne_advancedCursor _ _ (h.osc ch) h.inc)

theorem FractionsInside.placeRead {s : State} (h : FractionsInside s) (ch : Ch) (d : Word) {f : Word}
    (hf : atMostOne f) : FractionsInside (placeRead s ch d f) := h.setDl ch hf

theorem FractionsInside.updateState {s : State} (h : FractionsInside s) (ch dst : Ch) (v : Word) :
    FractionsInside (updateState s ch dst v) :=
  have hw : FractionsInside (bufWrite s dst (s.dl dst).wptr v) := h.setDl dst (h.delay dst)
  hw.setDl ch (hw.delay ch)

theorem FractionsInside.flush {s : State} (h : FractionsInside s) :
    FractionsInside { s with dl0 := { s.dl0 with buf := Memory.zero }, dl1 := { s.dl1 with buf := Memory.zero } } := by
  have hd : ∀ ch, atMostOne { s.dl ch with buf := Memory.zero }.dfrac := h.delay
  rw [flush_eq_setDl]
  exact (h.setDl .primary (hd .primary)).setDl .quadrature (hd .quadrature)

/-! ## Commands, and the step -/

/-- No command's writes leave the ranges: a fraction is copied, comes from `split`, or comes from the carry fold. -/
theorem Commits.keeps_fractionsInside {i : Instr} {s u : State} (hu : Commits s i u) (h : FractionsInside s) :
    FractionsInside u := by
  cases hu with
  | nop | modBypassed | readReg | readBuf | readRom => exact h
  | oscWave | oscInv | setDepth | setChorusOfs | setBypass | config | clrStatus => exact h.of_same
  | oscFreq freq i f hsplit => exact { h with inc := atMostOne_of_f32Split hsplit }
  | oscGen ch | oscGenu ch => exact h.advance ch
  | oscQuad | oscUnison => exact h.setOsc .quadrature (h.osc .primary)
  | dlOfs ch ms d f hsplit => exact h.placeRead ch d (atMostOne_of_f32Split hsplit)
  | dlUpd ch | dlUpde ch => exact h.updateState ch ch _
  | dlUpdx ch => exact h.updateState ch ch.other _
  | modUpdate ch xn d f hsplit =>
    exact ((h.advance ch).placeRead ch d (atMostOne_of_f32Split hsplit)).updateState ch ch _
  | dlFlush => exact h.flush
  | dlDrywet | setFeedback | setEffect => exact h.of_same.recomputeMix

/-- Every command keeps the fractions in their ranges, rejected or not. -/
theorem FractionsInside.exec {i : Instr} {s t : State} (h : FractionsInside s) (ht : exec i s = .next t) :
    FractionsInside t := by
  rcases exec_next_cases ht with ⟨code, -, rfl⟩ | ⟨code, v, u, -, hu, rfl⟩
  · exact h.commit code 0
  · exact (hu.keeps_fractionsInside h).commit code v

/-- Settles O19: each kind of clock edge keeps the fractions in their ranges. -/
theorem stepKeepsFractionInvariant : Obligations.StepKeepsFractionInvariant := by
  intro s t h hstep
  obtain ⟨u, hu, hinside⟩ := exists_step_keeps (P := FractionsInside) (fun _ _ h => h.of_same)
    (fun s _ => (fractionsInside_resetOf s.build).of_same) (fun _ h => h.of_same) (fun _ h => h.commit .illegal 0)
    (fun i s h => have ⟨t, hexec, _⟩ := exists_exec_eq_next i s; ⟨t, hexec, h.exec hexec⟩) h
  rw [hstep] at hu
  exact Host.Outcome.next.inj hu ▸ hinside

end Sys2Proof.Machine
end

section
/-! Noninterference of the sticky bits (10_state.md R42): every operation a command is made of gives the same value, or
the same state but for the flags, when the flags are other ones. -/

namespace Sys2Proof.Machine

/-- The state with other sticky bits and another run record. -/
def State.withFlags (s : State) (x : BitVec 5) (y : RunRecord) : State := { s with sticky := x, record := y }

/-- Two results that go on, to states that differ only in the flags. -/
def SameButFlags (r r' : Result) : Prop := ∃ t x y, r = .next t ∧ r' = .next (t.withFlags x y)

variable (s : State) (x : BitVec 5) (y : RunRecord)

/-! ## The operations -/

theorem advance_withFlags (ch : Ch) : advance (s.withFlags x y) ch = (advance s ch).withFlags x y := by
  cases ch <;> rfl

theorem placeRead_withFlags (ch : Ch) (d f : Word) :
    placeRead (s.withFlags x y) ch d f = (placeRead s ch d f).withFlags x y := by
  cases ch <;> rfl

theorem modulated_withFlags (ch : Ch) (d f : Word) :
    modulated (s.withFlags x y) ch d f = (modulated s ch d f).withFlags x y := by
  rw [modulated, advance_withFlags, placeRead_withFlags]; rfl

theorem updateState_withFlags (ch dst : Ch) (v : Word) :
    updateState (s.withFlags x y) ch dst v = (updateState s ch dst v).withFlags x y := by
  cases ch <;> cases dst <;> rfl

theorem recomputeMix_withFlags : recomputeMix (s.withFlags x y) = (recomputeMix s).withFlags x y := by
  unfold recomputeMix
  cases h : s.effect <;> simp only [State.withFlags, h]

theorem delayRead_withFlags (ch : Ch) (xn : Word) : delayRead (s.withFlags x y) ch xn = delayRead s ch xn := by
  cases ch <;> rfl

theorem unipolarSample_withFlags (ch : Ch) : unipolarSample (s.withFlags x y) ch = unipolarSample s ch := by
  cases ch <;> rfl

/-- STATUS is the only register that shows the flags. -/
theorem regValue_withFlags {r : Nat} (hr : r ≠ 0) : regValue (s.withFlags x y) r = regValue s r := by
  unfold regValue
  split
  · exact absurd rfl hr
  all_goals rfl

/-! ## The ends of a command -/

variable {s x y}

theorem SameButFlags.respond (code : RspCode) (v : Word) {u u' : State} (h : u' = u.withFlags x y) :
    SameButFlags (respond code v u) (respond code v u') := by
  subst h
  exact ⟨_, x ||| stickyBit code, noteCode y code, rfl, rfl⟩

theorem SameButFlags.reject (code : RspCode) : SameButFlags (reject code s) (reject code (s.withFlags x y)) :=
  .respond code 0 rfl

/-- A command whose check does not depend on the flags. -/
theorem SameButFlags.ite {p : Prop} [Decidable p] {r₁ r₂ r₁' r₂' : Result} (h₁ : SameButFlags r₁ r₁')
    (h₂ : SameButFlags r₂ r₂') : SameButFlags (if p then r₁ else r₂) (if p then r₁' else r₂') := by
  split
  · exact h₁
  · exact h₂

theorem SameButFlags.respondMix (code : RspCode) (v : Word) {u : State} :
    SameButFlags (Machine.respond code v (recomputeMix u)) (Machine.respond code v (recomputeMix (u.withFlags x y))) :=
  .respond code v (recomputeMix_withFlags ..)

/-- A delay update whose samples do not depend on the flags. -/
theorem SameButFlags.respondUpdate (ch dst : Ch) (xn yn v : Word) :
    SameButFlags (Machine.respond .ok (crossfade s xn yn) (updateState s ch dst v))
      (Machine.respond .ok (crossfade (s.withFlags x y) xn yn) (updateState (s.withFlags x y) ch dst v)) :=
  .respond .ok _ (updateState_withFlags ..)

theorem SameButFlags.storeIncrement (freq : Word) (p : Option (Word × Word)) :
    SameButFlags (storeIncrement freq s p) (storeIncrement freq (s.withFlags x y) p) := by
  cases p with
  | none => exact .reject .range
  | some p => exact .respond _ 0 rfl

theorem SameButFlags.storeOffset (ch : Ch) (p : Option (Word × Word)) :
    SameButFlags (storeOffset ch s p) (storeOffset ch (s.withFlags x y) p) := by
  cases p with
  | none => exact .reject .range
  | some p => exact .respond .ok 0 (placeRead_withFlags ..)

theorem SameButFlags.updateModulated (ch : Ch) (xn : Word) (p : Option (Word × Word)) :
    SameButFlags (updateModulated ch xn s p) (updateModulated ch xn (s.withFlags x y) p) := by
  cases p with
  | none => exact .reject .range
  | some p =>
    dsimp only [Machine.updateModulated]
    rw [modulated_withFlags, delayRead_withFlags]
    exact .respondUpdate ch ch xn _ _

/-! ## Commands -/

theorem sameButFlags_execSetEffect (e : Word) : SameButFlags (execSetEffect e s) (execSetEffect e (s.withFlags x y)) := by
  unfold execSetEffect
  cases effectOf e with
  | none => exact .reject .range
  | some e => exact .respondMix (x := x) (y := y) .ok 0

theorem sameButFlags_execSetBypass (b : Word) : SameButFlags (execSetBypass b s) (execSetBypass b (s.withFlags x y)) := by
  unfold execSetBypass
  cases bypassOf b with
  | none => exact .reject .range
  | some b => exact .respond .ok 0 rfl

theorem sameButFlags_execReadReg {r : Word} (hr : r ≠ 0) :
    SameButFlags (execReadReg r s) (execReadReg r (s.withFlags x y)) := by
  have h0 : r.toNat ≠ 0 := fun h => hr (BitVec.eq_of_toNat_eq h)
  unfold execReadReg
  rw [regValue_withFlags s x y h0]
  cases regValue s r.toNat with
  | none => exact .reject .range
  | some v => exact .respond .ok v rfl

theorem sameButFlags_execModUpdate (ch : Ch) (xn : Word) :
    SameButFlags (execModUpdate ch xn s) (execModUpdate ch xn (s.withFlags x y)) := by
  unfold execModUpdate
  rw [unipolarSample_withFlags]
  exact .ite (.respond .ok xn rfl) (.ite (.reject .nocfg) (.updateModulated ch xn _))

/-- Every command but a read of STATUS ends the same way, whatever the flags. -/
theorem sameButFlags_exec {i : Instr} (hi : i ≠ .readReg 0) (s : State) (x : BitVec 5) (y : RunRecord) :
    SameButFlags (exec i s) (exec i (s.withFlags x y)) := by
  cases i with
  | nop | oscWave | oscQuad | oscUnison | oscInv | dlFlush | setDepth | setChorusOfs => exact .respond _ 0 rfl
  | clrStatus m => exact .respond (x := clearSticky x m) (y := y) .ok 0 rfl
  | oscFreq freq => exact .ite (.reject .nocfg) (.storeIncrement freq _)
  | oscGen ch | oscGenu ch => cases ch <;> exact .respond .ok _ rfl
  | dlOfs ch ms => exact .ite (.reject .nocfg) (.storeOffset ch _)
  | dlUpd ch xn | dlUpdx ch xn | dlUpde ch xn ext =>
    simp only [exec, execDlUpd, execDlUpdx, execDlUpde, delayRead_withFlags]
    exact .respondUpdate _ _ xn _ _
  | dlDrywet | setFeedback => exact .respondMix (x := x) (y := y) _ 0
  | modUpdate ch xn => exact sameButFlags_execModUpdate ch xn
  | setEffect e => exact sameButFlags_execSetEffect e
  | setBypass b => exact sameButFlags_execSetBypass b
  | config fs mb => exact .ite (.respond .ok 0 rfl) (.reject .cfgbad)
  | readReg r => exact sameButFlags_execReadReg fun h => hi (congrArg _ h)
  | readBuf ch a => cases ch <;> exact .ite (.respond .ok _ rfl) (.reject .range)
  | readRom w n => exact .ite (.respond .ok _ rfl) (.reject .range)

/-- Settles O13: no operation of a command but the read of STATUS looks at the flags. -/
theorem stickyBitsNeverDecide : Obligations.StickyBitsNeverDecide :=
  fun _ s x y hi => sameButFlags_exec hi s x y

end Sys2Proof.Machine
end

section
/-! Sequences of SET_EFFECT (42_modulation.md R137): none writes a host parameter, and the last one decides the rest. -/

namespace Sys2Proof.Machine

/-! ## Runs of commands -/

theorem execAll_append (is js : List Instr) (s : State) : execAll (is ++ js) s = (execAll is s).bind (execAll js) := by
  induction is generalizing s with
  | nil => rfl
  | cons i is ih =>
    simp only [List.cons_append, execAll]
    cases exec i s with
    | next t => exact ih t
    | fault | refused => rfl

/-- What each command of a list keeps, and goes on from, the list keeps. -/
theorem exists_execAll {P : State → Prop} {is : List Instr}
    (hkeep : ∀ i ∈ is, ∀ s, P s → ∃ t, exec i s = .next t ∧ P t) {s : State} (hs : P s) :
    ∃ t, execAll is s = some t ∧ P t := by
  induction is generalizing s with
  | nil => exact ⟨s, rfl, hs⟩
  | cons i is ih =>
    obtain ⟨t, hexec, ht⟩ := hkeep i List.mem_cons_self s hs
    obtain ⟨u, hall, hu⟩ := ih (fun j hj => hkeep j (List.mem_cons_of_mem i hj)) ht
    exact ⟨u, by simp only [execAll, hexec, hall], hu⟩

theorem execAll_singleton {i : Instr} {s t : State} (h : exec i s = .next t) : execAll [i] s = some t := by
  simp only [execAll, h]

/-! ## SET_EFFECT -/

/-- The effect, its constants and the working coefficients of an effect under the host parameters. -/
def State.withEffect (s : State) (x : Effect) : State :=
  recomputeMix { s with effect := x, delta := effectDelta x, cmask := effectMask x }

theorem exec_setEffect_of_effectOf {e : Word} {x : Effect} (h : effectOf e = some x) (s : State) :
    exec (.setEffect e) s = .next (commit .ok 0 (s.withEffect x)) := by
  simp only [exec, execSetEffect, h]; rfl

theorem exists_effectOf {e : Word} (h : e.toNat < 3) : ∃ x, effectOf e = some x := by
  unfold effectOf; interval_cases e.toNat <;> exact ⟨_, rfl⟩

theorem sameParams_withEffect (s : State) (x : Effect) : sameParams s (s.withEffect x) := by
  cases x <;> exact ⟨rfl, rfl, rfl, rfl⟩

/-- SET_EFFECT goes on and keeps the host parameters, rejected or not. -/
theorem exists_exec_setEffect (e : Word) (s : State) : ∃ t, exec (.setEffect e) s = .next t ∧ sameParams s t := by
  cases h : effectOf e with
  | none => exact ⟨commit .range 0 s, by simp only [exec, execSetEffect, h, reject_eq], rfl, rfl, rfl, rfl⟩
  | some x => exact ⟨_, exec_setEffect_of_effectOf h s, sameParams_withEffect s x⟩

theorem sameParams.trans {s t u : State} (h : sameParams s t) (h' : sameParams t u) : sameParams s u := by
  obtain ⟨hw, hf, hd, hc⟩ := h
  obtain ⟨hw', hf', hd', hc'⟩ := h'
  exact ⟨hw'.trans hw, hf'.trans hf, hd'.trans hd, hc'.trans hc⟩

theorem sameParams.symm {s t : State} (h : sameParams s t) : sameParams t s := by
  obtain ⟨hw, hf, hd, hc⟩ := h
  exact ⟨hw.symm, hf.symm, hd.symm, hc.symm⟩

theorem exists_execAll_setEffects (es : List Word) (s : State) :
    ∃ t, execAll (es.map fun x => Instr.setEffect x) s = some t ∧ sameParams s t := by
  refine exists_execAll (P := sameParams s) (fun i hi t hst => ?_) ⟨rfl, rfl, rfl, rfl⟩
  obtain ⟨e, -, rfl⟩ := List.mem_map.1 hi
  obtain ⟨u, hexec, htu⟩ := exists_exec_setEffect e t
  exact ⟨u, hexec, hst.trans htu⟩

/-- The effect's registers depend on the host parameters alone. -/
theorem withEffect_of_sameParams {s t : State} (h : sameParams s t) (x : Effect) :
    sameEffect (s.withEffect x) (t.withEffect x) ∧ sameMix (s.withEffect x) (t.withEffect x) := by
  obtain ⟨hw, hf, -, -⟩ := h
  cases x <;> simp [sameEffect, sameMix, State.withEffect, recomputeMix, hw, hf]

/-- Settles O54: the SET_EFFECTs before the last keep the host parameters, which with `e` decide what the last writes. -/
theorem effectSwitchLeavesNoResidue : Obligations.EffectSwitchLeavesNoResidue := by
  intro s es e he
  obtain ⟨x, hx⟩ := exists_effectOf he
  obtain ⟨t, hall, hparams⟩ := exists_execAll_setEffects es s
  obtain ⟨heffect, hmix⟩ := withEffect_of_sameParams hparams x
  refine ⟨commit .ok 0 (t.withEffect x), commit .ok 0 (s.withEffect x), ?_,
    execAll_singleton (exec_setEffect_of_effectOf hx s), heffect, hmix, ?_, ?_⟩
  · rw [execAll_append, hall]; exact execAll_singleton (exec_setEffect_of_effectOf hx t)
  · exact (sameParams_withEffect s x).symm.trans (hparams.trans (sameParams_withEffect t x))
  · exact hparams.trans (sameParams_withEffect t x)

end Sys2Proof.Machine
end

section
/-! The exact complement of the dry/wet pair (10_state.md R37): the difference `1 - w` is off by half a step of `[1/2, 1)`
at most, and the sum rounds back to 1. -/

namespace Sys2Proof.Machine

/-- A value in `[−1, 1]` rounds to one in `[−1, 1]`. -/
theorem abs_f32Int_roundInt_le {z : Int} (h : |z| ≤ 2 ^ 149) : |f32Int (f32RoundInt z)| ≤ 2 ^ 149 :=
  abs_f32Int_roundInt_le_one (by omega)

/-- Below 1 the rounding error is at most half a step of `[1/2, 1)`, 2^-25 of one: some multiple of 2^-24 is that near. -/
theorem abs_sub_f32Int_roundInt_le {z : Int} (h : |z| ≤ 2 ^ 149) : |z - f32Int (f32RoundInt z)| ≤ 2 ^ 124 := by
  have hfin : f32IsFinite (f32RoundInt z) = true :=
    f32IsFinite_of_abs_le ((abs_f32Int_roundInt_le h).trans (by omega))
  have hnearest := nearestEven_pack (decide (z < 0)) z.natAbs Nat.one_pos hfin
  rw [signed_natAbs] at hnearest
  rw [abs_le] at h
  obtain ⟨q, hq⟩ : ∃ q, q = (z + 2 ^ 124) / 2 ^ 125 := ⟨_, rfl⟩
  have hval : IsF32Value (2 ^ 125 * q) :=
    isF32Value_of_natAbs_eq (r := q.natAbs) (t := 125) (by rw [Int.natAbs_mul, mul_comm]; rfl) (by omega) (by omega)
  have hnear := (hnearest _ hval.f32IsFinite_roundInt).1
  rw [hval.f32Int_roundInt, Nat.cast_one, one_mul, one_mul] at hnear
  exact hnear.trans (abs_le.2 (by omega))

/-- 1.0 is the one pattern of its value. -/
theorem eq_one_of_f32Int {x : Word} (h : f32Int x = 2 ^ 149) : x = 0x3F800000 := by
  have hunits : f32Units x = f32MagUnits 0x3F800000 := by
    rw [← natAbs_f32Int, h]; decide +kernel
  have hsign : f32Sign x = false := by
    cases hneg : f32Sign x with
    | false => rfl
    | true => simp only [f32Int_eq_signed, hneg, signed, if_true] at h; omega
  rw [← f32Pack_self x, hsign, f32MagUnits_inj.1 hunits]
  rfl

/-- What lies within 2^-25 of 1 rounds to 1: below 1 the tie goes to the even 1. -/
theorem f32Int_roundInt_near_one {z : Int} (h : |z - 2 ^ 149| ≤ 2 ^ 124) : f32Int (f32RoundInt z) = 2 ^ 149 := by
  have hlow : f32Int (f32RoundInt (2 ^ 149 - 2 ^ 124)) = 2 ^ 149 := by decide +kernel
  have hhigh : f32Int (f32RoundInt (2 ^ 149 + 2 ^ 124)) = 2 ^ 149 := by decide +kernel
  rw [abs_le] at h
  have h1 := f32Int_roundInt_mono (show 2 ^ 149 - 2 ^ 124 ≤ z by omega)
  have h2 := f32Int_roundInt_mono (show z ≤ 2 ^ 149 + 2 ^ 124 by omega)
  omega

theorem f32Add_sub_one_self {w : Word} (h : atMostOne w) : f32Add (f32Sub oneF w) w = 0x3F800000 := by
  have hone : f32Int oneF = 2 ^ 149 := by decide +kernel
  obtain ⟨-, h0, h1⟩ := (atMostOne_iff w).1 h
  have hbound : |2 ^ 149 - f32Int w| ≤ 2 ^ 149 := by rw [abs_le]; omega
  have hdry : f32Int (f32Sub oneF w) = f32Int (f32RoundInt (2 ^ 149 - f32Int w)) := by
    rw [f32Sub, f32Int_add (by decide) (f32IsFinite_neg h.f32IsFinite), hone, f32Int_neg, sub_eq_add_neg]
  have hfin : f32IsFinite (f32Sub oneF w) = true :=
    f32IsFinite_of_abs_le (by rw [hdry]; exact (abs_f32Int_roundInt_le hbound).trans (by omega))
  have herr := abs_le.1 (abs_sub_f32Int_roundInt_le hbound)
  refine eq_one_of_f32Int ?_
  rw [f32Int_add hfin h.f32IsFinite, hdry]
  exact f32Int_roundInt_near_one (abs_le.2 (by omega))

/-- Under vibrato the pair is constant, under the other effects it is `1 - P_DRYWET` and `P_DRYWET`. -/
theorem f32Add_dry_wet {t : State} (h : mixConsistent t) (hw : atMostOne t.pDryWet) :
    f32Add t.dry t.wet = 0x3F800000 := by
  unfold mixConsistent at h
  split at h <;> obtain ⟨hwet, hdry, -⟩ := h <;> rw [hdry, hwet]
  · decide +kernel
  · exact f32Add_sub_one_self hw

/-- Settles O56: `recompute_mix` leaves the pair consistent, and a consistent pair is complementary. -/
theorem dryPlusWetIsOne : Obligations.DryPlusWetIsOne := by
  intro s w h0 h1
  have hw : atMostOne (recomputeMix { s with pDryWet := w }).pDryWet := by rw [pDryWet_recomputeMix]; exact ⟨h0, h1⟩
  exact ⟨_, rfl, f32Add_dry_wet (mixConsistent_recomputeMix _) hw⟩

end Sys2Proof.Machine
end

section
/-! The closed tables (10_state.md R29): their ratios need at most 17 bits over a power of two, so no word is rounded. -/

namespace Sys2Proof.Machine

/-! ## Exact ratios -/

/-- A ratio whose value a binary32 holds is not rounded. -/
theorem f32Int_ofRatio_exact {n z : Int} {d : Nat} (hd : 0 < d) (hz : IsF32Value z) (h : z * d = n * 2 ^ 149) :
    f32Int (f32OfRatio n d) = z := by
  obtain ⟨m, hm, habs⟩ := hz
  have hnum : 2 ^ 149 * n.natAbs = d * f32MagUnits m := by
    have := congrArg Int.natAbs h
    rw [Int.natAbs_mul, Int.natAbs_mul, habs, Int.natAbs_natCast] at this
    rw [mul_comm, mul_comm d, this]; rfl
  have hneg : n < 0 ↔ z < 0 := by
    constructor <;> intro hlt <;> by_contra hge
    · have := mul_nonneg (not_lt.1 hge) (Int.natCast_nonneg d); omega
    · have := mul_neg_of_neg_of_pos hlt (Int.natCast_pos.2 hd); omega
  rw [f32OfRatio, hnum, f32RoundMag_exact hd hm.le, f32Int_pack_eq_signed _ (hm.trans f32InfMag_lt), ← habs,
    decide_eq_decide.2 hneg, signed_natAbs]

/-- A fraction of a table length that is at most 1 in magnitude is exact. -/
theorem f32Int_ofRatio_two_pow {n : Int} {k : Nat} (hk : k ≤ 16) (hn : n.natAbs ≤ 2 ^ k) :
    f32Int (f32OfRatio n (2 ^ k)) * 2 ^ k = n * 2 ^ 149 := by
  have hpow : (2 : Int) ^ (149 - k) * 2 ^ k = 2 ^ 149 := by rw [← pow_add]; congr 1; omega
  have hz : (n * 2 ^ (149 - k)).natAbs = n.natAbs * 2 ^ (149 - k) := by
    rw [Int.natAbs_mul, Int.natAbs_pow]; rfl
  have hbits : n.natAbs ≤ 2 ^ 16 := hn.trans (Nat.pow_le_pow_right (by decide) hk)
  have hsmall : n.natAbs * 2 ^ (149 - k) ≤ 2 ^ 16 * 2 ^ 149 :=
    Nat.mul_le_mul hbits (Nat.pow_le_pow_right (by decide) (Nat.sub_le _ _))
  have hval : IsF32Value (n * 2 ^ (149 - k)) := isF32Value_of_natAbs_eq hz (by omega) (by omega)
  rw [f32Int_ofRatio_exact (Nat.two_pow_pos k) hval (by rw [Nat.cast_pow, Nat.cast_ofNat, mul_assoc, hpow]), mul_assoc,
    hpow]

/-! ## The tables -/

theorem tableWord_closedBuild_of_map {k l w i : Nat} {f : Nat → Word} (hi : i < 2 ^ k)
    (hf : romTable (closedRom (2 ^ k)) w = (List.range (2 ^ k)).map f) : tableWord (closedBuild k l) w i = f i := by
  have hmod : i % (closedBuild k l).tableLen = i := Nat.mod_eq_of_lt hi
  change (romTable (closedRom (2 ^ k)) w).getD _ 0 = _
  rw [hmod, hf]
  simp [hi]

/-- Settles O22: the sawtooth and the triangle are exact ratios, and the square is 1 or −1. -/
theorem closedTablesAreExact : Obligations.ClosedTablesAreExact := by
  intro k l i hk2 hk16 hi
  have hhalf : 2 * (2 ^ k / 2) = 2 ^ k := Nat.mul_div_cancel' (dvd_pow_self 2 (by omega))
  refine ⟨?_, ?_, ?_⟩
  · rw [tableWord_closedBuild_of_map (f := closedSawtooth (2 ^ k)) hi rfl, closedSawtooth,
      f32Int_ofRatio_two_pow hk16 (by omega)]
    push_cast; rfl
  · rw [tableWord_closedBuild_of_map (f := closedTriangle (2 ^ k)) hi rfl, closedTriangle]
    split
    · rw [f32Int_ofRatio_two_pow hk16 (by omega)]; push_cast; rfl
    · rw [f32Int_ofRatio_two_pow hk16 (by omega)]; push_cast; rfl
  · rw [tableWord_closedBuild_of_map (f := closedSquare (2 ^ k)) hi rfl, closedSquare]
    split <;> decide +kernel

end Sys2Proof.Machine
end

section
/-! The unipolar range (40_oscillator.md R108): the remap is monotone, so its ends bound it; and the samples of a legal ROM
stay in range along a run, since an advance keeps what their range depends on. -/

namespace Sys2Proof.Machine

/-! ## The remap -/

theorem f32Le_iff (a b : Word) :
    f32Le a b = true ↔ f32IsNaN a = false ∧ f32IsNaN b = false ∧ f32Int a ≤ f32Int b := by
  simp [f32Le, and_assoc]

theorem bipolar.f32IsFinite {x : Word} (h : bipolar x) : f32IsFinite x = true :=
  f32IsFinite_of_abs_le (((bipolar_iff x).1 h).2.trans (by omega))

/-- A monotone map of magnitudes that fixes 0 is monotone on signed values. -/
theorem signed_mono {g : Nat → Nat} (hg : Monotone g) (h0 : g 0 = 0) {p q : Bool} {m n : Nat}
    (h : signed p m ≤ signed q n) : signed p (g m) ≤ signed q (g n) := by
  cases p <;> cases q <;> simp only [signed, if_true, Bool.false_eq_true, if_false] at h ⊢
  · exact_mod_cast hg (by omega)
  · obtain ⟨rfl, rfl⟩ : m = 0 ∧ n = 0 := by omega
    simp [h0]
  · omega
  · have := hg (show n ≤ m by omega); omega

/-- Multiplication by a value whose sign bit is 0 is monotone. -/
theorem f32Int_mul_mono {a b c : Word} (ha : f32IsFinite a = true) (hb : f32IsFinite b = true)
    (hc : f32IsFinite c = true) (hsign : f32Sign c = false) (h : f32Int a ≤ f32Int b) :
    f32Int (f32Mul a c) ≤ f32Int (f32Mul b c) := by
  have hmono : Monotone fun u => f32MagUnits (f32RoundMag (u * f32Units c) (2 ^ 149)) := fun u v huv =>
    f32MagUnits_le_iff.2 (f32RoundMag_mono (Nat.two_pow_pos _) (Nat.two_pow_pos _)
      (Nat.mul_le_mul_right _ (Nat.mul_le_mul_right _ huv)))
  have hzero : f32MagUnits (f32RoundMag (0 * f32Units c) (2 ^ 149)) = 0 := by
    rw [Nat.zero_mul, f32RoundMag_zero (Nat.two_pow_pos _), f32MagUnits_zero]
  rw [f32Mul_eq ha hc, f32Mul_eq hb hc, f32Int_pack_eq_signed _ (f32RoundMag_lt ..),
    f32Int_pack_eq_signed _ (f32RoundMag_lt ..), hsign, Bool.bne_false, Bool.bne_false]
  exact signed_mono hmono hzero h

theorem bipolar_neg_one : bipolar 0xBF800000 := ⟨by decide +kernel, by decide +kernel⟩
theorem bipolar_one : bipolar 0x3F800000 := ⟨by decide +kernel, by decide +kernel⟩

theorem remapped_eq (x : Word) : remapped x = f32Add (f32Mul x halfF) halfF := rfl

/-- In `[−1, 1]` the half of a value rises with it. -/
theorem f32Int_mul_half_mono {x y : Word} (hx : bipolar x) (hy : bipolar y) (h : f32Int x ≤ f32Int y) :
    f32Int (f32Mul x halfF) ≤ f32Int (f32Mul y halfF) :=
  f32Int_mul_mono hx.f32IsFinite hy.f32IsFinite (by decide) (by decide) h

theorem bipolar.bounds {x : Word} (h : bipolar x) :
    f32Int 0xBF800000 ≤ f32Int x ∧ f32Int x ≤ f32Int 0x3F800000 :=
  ⟨((f32Le_iff _ _).1 h.1).2.2, ((f32Le_iff _ _).1 h.2).2.2⟩

theorem f32IsFinite_mul_half {x : Word} (h : bipolar x) : f32IsFinite (f32Mul x halfF) = true := by
  have hlow := f32Int_mul_half_mono bipolar_neg_one h h.bounds.1
  have hhigh := f32Int_mul_half_mono h bipolar_one h.bounds.2
  have e1 : f32Int (f32Mul 0xBF800000 halfF) = -2 ^ 148 := by decide +kernel
  have e2 : f32Int (f32Mul 0x3F800000 halfF) = 2 ^ 148 := by decide +kernel
  exact f32IsFinite_of_abs_le (abs_le.2 (by omega))

theorem f32IsNaN_remapped {x : Word} (h : bipolar x) : f32IsNaN (remapped x) = false :=
  f32IsNaN_add (f32IsFinite_mul_half h) (by decide)

theorem f32Int_remapped_mono {x y : Word} (hx : bipolar x) (hy : bipolar y) (h : f32Int x ≤ f32Int y) :
    f32Int (remapped x) ≤ f32Int (remapped y) := by
  have hmul := f32Int_mul_half_mono hx hy h
  rw [remapped_eq, remapped_eq, f32Int_add (f32IsFinite_mul_half hx) (by decide),
    f32Int_add (f32IsFinite_mul_half hy) (by decide)]
  exact f32Int_roundInt_mono (Int.add_le_add_right hmul _)

/-- The remap takes −1 to 0 and 1 to 1. -/
theorem atMostOne_remapped {x : Word} (h : bipolar x) : atMostOne (remapped x) := by
  have hlow := f32Int_remapped_mono bipolar_neg_one h h.bounds.1
  have hhigh := f32Int_remapped_mono h bipolar_one h.bounds.2
  have e1 : f32Int (remapped 0xBF800000) = 0 := by decide +kernel
  have e2 : f32Int (remapped 0x3F800000) = 2 ^ 149 := by decide +kernel
  exact (atMostOne_iff _).2 ⟨f32IsNaN_remapped h, by omega, by omega⟩

/-! ## The samples of a run -/

/-- What the range of a sample depends on: a legal ROM, fractions in their ranges, a polarity mask of the sign bit. -/
structure SamplesInRange (s : State) : Prop where
  build : s.build.wellFormed = true
  fractions : FractionsInside s
  polMask : s.polMask = 0 ∨ s.polMask = 0x80000000

theorem SamplesInRange.sizesLegal {s : State} (h : SamplesInRange s) : s.build.sizesLegal = true := by
  have := h.build
  simp only [Build.wellFormed, Bool.and_eq_true] at this
  exact this.1.1

theorem bipolar_neg {x : Word} (h : bipolar x) : bipolar (f32Neg x) := by
  rw [bipolar_iff] at h ⊢
  rwa [f32Int_neg, abs_neg, f32IsNaN, f32Mag_neg]

theorem bipolar_tableSample {s : State} (h : SamplesInRange s) (ch : Ch) : bipolar (tableSample s ch) := by
  have hlerp := fun w m n => f32Lerp_bipolar (tableWord_bipolar h.build w m) (tableWord_bipolar h.build w n)
    (h.fractions.osc ch).atMostOne
  unfold tableSample
  rcases h.polMask with hp | hp <;> rw [hp]
  · simpa only [BitVec.ofNat_eq_ofNat, BitVec.xor_zero] using hlerp _ _ _
  · exact bipolar_neg (hlerp _ _ _)

theorem exec_oscGen (ch : Ch) {s : State} (h : s.build.sizesLegal = true) :
    exec (.oscGen ch) s = .next (commit .ok (tableSample s ch) (advance s ch)) := by
  rw [← bipolarSample_eq h]; rfl

theorem exec_oscGenu (ch : Ch) {s : State} (h : s.build.sizesLegal = true) :
    exec (.oscGenu ch) s = .next (commit .ok (remapped (tableSample s ch)) (advance s ch)) := by
  rw [← bipolarSample_eq h]; rfl

theorem SamplesInRange.oscGenu {s : State} (h : SamplesInRange s) (ch : Ch) :
    ∃ t, exec (.oscGenu ch) s = .next t ∧ SamplesInRange t := by
  refine ⟨_, exec_oscGenu ch h.sizesLegal, ?_, (h.fractions.advance ch).commit .ok _, ?_⟩
  · rw [build_commit, build_advance]; exact h.build
  · rw [polMask_commit, polMask_advance]; exact h.polMask

/-- Settles O37: the remap by its monotonicity, the samples by what every OSC_GENU keeps. -/
theorem unipolarRemapIsMonotone : Obligations.UnipolarRemapIsMonotone := by
  refine ⟨fun x y hx hxy hy => ?_, fun s ch n hbuild hfractions hpol => ?_⟩
  · obtain ⟨hnegone, hnx, hlow⟩ := (f32Le_iff _ _).1 hx
    obtain ⟨hny, hone, hhigh⟩ := (f32Le_iff _ _).1 hy
    obtain ⟨-, -, hle⟩ := (f32Le_iff _ _).1 hxy
    have hbx : bipolar x := ⟨hx, (f32Le_iff _ _).2 ⟨hnx, hone, hle.trans hhigh⟩⟩
    have hby : bipolar y := ⟨(f32Le_iff _ _).2 ⟨hnegone, hny, hlow.trans hle⟩, hy⟩
    exact ⟨(atMostOne_remapped hbx).1,
      (f32Le_iff _ _).2 ⟨f32IsNaN_remapped hbx, f32IsNaN_remapped hby, f32Int_remapped_mono hbx hby hle⟩,
      (atMostOne_remapped hby).2⟩
  · have hkeep : ∀ i ∈ List.replicate n (Instr.oscGenu ch), ∀ s, SamplesInRange s →
        ∃ t, exec i s = .next t ∧ SamplesInRange t := fun i hi s hs => by
      rw [List.eq_of_mem_replicate hi]; exact hs.oscGenu ch
    obtain ⟨t, hall, ht⟩ := exists_execAll hkeep ⟨hbuild, hfractions, hpol⟩
    have hsample := bipolar_tableSample ht ch
    exact ⟨t, _, _, hall, exec_oscGen ch ht.sizesLegal, rfl, hsample, exec_oscGenu ch ht.sizesLegal, rfl,
      atMostOne_remapped hsample⟩

end Sys2Proof.Machine
end

section
/-! The memory rules (20_memory.md): a repeated observation read finds what it found (R56), and a channel's buffer keeps
its words under every command that R48 does not name as its writer. -/

namespace Sys2Proof.Machine

/-! ## A response given twice -/

theorem noteCode_noteCode (r : RunRecord) (code : RspCode) : noteCode (noteCode r code) code = noteCode r code := by
  cases h : codeRejects code <;> simp [noteCode, h]

/-- The STATUS bit of a code is sticky and the record notes a code once, so the second commit adds nothing. -/
theorem commit_commit (code : RspCode) (v : Word) (s : State) : commit code v (commit code v s) = commit code v s := by
  simp only [commit, BitVec.or_assoc, BitVec.or_self, noteCode_noteCode]

/-- A command that only answers, and answers the same once its answer is given, is idempotent. -/
theorem exists_repeated_answer {i : Instr} {s : State} {code : RspCode} {v : Word}
    (hfirst : exec i s = .next (commit code v s))
    (hagain : exec i (commit code v s) = .next (commit code v (commit code v s))) :
    ∃ t, exec i s = .next t ∧ exec i t = .next t ∧ sameCore s t :=
  ⟨_, hfirst, by rw [hagain, commit_commit], sameCore_commit code v s⟩

/-! ## The observation reads -/

/-- STATUS too is as before: OK sets no bit of it. -/
theorem regValue_commit_ok (s : State) (v : Word) (r : Nat) : regValue (commit .ok v s) r = regValue s r := by
  have hcommit : commit .ok v s = { s with rsp := some ⟨.ok, v⟩ } := by simp only [commit, or_stickyBit_ok, noteCode_ok]
  rw [hcommit]
  rfl

/-- Which numbers are unassigned is the same in every state; register 0, which shows the code, is assigned. -/
theorem regValue_commit_of_none {s : State} {r : Nat} (h : regValue s r = none) (code : RspCode) (v : Word) :
    regValue (commit code v s) r = none := by
  have hr : r ≠ 0 := by rintro rfl; cases h
  exact (regValue_withFlags { s with rsp := some ⟨code, v⟩ } _ _ hr).trans h

theorem exec_readReg_of_some {s : State} {r v : Word} (h : regValue s r.toNat = some v) :
    exec (.readReg r) s = .next (commit .ok v s) := by
  simp only [exec, execReadReg, h, respond_eq]

theorem exec_readReg_of_none {s : State} {r : Word} (h : regValue s r.toNat = none) :
    exec (.readReg r) s = .next (commit .range 0 s) := by
  simp only [exec, execReadReg, h, reject_eq]

theorem exec_readBuf_of_lt {s : State} {a : Word} (h : a.toNat < s.build.bufLen) (ch : Ch) :
    exec (.readBuf ch a) s = .next (commit .ok ((s.dl ch).buf.read a.toNat) s) := if_pos h

theorem exec_readBuf_of_not_lt {s : State} {a : Word} (h : ¬ a.toNat < s.build.bufLen) (ch : Ch) :
    exec (.readBuf ch a) s = .next (commit .range 0 s) := if_neg h

theorem exec_readRom_of_lt {s : State} {w n : Word} (h : w.toNat < 4 ∧ n.toNat < s.build.tableLen) :
    exec (.readRom w n) s = .next (commit .ok (romRead s.build w.toNat n) s) := if_pos h

theorem exec_readRom_of_not_lt {s : State} {w n : Word} (h : ¬ (w.toNat < 4 ∧ n.toNat < s.build.tableLen)) :
    exec (.readRom w n) s = .next (commit .range 0 s) := if_neg h

theorem exists_repeated_readReg (r : Word) (s : State) :
    ∃ t, exec (.readReg r) s = .next t ∧ exec (.readReg r) t = .next t ∧ sameCore s t := by
  cases h : regValue s r.toNat with
  | none => exact exists_repeated_answer (exec_readReg_of_none h) (exec_readReg_of_none (regValue_commit_of_none h ..))
  | some v =>
    exact exists_repeated_answer (exec_readReg_of_some h) (exec_readReg_of_some ((regValue_commit_ok ..).trans h))

theorem exists_repeated_readBuf (ch : Ch) (a : Word) (s : State) :
    ∃ t, exec (.readBuf ch a) s = .next t ∧ exec (.readBuf ch a) t = .next t ∧ sameCore s t := by
  by_cases h : a.toNat < s.build.bufLen
  · refine exists_repeated_answer (exec_readBuf_of_lt h ch) ?_
    rw [exec_readBuf_of_lt (s := commit ..) h, dl_commit]
  · exact exists_repeated_answer (exec_readBuf_of_not_lt h ch) (exec_readBuf_of_not_lt (s := commit ..) h ch)

theorem exists_repeated_readRom (w n : Word) (s : State) :
    ∃ t, exec (.readRom w n) s = .next t ∧ exec (.readRom w n) t = .next t ∧ sameCore s t := by
  by_cases h : w.toNat < 4 ∧ n.toNat < s.build.tableLen
  · exact exists_repeated_answer (exec_readRom_of_lt h) (exec_readRom_of_lt (s := commit ..) h)
  · exact exists_repeated_answer (exec_readRom_of_not_lt h) (exec_readRom_of_not_lt (s := commit ..) h)

/-- Settles O14: whether it answers OK or RANGE, no read depends on what its own response left. -/
theorem observationReadsAreIdempotent : Obligations.ObservationReadsAreIdempotent := by
  rintro i s (⟨r, rfl⟩ | ⟨ch, a, rfl⟩ | ⟨w, n, rfl⟩)
  · exact exists_repeated_readReg r s
  · exact exists_repeated_readBuf ch a s
  · exact exists_repeated_readRom w n s

/-! ## The buffers -/

/-- An update stores into its destination's buffer only, whichever channel's cursor it moves. -/
theorem buf_updateState_of_ne (s : State) (ch : Ch) (v : Word) {dst b : Ch} (h : b ≠ dst) :
    ((updateState s ch dst v).dl b).buf = (s.dl b).buf := by
  have hstep (u : State) : ((stepWrite u ch).dl b).buf = (u.dl b).buf := by
    unfold stepWrite; rcases Ch.eq_or_other b ch with rfl | rfl <;> simp
  rw [updateState, hstep, bufWrite, dl_setDl_ne _ _ _ _ h]

theorem buf_placeRead (s : State) (ch b : Ch) (d f : Word) : ((placeRead s ch d f).dl b).buf = (s.dl b).buf := by
  rcases Ch.eq_or_other b ch with rfl | rfl <;> simp

theorem Commits.buf_eq {i : Instr} {s u : State} {ch : Ch} (hu : Commits s i u) (hw : writesBuf ch i = false) :
    (u.dl ch).buf = (s.dl ch).buf := by
  cases hu with
  | dlUpd c | dlUpde c => exact buf_updateState_of_ne s _ _ (Ne.symm (of_decide_eq_false hw))
  | dlUpdx c =>
    obtain rfl : c = ch := not_not.mp (of_decide_eq_false hw)
    exact buf_updateState_of_ne s _ _ (Ch.ne_other c)
  | dlFlush => cases hw
  | modUpdate c =>
    rw [buf_updateState_of_ne _ _ _ (Ne.symm (of_decide_eq_false hw)), modulated, buf_placeRead, dl_advance]
  | dlOfs => exact buf_placeRead ..
  | oscGen | oscGenu => rw [dl_advance]
  | dlDrywet | setFeedback | setEffect => rw [dl_recomputeMix]; cases ch <;> rfl
  | _ => cases ch <;> rfl

/-- Settles O15: a rejection keeps every word, and so does a commit but those of the buffer's writers. -/
theorem buffersWrittenOnlyByTheirCommands : Obligations.BuffersWrittenOnlyByTheirCommands := by
  intro i s t ch hw hexec
  apply sameBuf_of_eq
  rcases exec_next_cases hexec with ⟨code, -, rfl⟩ | ⟨code, v, u, -, hu, rfl⟩ <;> rw [dl_commit]
  exact hu.buf_eq hw

end Sys2Proof.Machine
end

section
/-! The decoder and the encoder agree (30_encoding.md R75 to R80): a command decodes to `i` exactly when, its unused
data words cleared, it is the encoding of `i`. The round trip, the don't-care words and the opcode map follow from that. -/

namespace Sys2Proof.Machine

/-! ## The fields of CTRL -/

theorem toNat_opcode (c : Command) : c.opcode.toNat = c.ctrl.toNat % 256 := by
  simp [Command.opcode]

theorem toNat_chBit (c : Command) : c.chBit.toNat = c.ctrl.toNat / 256 % 2 := Nat.toNat_testBit c.ctrl.toNat 8

theorem toNat_reserved (c : Command) : c.reserved.toNat = c.ctrl.toNat / 512 := by
  simp only [Command.reserved, BitVec.extractLsb'_toNat, Nat.shiftRight_eq_div_pow]
  omega

theorem ctrlPlain_eq (op : BitVec 8) : ctrlPlain op = ctrlChannel op .primary := BitVec.or_zero.symm

/-- The opcode and `CH << 8` share no bit, so the `|` of R75 is a sum. -/
theorem toNat_ctrlChannel (op : BitVec 8) (ch : Ch) : (ctrlChannel op ch).toNat = 256 * ch.bit.toNat + op.toNat := by
  have hop : (op.setWidth 32).toNat = op.toNat := BitVec.toNat_setWidth_of_le (by decide)
  have hch : (if ch.bit then 0x100 else 0 : Word).toNat = 2 ^ 8 * ch.bit.toNat := by cases ch <;> rfl
  rw [ctrlChannel, BitVec.toNat_or, hop, hch, Nat.or_comm, ← Nat.two_pow_add_eq_or_of_lt op.isLt]

@[simp] theorem opcode_ctrlChannel (op : BitVec 8) (ch : Ch) (d0 d1 : Word) :
    Command.opcode ⟨ctrlChannel op ch, d0, d1⟩ = op := by
  apply BitVec.eq_of_toNat_eq
  rw [toNat_opcode, toNat_ctrlChannel]
  omega

@[simp] theorem chBit_ctrlChannel (op : BitVec 8) (ch : Ch) (d0 d1 : Word) :
    Command.chBit ⟨ctrlChannel op ch, d0, d1⟩ = ch.bit := by
  cases ch <;> simp [Command.chBit, ctrlChannel, Ch.bit]

@[simp] theorem reserved_ctrlChannel (op : BitVec 8) (ch : Ch) (d0 d1 : Word) :
    Command.reserved ⟨ctrlChannel op ch, d0, d1⟩ = 0 := by
  apply BitVec.eq_of_toNat_eq
  have hbit := ch.bit.toNat_lt
  rw [toNat_reserved, toNat_ctrlChannel]
  exact Nat.div_eq_of_lt (by omega)

@[simp] theorem opcode_ctrlPlain (op : BitVec 8) (d0 d1 : Word) : Command.opcode ⟨ctrlPlain op, d0, d1⟩ = op := by
  rw [ctrlPlain_eq, opcode_ctrlChannel]

@[simp] theorem chBit_ctrlPlain (op : BitVec 8) (d0 d1 : Word) : Command.chBit ⟨ctrlPlain op, d0, d1⟩ = false := by
  rw [ctrlPlain_eq, chBit_ctrlChannel, Ch.bit]

@[simp] theorem reserved_ctrlPlain (op : BitVec 8) (d0 d1 : Word) : Command.reserved ⟨ctrlPlain op, d0, d1⟩ = 0 := by
  rw [ctrlPlain_eq, reserved_ctrlChannel]

@[simp] theorem bit_ofBit (b : Bool) : (Ch.ofBit b).bit = b := by cases b <;> rfl

/-- With no reserved bit set, CTRL is its opcode and its CH bit. -/
theorem ctrl_eq_ctrlChannel {c : Command} (h : c.reserved = 0) : c.ctrl = ctrlChannel c.opcode (Ch.ofBit c.chBit) := by
  apply BitVec.eq_of_toNat_eq
  have hrsv : c.ctrl.toNat / 512 = 0 := by rw [← toNat_reserved, h]; rfl
  rw [toNat_ctrlChannel, bit_ofBit, toNat_opcode, toNat_chBit]
  omega

theorem ctrl_eq_of_opcode {c : Command} {n : Nat} (hr : c.reserved = 0) (hop : c.opcode.toNat = n) :
    c.ctrl = ctrlChannel (BitVec.ofNat 8 n) (Ch.ofBit c.chBit) := by
  rw [← hop, BitVec.ofNat_toNat, BitVec.setWidth_eq]
  exact ctrl_eq_ctrlChannel hr

/-! ## The encoding a command holds -/

/-- `c` with each data word that `i` does not use assembled as 0 (R76, R94). -/
def clearUnused (i : Instr) (c : Command) : Command where
  ctrl := c.ctrl
  data0 := if usesData0 i then c.data0 else 0
  data1 := if usesData1 i then c.data1 else 0

theorem clearUnused_encode (i : Instr) : clearUnused i (encode i) = encode i := by cases i <;> rfl

theorem clearUnused_data0 {i : Instr} (h : usesData0 i = false) (c : Command) (d : Word) :
    clearUnused i { c with data0 := d } = clearUnused i c := by
  simp [clearUnused, h]

theorem clearUnused_data1 {i : Instr} (h : usesData1 i = false) (c : Command) (d : Word) :
    clearUnused i { c with data1 := d } = clearUnused i c := by
  simp [clearUnused, h]

/-! ## What is accepted is encoded -/

/-- Whatever the decoder's answer `r` accepts is the command that `c` encodes. -/
def SoundFor (c : Command) (r : Except Illegal Instr) : Prop := ∀ i, r = .ok i → clearUnused i c = encode i

theorem soundFor_error (c : Command) (x : Illegal) : SoundFor c (.error x) := fun _ h => nomatch h

theorem soundFor_onChannel {c : Command} {n : Nat} {f : Ch → Instr} (hr : c.reserved = 0) (hop : c.opcode.toNat = n)
    (henc : ∀ ch, clearUnused (f ch) ⟨ctrlChannel (BitVec.ofNat 8 n) ch, c.data0, c.data1⟩ = encode (f ch)) :
    SoundFor c (onChannel c f) := by
  rintro _ ⟨⟩
  rw [← henc, ← ctrl_eq_of_opcode hr hop]

theorem soundFor_noChannel {c : Command} {n : Nat} {i : Instr} (hr : c.reserved = 0) (hop : c.opcode.toNat = n)
    (henc : clearUnused i ⟨ctrlPlain (BitVec.ofNat 8 n), c.data0, c.data1⟩ = encode i) :
    SoundFor c (noChannel c i) := by
  unfold noChannel
  split
  · exact soundFor_error c _
  · next hch =>
    have hctrl := ctrl_eq_of_opcode hr hop
    rw [Bool.eq_false_of_not_eq_true hch, Ch.ofBit, ← ctrlPlain_eq] at hctrl
    rintro _ ⟨⟩
    rw [← henc, ← hctrl]

/-- Row by row of the opcode map: the forms with CH, the unassigned opcodes, the forms without CH. -/
theorem soundFor_decodeOpcode {c : Command} (hr : c.reserved = 0) : SoundFor c (decodeOpcode c) := by
  unfold decodeOpcode
  split
  case h_4 | h_5 | h_9 | h_10 | h_11 | h_12 | h_15 | h_23 =>
    exact soundFor_onChannel hr ‹c.opcode.toNat = _› fun _ => rfl
  case h_26 => exact soundFor_error c _
  all_goals exact soundFor_noChannel hr ‹c.opcode.toNat = _› rfl

theorem soundFor_decode (c : Command) : SoundFor c (decode c) := by
  unfold decode
  split
  · exact soundFor_error c _
  · next hr => exact soundFor_decodeOpcode (not_not.mp hr)

/-! ## What is encoded is accepted -/

@[simp] theorem decode_ctrlPlain (op : BitVec 8) (d0 d1 : Word) :
    decode ⟨ctrlPlain op, d0, d1⟩ = decodeOpcode ⟨ctrlPlain op, d0, d1⟩ := by
  simp [decode]

@[simp] theorem decode_ctrlChannel (op : BitVec 8) (ch : Ch) (d0 d1 : Word) :
    decode ⟨ctrlChannel op ch, d0, d1⟩ = decodeOpcode ⟨ctrlChannel op ch, d0, d1⟩ := by
  simp [decode]

@[simp] theorem noChannel_ctrlPlain (op : BitVec 8) (d0 d1 : Word) (i : Instr) :
    noChannel ⟨ctrlPlain op, d0, d1⟩ i = .ok i := by
  simp [noChannel]

@[simp] theorem onChannel_ctrlChannel (op : BitVec 8) (ch : Ch) (d0 d1 : Word) (f : Ch → Instr) :
    onChannel ⟨ctrlChannel op ch, d0, d1⟩ f = .ok (f ch) := by
  simp [onChannel]

/-- By the data words that the form uses (R77): CTRL and the used words determine the command. -/
theorem decode_of_clearUnused_eq {c : Command} {i : Instr} (h : clearUnused i c = encode i) : decode c = .ok i := by
  obtain ⟨ctrl, d0, d1⟩ := c
  obtain rfl : ctrl = (encode i).ctrl := congrArg Command.ctrl h
  have h0 : (if usesData0 i then d0 else 0) = (encode i).data0 := congrArg Command.data0 h
  have h1 : (if usesData1 i then d1 else 0) = (encode i).data1 := congrArg Command.data1 h
  cases i with
  | nop | oscQuad | oscUnison | oscInv | dlFlush | oscGen | oscGenu => simp [encode, decodeOpcode]
  | oscFreq | oscWave | dlOfs | dlUpd | dlUpdx | dlDrywet | modUpdate | setDepth | setFeedback | setChorusOfs
  | setEffect | setBypass | readReg | readBuf | clrStatus =>
    cases h0
    simp [encode, decodeOpcode]
  | dlUpde | config | readRom =>
    cases h0; cases h1
    simp [encode, decodeOpcode]

theorem decode_eq_ok_iff (c : Command) (i : Instr) : decode c = .ok i ↔ clearUnused i c = encode i :=
  ⟨soundFor_decode c i, decode_of_clearUnused_eq⟩

/-- Settles O1: an encoding has its unused words cleared already. -/
theorem decodeInvertsEncode : Obligations.DecodeInvertsEncode := fun i =>
  (decode_eq_ok_iff (encode i) i).mpr (clearUnused_encode i)

/-- Settles O3: clearing the unused words forgets what they held. -/
theorem unusedWordsAreIgnored : Obligations.UnusedWordsAreIgnored := by
  intro c i d h
  simp only [decode_eq_ok_iff] at h ⊢
  exact ⟨fun h0 => (clearUnused_data0 h0 c d).trans h, fun h1 => (clearUnused_data1 h1 c d).trans h⟩

/-! ## The opcode map -/

theorem wellFormed_encode (i : Instr) : (encode i).wellFormed = true := by
  cases i with
  | nop => exact Laws.EncodedWordIsLegal.nop
  | oscFreq freq => exact Laws.EncodedWordIsLegal.oscFreq freq
  | oscWave sel => exact Laws.EncodedWordIsLegal.oscWave sel
  | oscGen ch => exact Laws.EncodedWordIsLegal.oscGen ch
  | oscGenu ch => exact Laws.EncodedWordIsLegal.oscGenu ch
  | oscQuad => exact Laws.EncodedWordIsLegal.oscQuad
  | oscUnison => exact Laws.EncodedWordIsLegal.oscUnison
  | oscInv => exact Laws.EncodedWordIsLegal.oscInv
  | dlOfs ch ms => exact Laws.EncodedWordIsLegal.dlOfs ch ms
  | dlUpd ch xn => exact Laws.EncodedWordIsLegal.dlUpd ch xn
  | dlUpdx ch xn => exact Laws.EncodedWordIsLegal.dlUpdx ch xn
  | dlUpde ch xn ext => exact Laws.EncodedWordIsLegal.dlUpde ch xn ext
  | dlDrywet w => exact Laws.EncodedWordIsLegal.dlDrywet w
  | dlFlush => exact Laws.EncodedWordIsLegal.dlFlush
  | modUpdate ch xn => exact Laws.EncodedWordIsLegal.modUpdate ch xn
  | setDepth v => exact Laws.EncodedWordIsLegal.setDepth v
  | setFeedback v => exact Laws.EncodedWordIsLegal.setFeedback v
  | setChorusOfs v => exact Laws.EncodedWordIsLegal.setChorusOfs v
  | setEffect e => exact Laws.EncodedWordIsLegal.setEffect e
  | setBypass b => exact Laws.EncodedWordIsLegal.setBypass b
  | config fs mb => exact Laws.EncodedWordIsLegal.config fs mb
  | readReg r => exact Laws.EncodedWordIsLegal.readReg r
  | readBuf ch a => exact Laws.EncodedWordIsLegal.readBuf ch a
  | readRom w n => exact Laws.EncodedWordIsLegal.readRom w n
  | clrStatus m => exact Laws.EncodedWordIsLegal.clrStatus m

/-- Only CTRL decides legality, so an accepted command is as legal as the encoding it holds. -/
theorem wellFormed_of_decode_eq_ok {c : Command} {i : Instr} (h : decode c = .ok i) : c.wellFormed = true := by
  have hlegal := wellFormed_encode i
  rw [← (decode_eq_ok_iff c i).mp h] at hlegal
  exact hlegal

/-- A row without CH matches its opcode alone. -/
theorem eq_of_matchesWord_plain {op ctrl : Word} (h : (OpcodeRow.plain op).matchesWord ctrl = true) : ctrl = op :=
  calc ctrl = ctrl &&& 0xFFFFFFFF := BitVec.and_allOnes.symm
    _ = op := eq_of_beq h

/-- A row with CH matches its opcode under either value of bit 8. -/
theorem eq_or_eq_of_matchesWord_channel {op ctrl : Word} (h : (OpcodeRow.channel op).matchesWord ctrl = true) :
    ctrl = op ∨ ctrl = op ||| 0x100 := by
  have hsplit : ctrl = op ||| ctrl &&& 0x100 :=
    calc ctrl = ctrl &&& (0xFFFFFEFF ||| 0x100) := BitVec.and_allOnes.symm
      _ = ctrl &&& 0xFFFFFEFF ||| ctrl &&& 0x100 := BitVec.and_or_distrib_left
      _ = op ||| ctrl &&& 0x100 := congrArg (· ||| ctrl &&& 0x100) (eq_of_beq h)
  have hbit : ctrl &&& 0x100 = if ctrl.getLsbD 8 then 0x100 else 0 := BitVec.and_twoPow ctrl 8
  rw [hbit] at hsplit
  split at hsplit
  · exact .inr hsplit
  · exact .inl (hsplit.trans BitVec.or_zero)

theorem exists_decode_of_isOk {c : Command} (h : (decode c).isOk = true) : ∃ i, decode c = .ok i := by
  cases hd : decode c with
  | ok i => exact ⟨i, rfl⟩
  | error x => rw [hd] at h; cases h

theorem isOk_noChannel (c : Command) (i : Instr) : (noChannel c i).isOk = !c.chBit := by
  unfold noChannel; cases c.chBit <;> rfl

theorem isOk_onChannel (c : Command) (f : Ch → Instr) : (onChannel c f).isOk = true := rfl

/-- CTRL alone decides whether a command is accepted. -/
theorem isOk_decode_eq (c : Command) : (decode c).isOk = (decode ⟨c.ctrl, 0, 0⟩).isOk := by
  have hop : Command.opcode ⟨c.ctrl, 0, 0⟩ = c.opcode := rfl
  have hch : Command.chBit ⟨c.ctrl, 0, 0⟩ = c.chBit := rfl
  have hrsv : Command.reserved ⟨c.ctrl, 0, 0⟩ = c.reserved := rfl
  simp only [decode, decodeOpcode, hop, hrsv]
  split
  · rfl
  · generalize c.opcode.toNat = n
    split <;> simp only [isOk_noChannel, isOk_onChannel, hch]

theorem isOk_decode_plain : (plainOpcodes.all fun op => (decode ⟨op, 0, 0⟩).isOk) = true := by decide

theorem isOk_decode_channel :
    (channelOpcodes.all fun op => (decode ⟨op, 0, 0⟩).isOk && (decode ⟨op ||| 0x100, 0, 0⟩).isOk) = true := by decide

theorem isOk_decode_of_wellFormed {c : Command} (h : c.wellFormed = true) : (decode c).isOk = true := by
  rw [isOk_decode_eq]
  obtain ⟨row, hrow, hmatch⟩ := List.any_eq_true.mp h
  rcases List.mem_append.mp hrow with hplain | hchannel
  · obtain ⟨op, hop, rfl⟩ := List.mem_map.mp hplain
    rw [eq_of_matchesWord_plain hmatch]
    exact List.all_eq_true.mp isOk_decode_plain op hop
  · obtain ⟨op, hop, rfl⟩ := List.mem_map.mp hchannel
    obtain ⟨hprimary, hquadrature⟩ := Bool.and_eq_true_iff.mp (List.all_eq_true.mp isOk_decode_channel op hop)
    rcases eq_or_eq_of_matchesWord_channel hmatch with hctrl | hctrl <;> rw [hctrl]
    · exact hprimary
    · exact hquadrature

/-- Settles O2: an accepted command is an encoding, whose CTRL is a row's, and each row's words are accepted. -/
theorem decoderAcceptsExactlyOpcodeMap : Obligations.DecoderAcceptsExactlyOpcodeMap := fun _ =>
  ⟨fun ⟨_, h⟩ => wellFormed_of_decode_eq_ok h, fun h => exists_decode_of_isOk (isOk_decode_of_wellFormed h)⟩

/-- Settles O4: the decoder evaluated on each word. -/
theorem listedWordsDecode : Obligations.ListedWordsDecode :=
  ⟨rfl, rfl, rfl, rfl, rfl, rfl, rfl, rfl, rfl⟩

end Sys2Proof.Machine
end

section
/-! One clock edge without reset (30_encoding.md R70, R71, R147), and the response that every command ends with. -/

namespace Sys2Proof.Machine

/-! ## The edge -/

theorem step_eq_clockEdge {s : State} {e : Edge} {rest : List Edge} (hs : s.inputs = e :: rest) :
    step s = clockEdge e { s with inputs := rest } := by
  simp only [step, nextEdge, hs]

/-- An offered command is accepted when no response waits (R70). -/
theorem step_accept {s : State} {e : Edge} {rest : List Edge} {c : Command} (hs : s.inputs = e :: rest)
    (he : e.rst = false) (hc : e.cmd = some c) (hrsp : s.rsp = none) : step s = accept c { s with inputs := rest } := by
  rw [step_eq_clockEdge hs]
  exact clockEdge_accept he hrsp hc

theorem accept_of_decode_eq_ok {c : Command} {i : Instr} (h : decode c = .ok i) (s : State) :
    accept c s = exec i s := by
  simp only [accept, h]

theorem accept_of_decode_eq_error {c : Command} {x : Illegal} (h : decode c = .error x) (s : State) :
    accept c s = .next (commit .illegal 0 s) := by
  simp only [accept, h, reject_eq]

/-- Settles O5: no response waits, so the offered command is accepted. -/
theorem stepRunsDecodedCommand : Obligations.StepRunsDecodedCommand := by
  intro s e rest c i hs he hc hrsp hdec
  rw [step_accept hs he hc hrsp, accept_of_decode_eq_ok hdec]

/-- Settles O6: the rejection is of the state with the edge consumed, whose core is that of the state before. -/
theorem illegalCommandIsRejected : Obligations.IllegalCommandIsRejected := by
  intro s e rest c x hs he hc hrsp hdec
  refine ⟨commit .illegal 0 { s with inputs := rest }, ?_, ?_, rfl, rfl⟩
  · rw [step_accept hs he hc hrsp, accept_of_decode_eq_error hdec]
  · exact rejectedWith_commit .illegal { s with inputs := rest }

/-- A response is taken or held, and no command is accepted (R70, R71). -/
theorem step_pending {s : State} {e : Edge} {rest : List Edge} {r : Response} (hs : s.inputs = e :: rest)
    (he : e.rst = false) (hrsp : s.rsp = some r) :
    step s = .next (if e.rspReady then takeResponse { s with inputs := rest } else { s with inputs := rest }) :=
  (step_eq_clockEdge hs).trans (clockEdge_pending (r := r) he hrsp)

/-- Settles O7: a response that is held is the one that waited. -/
theorem pendingResponseBlocksCommands : Obligations.PendingResponseBlocksCommands := by
  intro s e rest r hs he hrsp
  rw [step_pending hs he hrsp]
  cases e.rspReady with
  | true => rfl
  | false => rw [← hrsp]; rfl

/-! ## The response -/

/-- The host's edges and the run's record are no command's to write: only its end notes the code. -/
theorem Commits.inputs_record_eq {i : Instr} {s u : State} (hu : Commits s i u) :
    u.inputs = s.inputs ∧ u.record = s.record := by
  cases hu with
  | oscGen ch | oscGenu ch => exact ⟨inputs_advance s ch, record_advance s ch⟩
  | dlOfs => exact ⟨inputs_placeRead .., record_placeRead ..⟩
  | dlUpd | dlUpdx | dlUpde => exact ⟨inputs_updateState .., record_updateState ..⟩
  | modUpdate => simp [modulated]
  | dlDrywet | setFeedback | setEffect => exact ⟨inputs_recomputeMix _, record_recomputeMix _⟩
  | _ => exact ⟨rfl, rfl⟩

/-- Settles O10: both ways a command ends are commits. -/
theorem everyCommandAnswersOnce : Obligations.EveryCommandAnswersOnce := by
  intro i s
  have hends := exec_ends i s
  generalize exec i s = result at hends
  cases hends with
  | rejected => exact ⟨_, _, rfl, rfl, rfl, rfl, rfl⟩
  | @committed code v u _ hu =>
    obtain ⟨hinputs, hrecord⟩ := hu.inputs_record_eq
    exact ⟨commit code v u, ⟨code, v⟩, rfl, rfl, hu.build_eq, hinputs, congrArg (noteCode · code) hrecord⟩

end Sys2Proof.Machine
end

section
/-! The oscillator commands (40_oscillator.md R97 to R106, R110): the writes of each are to one channel's cursor or to the
registers that both channels share, and two channels with equal fractions advance by the same number of words. -/

namespace Sys2Proof.Machine

/-! ## Frames -/

/-- `t` is `s` but for channel `ch`'s oscillator cursor, the sticky bits and the response. -/
def writesCursorOnly (ch : Ch) (s t : State) : Prop :=
  sameOsc ch.other s t ∧ sameConfig s t ∧ sameWave s t ∧ sameDelays s t ∧ sameCoord s t

/-- `t` is `s` but for the oscillator registers that both channels share, the sticky bits and the response. -/
def writesWaveOnly (s t : State) : Prop := sameConfig s t ∧ sameOscs s t ∧ sameDelays s t ∧ sameCoord s t

theorem answers_commit {s u : State} (code : RspCode) (v : Word) (h : u.sticky = s.sticky) :
    answers code v s (commit code v u) :=
  ⟨rfl, congrArg (· ||| stickyBit code) h⟩

theorem writesCursorOnly_commit_setOsc (code : RspCode) (v : Word) (s : State) (ch : Ch) (c : OscCursor) :
    writesCursorOnly ch s (commit code v (s.setOsc ch c)) := by
  have hosc : sameOsc ch.other s (commit code v (s.setOsc ch c)) := by simp [sameOsc]
  have hdelays : sameDelays s (commit code v (s.setOsc ch c)) := fun b => sameDelay_of_eq (by simp)
  exact ⟨hosc, by simp [sameConfig], by simp [sameWave], hdelays,
    by simp [sameCoord, sameMix, sameParams, sameEffect]⟩

theorem writesWaveOnly_commit (code : RspCode) (v : Word) (s : State) (w : Waveform) (r i f p : Word) :
    writesWaveOnly s
      (commit code v { s with waveSel := w, rate := r, incInt := i, incFrac := f, polMask := p }) := by
  refine ⟨⟨rfl, rfl, rfl, rfl⟩, ?_, fun b => sameDelay_of_eq ?_,
    ⟨⟨rfl, rfl, rfl⟩, ⟨rfl, rfl, rfl, rfl⟩, ⟨rfl, rfl, rfl⟩, rfl⟩⟩
  · rintro (_ | _) <;> rfl
  · cases b <;> rfl

/-! ## OSC_GEN and OSC_GENU -/

/-- What the two generate commands share: the answer is of the state before the advance, which moves one cursor. -/
theorem commit_advance_spec {s : State} {ch : Ch} (v : Word) (hs : s.build.sizesLegal = true)
    (hf : f32IsFinite (fractionSum s ch) = true) :
    answers .ok v s (commit .ok v (advance s ch)) ∧ advancesOsc ch s (commit .ok v (advance s ch)) ∧
      writesCursorOnly ch s (commit .ok v (advance s ch)) := by
  refine ⟨answers_commit .ok v (sticky_advance s ch), ?_, writesCursorOnly_commit_setOsc ..⟩
  unfold advancesOsc
  rw [osc_commit]
  exact advancesOsc_advance hs hf

/-- Settles O32: the sample is the table's by `exec_oscGen`. -/
theorem oscGenAnswersSampleAndAdvances : Obligations.OscGenAnswersSampleAndAdvances := fun _ ch hs hf =>
  ⟨_, exec_oscGen ch hs, commit_advance_spec _ hs hf⟩

/-- Settles O33: as O32, with the remapped sample of `exec_oscGenu`. -/
theorem oscGenuAnswersUnipolarSample : Obligations.OscGenuAnswersUnipolarSample := fun _ ch hs hf =>
  ⟨_, exec_oscGenu ch hs, commit_advance_spec _ hs hf⟩

/-! ## The polarity flip -/

theorem f32Neg_eq_pack (y : Word) : f32Neg y = f32Pack (!f32Sign y) (f32Mag y) := by
  rw [← f32Sign_neg, ← f32Mag_neg, f32Pack_self]

theorem f32IsFinite_or_isInf {y : Word} (h : f32IsNaN y = false) : f32IsFinite y = true ∨ f32IsInf y = true := by
  simp only [f32IsNaN, f32IsFinite, f32IsInf, decide_eq_true_eq, decide_eq_false_iff_not] at *; omega

theorem f32Sign_neg_one : f32Sign 0xBF800000 = true := by decide
theorem f32Units_neg_one : f32Units 0xBF800000 = 2 ^ 149 := by decide +kernel

/-- The product of a finite value with −1 needs no rounding. -/
theorem f32Mul_neg_one_of_finite {y : Word} (h : f32IsFinite y = true) : f32Mul y 0xBF800000 = f32Neg y := by
  have hmag : f32RoundMag (f32Units y * 2 ^ 149) (2 ^ 149) = f32Mag y := by
    rw [Nat.mul_comm]
    exact f32RoundMag_exact (Nat.two_pow_pos 149) (of_decide_eq_true h).le
  rw [f32Mul_eq h (by decide), f32Units_neg_one, hmag, f32Neg_eq_pack, f32Sign_neg_one, Bool.bne_true]

/-- An infinity times a value that is no NaN and no zero is an infinity. -/
theorem f32Mul_of_isInf {a b : Word} (ha : f32IsInf a = true) (hb : f32IsNaN b = false) (h0 : f32Units b ≠ 0) :
    f32Mul a b = f32Pack (f32Sign a != f32Sign b) f32InfMag := by
  have hmag : f32Mag a = f32InfMag := of_decide_eq_true ha
  have hnan : f32IsNaN a = false := by simp [f32IsNaN, hmag]
  have hunits : f32Units a ≠ 0 := by rw [f32Units, hmag]; decide +kernel
  simp [f32Mul, hnan, hb, ha, hunits, h0]

theorem f32Mul_neg_one_of_isInf {y : Word} (h : f32IsInf y = true) : f32Mul y 0xBF800000 = f32Neg y := by
  have hmag : f32Mag y = f32InfMag := of_decide_eq_true h
  rw [f32Mul_of_isInf h (by decide) (by rw [f32Units_neg_one]; exact (Nat.two_pow_pos 149).ne'), f32Neg_eq_pack, hmag,
    f32Sign_neg_one, Bool.bne_true]

/-- Settles O36: a value that is no NaN is finite or an infinity. -/
theorem polarityFlipIsNegation : Obligations.PolarityFlipIsNegation := by
  intro y hnan
  rcases f32IsFinite_or_isInf hnan with h | h
  · exact f32Mul_neg_one_of_finite h
  · exact f32Mul_neg_one_of_isInf h

/-! ## OSC_QUAD and OSC_UNISON -/

theorem toNat_quarterLen {b : Build} (h : b.sizesLegal = true) : (quarterLen b).toNat = b.tableLen / 4 := by
  have hle : b.tableLen ≤ 2 ^ 16 := Nat.pow_le_pow_right (by decide) (sizes_log2N_le h)
  rw [quarterLen, BitVec.toNat_ofNat]
  exact Nat.mod_eq_of_lt (by omega)

/-- A masked sum is the remainder of the sum of the numbers. -/
theorem toNat_add_and_maskN {b : Build} (h : b.sizesLegal = true) (x y : Word) :
    ((x + y) &&& maskN b).toNat = (x.toNat + y.toNat) % b.tableLen := by
  rw [toNat_and_maskN h, BitVec.toNat_add, Nat.mod_mod_of_dvd _ (tableLen_dvd h)]

/-- Channel 1's fraction is channel 0's, and its index is a quarter table ahead modulo N. -/
structure InQuadrature (s : State) : Prop where
  frac : (s.osc .quadrature).frac = (s.osc .primary).frac
  idx : (s.osc .quadrature).idx.toNat = ((s.osc .primary).idx.toNat + s.build.tableLen / 4) % s.build.tableLen

theorem exec_oscQuad (s : State) :
    exec .oscQuad s = .next (commit .ok 0 (s.setOsc .quadrature
      ⟨((s.osc .primary).idx + quarterLen s.build) &&& maskN s.build, (s.osc .primary).frac⟩)) := rfl

theorem exec_oscUnison (s : State) :
    exec .oscUnison s = .next (commit .ok 0 (s.setOsc .quadrature (s.osc .primary))) := rfl

theorem exists_exec_oscQuad {s : State} (hs : s.build.sizesLegal = true) :
    ∃ t, exec .oscQuad s = .next t ∧ answers .ok 0 s t ∧ InQuadrature t ∧ writesCursorOnly .quadrature s t := by
  refine ⟨_, exec_oscQuad s, answers_commit .ok 0 rfl, ⟨rfl, ?_⟩, writesCursorOnly_commit_setOsc ..⟩
  have hidx := toNat_add_and_maskN hs (s.osc .primary).idx (quarterLen s.build)
  rwa [toNat_quarterLen hs] at hidx

/-- Settles O34: both commands write channel 1's cursor alone. -/
theorem quadAndUnisonSetPhase : Obligations.QuadAndUnisonSetPhase := by
  refine fun s => ⟨fun hs => ?_, _, exec_oscUnison s, answers_commit .ok 0 rfl, rfl,
    writesCursorOnly_commit_setOsc ..⟩
  obtain ⟨t, hexec, hanswers, ⟨hfrac, hidx⟩, hframe⟩ := exists_exec_oscQuad hs
  have ⟨hosc, ⟨hbuild, _⟩, _⟩ := hframe
  have hprimary : t.osc .primary = s.osc .primary := hosc
  rw [hprimary] at hfrac
  rw [hprimary, hbuild] at hidx
  exact ⟨t, hexec, hanswers, hidx, hfrac, hframe⟩

/-! ## The quadrature relation along a run -/

theorem frac_advancedCursor_congr (b : Build) (i f : Word) {c d : OscCursor} (hfrac : d.frac = c.frac) :
    (advancedCursor b i f d).frac = (advancedCursor b i f c).frac := by
  simp only [advancedCursor, hfrac]

/-- Cursors with equal fractions take the same carry, so their distance stays the same modulo N. -/
theorem toNat_idx_advancedCursor_of_ahead {b : Build} (hb : b.sizesLegal = true) (i f : Word) {c d : OscCursor}
    {k : Nat} (hfrac : d.frac = c.frac) (hidx : d.idx.toNat = (c.idx.toNat + k) % b.tableLen) :
    (advancedCursor b i f d).idx.toNat = ((advancedCursor b i f c).idx.toNat + k) % b.tableLen := by
  simp only [advancedCursor, hfrac, BitVec.add_assoc, toNat_add_and_maskN hb, hidx]
  rw [Nat.mod_add_mod, Nat.mod_add_mod, Nat.add_right_comm]

/-- The invariant of a run of build `b` that starts with OSC_QUAD and advances both channels equally often. -/
structure QuadratureRun (b : Build) (s : State) : Prop where
  build : s.build = b
  quadrature : InQuadrature s

/-- One OSC_GEN on each channel advances both cursors, by the same increment. -/
theorem exists_execAll_genPair (s : State) :
    ∃ t, execAll [.oscGen .primary, .oscGen .quadrature] s = some t ∧ t.build = s.build ∧
      ∀ ch, t.osc ch = advancedCursor s.build s.incInt s.incFrac (s.osc ch) := by
  refine ⟨_, rfl, rfl, ?_⟩
  rintro (_ | _) <;> rfl

/-- One OSC_GEN on each channel keeps the relation. -/
theorem QuadratureRun.genPair {b : Build} (hb : b.sizesLegal = true) {s : State} (h : QuadratureRun b s) :
    ∃ t, execAll [.oscGen .primary, .oscGen .quadrature] s = some t ∧ QuadratureRun b t := by
  obtain ⟨rfl, hfrac, hidx⟩ := h
  obtain ⟨t, hall, hbuild, hosc⟩ := exists_execAll_genPair s
  refine ⟨t, hall, hbuild, ?_, ?_⟩ <;> rw [hosc, hosc]
  · exact frac_advancedCursor_congr _ _ _ hfrac
  · rw [hbuild]; exact toNat_idx_advancedCursor_of_ahead hb _ _ hfrac hidx

/-- What a list of commands keeps, and goes on from, any number of repetitions of the list keeps. -/
theorem exists_execAll_flatten_replicate {P : State → Prop} {is : List Instr}
    (hkeep : ∀ s, P s → ∃ t, execAll is s = some t ∧ P t) (n : Nat) {s : State} (hs : P s) :
    ∃ t, execAll (List.replicate n is).flatten s = some t ∧ P t := by
  induction n generalizing s with
  | zero => exact ⟨s, rfl, hs⟩
  | succ n ih =>
    obtain ⟨t, hall, ht⟩ := hkeep s hs
    obtain ⟨u, hrest, hu⟩ := ih ht
    exact ⟨u, by rw [List.replicate_succ, List.flatten_cons, execAll_append, hall]; exact hrest, hu⟩

/-- Settles O38: OSC_QUAD gives the relation, and each pair of OSC_GENs keeps it. -/
theorem quadratureRelationIsKept : Obligations.QuadratureRelationIsKept := by
  intro s n hs
  obtain ⟨t, hquad, -, hrel, -, ⟨hbuild, -⟩, -⟩ := exists_exec_oscQuad hs
  obtain ⟨u, hall, hubuild, hfrac, hidx⟩ :=
    exists_execAll_flatten_replicate (fun _ h => QuadratureRun.genPair hs h) n ⟨hbuild, hrel⟩
  rw [hubuild] at hidx
  exact ⟨u, by simp only [execAll, hquad]; exact hall, hfrac, hidx⟩

/-! ## OSC_FREQ, OSC_WAVE and OSC_INV -/

theorem exec_oscFreq_of_not_cfgValid {s : State} (h : s.cfgValid = false) (freq : Word) :
    exec (.oscFreq freq) s = .next (commit .nocfg 0 s) := by
  simp [exec, execOscFreq, h]

theorem exec_oscFreq_of_cfgValid {s : State} (h : s.cfgValid = true) (freq : Word) :
    exec (.oscFreq freq) s = storeIncrement freq s (incrementSplit s freq) := by
  simp [exec, execOscFreq, h]

/-- Settles O30: the gate, then the two outcomes of the split. -/
theorem oscFreqStoresIncrement : Obligations.OscFreqStoresIncrement := by
  refine fun s freq => ⟨fun hcfg => ?_, fun hcfg hsplit => ?_, fun i f hcfg hsplit => ?_⟩
  · exact ⟨_, exec_oscFreq_of_not_cfgValid hcfg freq, rejectedWith_commit .nocfg s⟩
  · have hexec := exec_oscFreq_of_cfgValid hcfg freq
    rw [incrementSplit, phaseIncrement, hsplit] at hexec
    exact ⟨_, hexec, rejectedWith_commit .range s⟩
  · have hexec := exec_oscFreq_of_cfgValid hcfg freq
    rw [incrementSplit, phaseIncrement, hsplit] at hexec
    exact ⟨_, hexec, answers_commit _ 0 rfl, rfl, rfl, rfl, rfl, rfl, writesWaveOnly_commit ..⟩

theorem waveformNum_waveformOf (sel : Word) :
    waveformNum (waveformOf sel) = if sel.toNat < 4 then sel.toNat else 0 := by
  unfold waveformOf
  split_ifs with hlt
  · interval_cases sel.toNat <;> rfl
  · split
    case h_4 => rfl
    all_goals omega

/-- Settles O31: OSC_WAVE writes WAVESEL alone, of the selector's number. -/
theorem oscWaveSelectsTable : Obligations.OscWaveSelectsTable := fun s sel =>
  ⟨_, rfl, answers_commit .ok 0 rfl, waveformNum_waveformOf sel, rfl, rfl, rfl, rfl,
    writesWaveOnly_commit .ok 0 s (waveformOf sel) ..⟩

theorem msb_xor_polSign (m : Word) : (m ^^^ polSign).msb = !m.msb := f32Sign_neg m

theorem getLsbD_xor_polSign (m : Word) {k : Nat} (hk : k < 31) : (m ^^^ polSign).getLsbD k = m.getLsbD k := by
  have hclear : ∀ j < 31, polSign.getLsbD j = false := by decide
  rw [BitVec.getLsbD_xor, hclear k hk, Bool.xor_false]

theorem xor_polSign_xor_polSign (m : Word) : m ^^^ polSign ^^^ polSign = m := by
  rw [BitVec.xor_assoc, BitVec.xor_self, BitVec.xor_zero]

theorem exec_oscInv (s : State) :
    exec .oscInv s = .next (commit .ok 0 { s with polMask := s.polMask ^^^ polSign }) := rfl

/-- Settles O35: OSC_INV writes POLMASK alone, and flips its bit 31. -/
theorem oscInvTogglesPolarity : Obligations.OscInvTogglesPolarity := by
  intro s
  obtain ⟨hconfig, hoscs, hdelays, hcoord⟩ :=
    writesWaveOnly_commit .ok 0 s s.waveSel s.rate s.incInt s.incFrac (s.polMask ^^^ polSign)
  exact ⟨_, _, exec_oscInv s, answers_commit .ok 0 rfl, msb_xor_polSign _, fun _ => getLsbD_xor_polSign _,
    rfl, rfl, rfl, rfl, hconfig, hoscs, hdelays, hcoord, exec_oscInv _, xor_polSign_xor_polSign _⟩

end Sys2Proof.Machine
end

section
/-! The delay-line commands (41_delay_line.md R111 to R121): what an update does to the two channels, said once for the
three commands that make one, then the placement of the read cursor, the dry/wet pair and the flush. -/

namespace Sys2Proof.Machine

/-! ## Frames -/

/-- `t` is `s` but for the two delay lines, the sticky bits and the response. -/
def writesDelayLinesOnly (s t : State) : Prop := sameConfig s t ∧ sameWave s t ∧ sameOscs s t ∧ sameCoord s t

theorem writesDelayLinesOnly_commit (code : RspCode) (v : Word) (s : State) :
    writesDelayLinesOnly s (commit code v s) :=
  have ⟨hconfig, hwave, hoscs, _, hcoord⟩ := sameCore_commit code v s
  ⟨hconfig, hwave, hoscs, hcoord⟩

theorem writesDelayLinesOnly_commit_setDl {s u : State} {code : RspCode} {v : Word}
    (h : writesDelayLinesOnly s (commit code v u)) (ch : Ch) (d : DelayChannel) :
    writesDelayLinesOnly s (commit code v (u.setDl ch d)) := by
  cases ch <;> exact h

theorem writesDelayLinesOnly_commit_placeRead (code : RspCode) (v : Word) (s : State) (ch : Ch) (d f : Word) :
    writesDelayLinesOnly s (commit code v (placeRead s ch d f)) :=
  writesDelayLinesOnly_commit_setDl (writesDelayLinesOnly_commit code v s) ch _

theorem writesDelayLinesOnly_commit_updateState (code : RspCode) (y : Word) (s : State) (ch dst : Ch) (v : Word) :
    writesDelayLinesOnly s (commit code y (updateState s ch dst v)) :=
  writesDelayLinesOnly_commit_setDl
    (writesDelayLinesOnly_commit_setDl (writesDelayLinesOnly_commit code y s) dst _) ch _

theorem writesDelayLinesOnly_commit_flush (code : RspCode) (v : Word) (s : State) :
    writesDelayLinesOnly s
      (commit code v { s with dl0 := { s.dl0 with buf := Memory.zero }, dl1 := { s.dl1 with buf := Memory.zero } }) := by
  rw [flush_eq_setDl]
  exact writesDelayLinesOnly_commit_setDl
    (writesDelayLinesOnly_commit_setDl (writesDelayLinesOnly_commit code v s) _ _) _ _

/-! ## An update of channel `ch` that stores in channel `dst`'s buffer -/

theorem wptr_updateState (s : State) (ch dst : Ch) (v : Word) :
    ((updateState s ch dst v).dl ch).wptr = ((s.dl ch).wptr + 1) &&& maskL s.build := by
  rcases Ch.eq_or_other dst ch with rfl | rfl
  · rw [dl_updateState_own]
  · rw [dl_updateState_cross]

theorem buf_updateState (s : State) (ch dst : Ch) (v : Word) :
    ((updateState s ch dst v).dl dst).buf = (s.dl dst).buf.write (storeAddr s dst) v := by
  rcases Ch.eq_or_other dst ch with rfl | rfl
  · rw [dl_updateState_own]
  · rw [dl_updateState_cross_other]

/-- What an update does to the delay lines (R113, R114), whichever buffer it stores in: `v` at the store address of `dst`
and nowhere else, and channel `ch`'s write cursor one word on. -/
structure UpdatesDelay (ch dst : Ch) (v : Word) (s t : State) : Prop where
  stored : (t.dl dst).buf.read (storeAddr s dst) = v
  elsewhere : sameBufBut dst (storeAddr s dst) s t
  wptr : advancesWptr ch s t
  rptr : ∀ b, sameRptr b s t
  otherWptr : ∀ b ≠ ch, sameWptr b s t
  otherBuf : ∀ b ≠ dst, sameBuf b s t
  frame : writesDelayLinesOnly s t

theorem advancesWptr_commit_updateState {s : State} (hs : s.build.sizesLegal = true) (code : RspCode) (y : Word)
    (ch dst : Ch) (v : Word) : advancesWptr ch s (commit code y (updateState s ch dst v)) := by
  unfold advancesWptr
  rw [dl_commit, wptr_updateState, toNat_wptr_succ hs]

theorem sameRptr_commit_updateState (code : RspCode) (y : Word) (s : State) (ch dst b : Ch) (v : Word) :
    sameRptr b s (commit code y (updateState s ch dst v)) := by
  unfold sameRptr
  rw [dl_commit]
  exact sameRptr_updateState s ch dst b v

theorem updatesDelay_commit_updateState {s : State} (hs : s.build.sizesLegal = true) {dst : Ch}
    (hwf : (s.dl dst).buf.wf = true) (code : RspCode) (y : Word) (ch : Ch) (v : Word) :
    UpdatesDelay ch dst v s (commit code y (updateState s ch dst v)) where
  stored := by rw [dl_commit, buf_updateState, Memory.read_write_same hwf]
  elsewhere := fun a ha => by rw [dl_commit, buf_updateState, Memory.read_write_ne _ ha]
  wptr := advancesWptr_commit_updateState hs code y ch dst v
  rptr := fun b => sameRptr_commit_updateState code y s ch dst b v
  otherWptr := fun b hb => by
    unfold sameWptr
    rw [dl_commit, wptr_updateState_of_ne s dst v hb.symm]
  otherBuf := fun b hb => sameBuf_of_eq (by rw [dl_commit, buf_updateState_of_ne s ch v hb])
  frame := writesDelayLinesOnly_commit_updateState code y s ch dst v

/-- An update of a channel's own buffer leaves all of the other channel's delay line alone. -/
theorem UpdatesDelay.sameDelay_other {ch : Ch} {v : Word} {s t : State} (h : UpdatesDelay ch ch v s t) :
    sameDelay ch.other s t :=
  ⟨h.otherWptr _ (Ch.other_ne ch), h.rptr _, h.otherBuf _ (Ch.other_ne ch)⟩

/-! ## DL_UPD, DL_UPDX and DL_UPDE -/

theorem exec_dlUpd (ch : Ch) (xn : Word) (s : State) :
    exec (.dlUpd ch xn) s =
      .next (commit .ok (mixed s xn (delayRead s ch xn))
        (updateState s ch ch (f32Add xn (f32Mul (delayRead s ch xn) s.fb)))) := rfl

theorem exec_dlUpdx (ch : Ch) (xn : Word) (s : State) :
    exec (.dlUpdx ch xn) s =
      .next (commit .ok (mixed s xn (delayRead s ch xn))
        (updateState s ch ch.other (f32Add xn (f32Mul (delayRead s ch xn) s.fb)))) := rfl

theorem exec_dlUpde (ch : Ch) (xn ext : Word) (s : State) :
    exec (.dlUpde ch xn ext) s =
      .next (commit .ok (mixed s xn (delayRead s ch xn))
        (updateState s ch ch (f32Add xn (f32Mul ext s.fb)))) := rfl

/-- Settles O40: an update of the own buffer, with the feedback of the delayed sample read before it. -/
theorem dlUpdUpdatesOwnChannel : Obligations.DlUpdUpdatesOwnChannel := by
  intro s ch xn hs hwf
  rw [← delayRead_eq hs]
  have h := updatesDelay_commit_updateState hs hwf .ok (mixed s xn (delayRead s ch xn)) ch
    (f32Add xn (f32Mul (delayRead s ch xn) s.fb))
  exact ⟨_, exec_dlUpd ch xn s, answers_commit .ok _ (sticky_updateState ..), h.stored, h.elsewhere, h.wptr,
    h.rptr ch, h.sameDelay_other, h.frame⟩

/-- Settles O41: the same update, stored in the other channel's buffer. -/
theorem dlUpdxWritesOtherChannel : Obligations.DlUpdxWritesOtherChannel := by
  intro s ch xn hs hwf
  rw [← delayRead_eq hs]
  have h := updatesDelay_commit_updateState hs hwf .ok (mixed s xn (delayRead s ch xn)) ch
    (f32Add xn (f32Mul (delayRead s ch xn) s.fb))
  exact ⟨_, exec_dlUpdx ch xn s, answers_commit .ok _ (sticky_updateState ..), h.stored, h.elsewhere,
    h.otherBuf ch (Ch.ne_other ch), h.wptr, h.rptr ch, h.otherWptr _ (Ch.other_ne ch), h.rptr ch.other, h.frame⟩

/-- Settles O42: the delayed sample is in the answer only, the stored word takes `ext`. -/
theorem dlUpdeFeedsExternalScalar : Obligations.DlUpdeFeedsExternalScalar := by
  intro s ch xn ext hs hwf
  rw [← delayRead_eq hs]
  have h := updatesDelay_commit_updateState hs hwf .ok (mixed s xn (delayRead s ch xn)) ch (f32Add xn (f32Mul ext s.fb))
  exact ⟨_, exec_dlUpde ch xn ext s, answers_commit .ok _ (sticky_updateState ..), h.stored, h.elsewhere, h.wptr,
    h.rptr ch, h.sameDelay_other, h.frame⟩

/-! ## Runs of updates -/

/-- What a run of updates needs of each one; the form of the buffer does not matter to it. -/
theorem exists_exec_dlUpd {s : State} (hs : s.build.sizesLegal = true) (ch : Ch) (xn : Word) :
    ∃ t, exec (.dlUpd ch xn) s = .next t ∧ t.build = s.build ∧ advancesWptr ch s t ∧ sameRptr ch s t :=
  ⟨_, exec_dlUpd ch xn s, build_updateState .., advancesWptr_commit_updateState hs .ok _ ch ch _,
    sameRptr_commit_updateState .ok _ s ch ch ch _⟩

theorem sameRptr.trans {ch : Ch} {s t u : State} (h : sameRptr ch s t) (h' : sameRptr ch t u) : sameRptr ch s u := by
  obtain ⟨hrptr, hdfrac⟩ := h
  obtain ⟨hrptr', hdfrac'⟩ := h'
  exact ⟨hrptr'.trans hrptr, hdfrac'.trans hdfrac⟩

/-- Settles O46, by induction on the list of inputs: the first update moves the cursor by one, the others by the rest. -/
theorem updatesKeepReadCursor : Obligations.UpdatesKeepReadCursor := by
  intro s ch xs hs hw
  induction xs generalizing s with
  | nil => exact ⟨s, rfl, (Nat.mod_eq_of_lt hw).symm, rfl, rfl⟩
  | cons x xs ih =>
    obtain ⟨t, hexec, hbuild, hwptr, hrptr⟩ := exists_exec_dlUpd hs ch x
    unfold advancesWptr at hwptr
    have hlt : (t.dl ch).wptr.toNat < t.build.bufLen := by rw [hbuild, hwptr]; exact Nat.mod_lt _ bufLen_pos
    obtain ⟨u, hall, huwptr, hurptr⟩ := ih t (by rwa [hbuild]) hlt
    refine ⟨u, by simp only [List.map_cons, execAll, hexec, hall], ?_, hrptr.trans hurptr⟩
    rw [huwptr, hbuild, hwptr, Nat.mod_add_mod, List.length_cons, Nat.add_assoc, Nat.add_comm 1]

/-! ## DL_OFS -/

theorem exec_dlOfs_of_not_cfgValid {s : State} (h : s.cfgValid = false) (ch : Ch) (ms : Word) :
    exec (.dlOfs ch ms) s = .next (commit .nocfg 0 s) := by
  simp [exec, execDlOfs, h]

theorem exec_dlOfs_of_cfgValid {s : State} (h : s.cfgValid = true) (ch : Ch) (ms : Word) :
    exec (.dlOfs ch ms) s = storeOffset ch s (samplesSplit s ms) := by
  simp only [exec, execDlOfs, h]; rfl

theorem exec_dlOfs_of_samplesSplit {s : State} (h : s.cfgValid = true) (ch : Ch) {ms d f : Word}
    (hsplit : samplesSplit s ms = some (d, f)) :
    exec (.dlOfs ch ms) s = .next (commit .ok 0 (placeRead s ch d f)) := by
  rw [exec_dlOfs_of_cfgValid h, hsplit, storeOffset_some]

/-- Settles O39: the gate, then the two outcomes of the split. -/
theorem dlOfsPlacesReadCursor : Obligations.DlOfsPlacesReadCursor := by
  refine fun s ch ms => ⟨fun hcfg => ?_, fun hcfg hsplit => ?_, fun d f hs hcfg hsplit => ?_⟩
  · exact ⟨_, exec_dlOfs_of_not_cfgValid hcfg ch ms, rejectedWith_commit .nocfg s⟩
  · refine ⟨_, ?_, rejectedWith_commit .range s⟩
    rw [exec_dlOfs_of_cfgValid hcfg, hsplit, storeOffset_none]
  · refine ⟨_, exec_dlOfs_of_samplesSplit hcfg ch hsplit, answers_commit .ok 0 (sticky_placeRead ..), ?_, ?_,
      sameBuf_of_eq ?_, sameDelay_of_eq ?_, writesDelayLinesOnly_commit_placeRead .ok 0 s ch d f⟩
    · unfold readPlaced; rw [dl_commit]; exact readPlaced_placeRead hs ch d f
    · unfold sameWptr; rw [dl_commit, wptr_placeRead]
    · rw [dl_commit, buf_placeRead]
    · rw [dl_commit, dl_placeRead_other]

/-! ## An offset of 0 ms -/

/-- A finite sample rate times 0 ms is a zero of either sign, whose floor is 0. -/
theorem exists_samplesSplit_zero {s : State} (h : f32IsFinite s.fs = true) : ∃ f, samplesSplit s 0 = some (0, f) := by
  have hmul : f32Mul s.fs 0 = f32Pack (f32Sign s.fs) 0 := by
    rw [f32Mul_eq h (by decide), show f32Units 0 = 0 from rfl, Nat.mul_zero, f32RoundMag_zero (Nat.two_pow_pos 149),
      show f32Sign 0 = false from rfl, Bool.bne_false]
  unfold samplesSplit
  rw [hmul]
  cases f32Sign s.fs with
  | false => exact ⟨0, by decide +kernel⟩
  | true => exact ⟨0x80000000, by decide +kernel⟩

theorem Inv.f32IsFinite_fs {s : State} (h : Inv s) (hcfg : s.cfgValid = true) : f32IsFinite s.fs = true := by
  have hok := h.registers.config hcfg
  simp only [cfgOk, Bool.and_eq_true] at hok
  obtain ⟨⟨hfin, -⟩, -⟩ := hok
  exact hfin

/-- When the cursors meet, an update reads its own input (R112, R120), answered and stored as in O40. -/
theorem exists_exec_dlUpd_of_meet {s : State} (h : Inv s) {ch : Ch} (hmeet : (s.dl ch).rptr = (s.dl ch).wptr)
    (xn : Word) :
    ∃ t, exec (.dlUpd ch xn) s = .next t ∧ t.rsp = some ⟨.ok, mixed s xn xn⟩ ∧
      (t.dl ch).buf.read (storeAddr s ch) = f32Add xn (f32Mul xn s.fb) := by
  obtain ⟨t, hexec, ⟨hrsp, -⟩, hstored, -⟩ := dlUpdUpdatesOwnChannel s ch xn h.sizes (h.dl ch).wf
  rw [delayedSample, if_pos hmeet] at hrsp hstored
  exact ⟨t, hexec, hrsp, hstored⟩

/-- A read cursor placed 0 samples behind meets the write cursor. -/
theorem rptr_placeRead_zero {s : State} (h : Inv s) (ch : Ch) (f : Word) :
    ((placeRead s ch 0 f).dl ch).rptr = ((placeRead s ch 0 f).dl ch).wptr := by
  rw [dl_placeRead]
  simpa using and_maskL_eq_self h.sizes (h.dl ch).wptr

/-- Settles O45: DL_OFS 0 makes the cursors meet, and moves nothing else that the update's answer and store depend on. -/
theorem zeroOffsetPassesThrough : Obligations.ZeroOffsetPassesThrough := by
  intro s ch xn hinv hcfg
  obtain ⟨f, hsplit⟩ := exists_samplesSplit_zero (hinv.f32IsFinite_fs hcfg)
  set t := commit .ok 0 (placeRead s ch 0 f) with ht
  have hmeet : (t.dl ch).rptr = (t.dl ch).wptr := by rw [ht, dl_commit]; exact rptr_placeRead_zero hinv ch f
  obtain ⟨u, hexec, hrsp, hstored⟩ := exists_exec_dlUpd_of_meet ((hinv.placeRead ch 0 f).commit .ok 0) hmeet xn
  have hmixed : mixed t xn xn = mixed s xn xn := by simp [mixed, ht]
  have haddr : storeAddr t ch = storeAddr s ch := by simp [storeAddr, ht]
  have hfb : t.fb = s.fb := by simp [ht]
  rw [← ht, hmixed] at hrsp
  rw [← ht, haddr, hfb] at hstored
  exact ⟨t, u, exec_dlOfs_of_samplesSplit hcfg ch hsplit, hexec, hrsp, hstored⟩

/-! ## DL_DRYWET and DL_FLUSH -/

theorem exec_dlDrywet (w : Word) (s : State) :
    exec (.dlDrywet w) s =
      .next (commit (if f32Le 0 w && f32Le w 0x3F800000 then .ok else .orange) 0
        (recomputeMix { s with pDryWet := w })) := rfl

/-- `recompute_mix` writes the working coefficients alone (10_state.md R37). -/
theorem commit_recomputeMix_frame (code : RspCode) (v : Word) (s : State) :
    sameParams s (commit code v (recomputeMix s)) ∧ sameEffect s (commit code v (recomputeMix s)) ∧
      (commit code v (recomputeMix s)).bypass = s.bypass ∧ sameConfig s (commit code v (recomputeMix s)) ∧
      sameWave s (commit code v (recomputeMix s)) ∧ sameOscs s (commit code v (recomputeMix s)) ∧
      sameDelays s (commit code v (recomputeMix s)) := by
  refine ⟨by simp [sameParams], by simp [sameEffect], by simp, by simp [sameConfig], by simp [sameWave],
    fun b => ?_, fun b => sameDelay_of_eq ?_⟩
  · unfold sameOsc; rw [osc_commit, osc_recomputeMix]
  · rw [dl_commit, dl_recomputeMix]

/-- Settles O43: the host value is written, then `recompute_mix` runs on it. -/
theorem dlDrywetSetsMix : Obligations.DlDrywetSetsMix := by
  intro s w
  obtain ⟨⟨hdrywet, hfeedback, hdepth, hchorus⟩, heffect, hbypass, hconfig, hwave, hoscs, hdelays⟩ :=
    commit_recomputeMix_frame (if f32Le 0 w && f32Le w 0x3F800000 then .ok else .orange) 0 { s with pDryWet := w }
  exact ⟨_, exec_dlDrywet w s, answers_commit _ 0 (sticky_recomputeMix _), hdrywet, mixConsistent_recomputeMix _,
    hfeedback, hdepth, hchorus, heffect, hbypass, hconfig, hwave, hoscs, hdelays⟩

theorem exec_dlFlush (s : State) :
    exec .dlFlush s =
      .next (commit .ok 0
        { s with dl0 := { s.dl0 with buf := Memory.zero }, dl1 := { s.dl1 with buf := Memory.zero } }) := rfl

/-- Settles O44: each channel keeps its cursors and reads +0.0 everywhere. -/
theorem dlFlushZeroesBuffers : Obligations.DlFlushZeroesBuffers := by
  refine fun s => ⟨_, exec_dlFlush s, answers_commit .ok 0 rfl, fun ch a => ?_, fun ch => ?_,
    writesDelayLinesOnly_commit_flush .ok 0 s⟩
  · cases ch <;> exact Memory.read_zero a
  · cases ch <;> exact ⟨rfl, rfl, rfl⟩

end Sys2Proof.Machine
end

section
/-! The setters of the coordinator (42_modulation.md R131 to R135): the host parameters, the effect and the bypass. -/

namespace Sys2Proof.Machine

/-! ## SET_DEPTH, SET_FEEDBACK and SET_CHORUS_OFS -/

theorem exec_setDepth (v : Word) (s : State) :
    exec (.setDepth v) s =
      .next (commit (if f32Le 0 v && f32Le v 0x3F800000 then .ok else .orange) 0 { s with pDepth := v }) := rfl

theorem exec_setFeedback (v : Word) (s : State) :
    exec (.setFeedback v) s =
      .next (commit (if f32Le 0xBF733333 v && f32Le v 0x3F733333 then .ok else .orange) 0
        (recomputeMix { s with pFeedback := v })) := rfl

theorem exec_setChorusOfs (v : Word) (s : State) :
    exec (.setChorusOfs v) s =
      .next (commit (if f32Le 0x40A00000 v && f32Le v 0x420C0000 then .ok else .orange) 0
        { s with pChorusOfs := v }) := rfl

/-- Settles O51: each setter writes one host parameter, and SET_FEEDBACK then runs `recompute_mix`; the commit keeps the
rest of the core of the state written. -/
theorem settersStoreUnchanged : Obligations.SettersStoreUnchanged := by
  refine fun s v => ⟨⟨_, exec_setDepth v s, answers_commit _ 0 rfl, ?_⟩,
    ⟨_, exec_setFeedback v s, answers_commit _ 0 (sticky_recomputeMix _), ?_⟩,
    ⟨_, exec_setChorusOfs v s, answers_commit _ 0 rfl, ?_⟩⟩
  · obtain ⟨hconfig, hwave, hoscs, hdelays, hmix, ⟨hdrywet, hfeedback, hdepth, hchorus⟩, heffect, hbypass⟩ :=
      sameCore_commit (if f32Le 0 v && f32Le v 0x3F800000 then .ok else .orange) 0 { s with pDepth := v }
    exact ⟨hdepth, hdrywet, hfeedback, hchorus, hmix, heffect, hbypass, hconfig, hwave, hoscs, hdelays⟩
  · obtain ⟨⟨hdrywet, hfeedback, hdepth, hchorus⟩, heffect, hbypass, hconfig, hwave, hoscs, hdelays⟩ :=
      commit_recomputeMix_frame (if f32Le 0xBF733333 v && f32Le v 0x3F733333 then .ok else .orange) 0
        { s with pFeedback := v }
    exact ⟨hfeedback, mixConsistent_recomputeMix _, hdrywet, hdepth, hchorus, heffect, hbypass, hconfig, hwave, hoscs,
      hdelays⟩
  · obtain ⟨hconfig, hwave, hoscs, hdelays, hmix, ⟨hdrywet, hfeedback, hdepth, hchorus⟩, heffect, hbypass⟩ :=
      sameCore_commit (if f32Le 0x40A00000 v && f32Le v 0x420C0000 then .ok else .orange) 0 { s with pChorusOfs := v }
    exact ⟨hchorus, hdrywet, hfeedback, hdepth, hmix, heffect, hbypass, hconfig, hwave, hoscs, hdelays⟩

/-! ## SET_EFFECT -/

theorem effectNum_of_effectOf {e : Word} {x : Effect} (h : effectOf e = some x) : effectNum x = e.toNat := by
  unfold effectOf at h
  split at h
  case h_4 => cases h
  all_goals
    next he => cases h; exact he.symm

theorem effectOf_eq_none {e : Word} (h : 3 ≤ e.toNat) : effectOf e = none := by
  cases hx : effectOf e with
  | none => rfl
  | some x =>
    have hnum := effectNum_of_effectOf hx
    cases x <;> simp only [effectNum] at hnum <;> omega

theorem exec_setEffect_of_effectOf_none {e : Word} (h : effectOf e = none) (s : State) :
    exec (.setEffect e) s = .next (commit .range 0 s) := by
  simp only [exec, execSetEffect, h, reject_eq]

/-- DELTA and CMASK are written with the effect, and `recompute_mix` keeps all three. -/
theorem effectConsistent_withEffect (s : State) (x : Effect) : effectConsistent (s.withEffect x) := by
  cases x <;> exact ⟨rfl, rfl⟩

/-- Settles O52: below 3 the word names an effect, from 3 on it names none. -/
theorem setEffectSelectsConstants : Obligations.SetEffectSelectsConstants := by
  refine fun s e => ⟨fun hlt => ?_, fun hge => ?_⟩
  · obtain ⟨x, hx⟩ := exists_effectOf hlt
    obtain ⟨hparams, ⟨heffect, -⟩, hbypass, hconfig, hwave, hoscs, hdelays⟩ :=
      commit_recomputeMix_frame .ok 0 { s with effect := x, delta := effectDelta x, cmask := effectMask x }
    exact ⟨_, exec_setEffect_of_effectOf hx s, answers_commit .ok 0 (sticky_recomputeMix _),
      (congrArg effectNum heffect).trans (effectNum_of_effectOf hx), effectConsistent_withEffect s x,
      mixConsistent_recomputeMix _, hparams, hbypass, hconfig, hwave, hoscs, hdelays⟩
  · exact ⟨_, exec_setEffect_of_effectOf_none (effectOf_eq_none hge) s, rejectedWith_commit .range s⟩

/-! ## SET_BYPASS -/

theorem boolWord_of_bypassOf {b : Word} {x : Bool} (h : bypassOf b = some x) : boolWord x = b := by
  apply BitVec.eq_of_toNat_eq
  unfold bypassOf at h
  split at h
  case h_3 => cases h
  all_goals
    next hb => cases h; exact hb.symm

theorem exists_bypassOf {b : Word} (h : b.toNat < 2) : ∃ x, bypassOf b = some x := by
  unfold bypassOf; interval_cases b.toNat <;> exact ⟨_, rfl⟩

theorem bypassOf_eq_none {b : Word} (h : 2 ≤ b.toNat) : bypassOf b = none := by
  cases hx : bypassOf b with
  | none => rfl
  | some x =>
    have hword := boolWord_of_bypassOf hx
    subst hword
    cases x <;> exact absurd h (by decide)

theorem exec_setBypass_of_bypassOf {b : Word} {x : Bool} (h : bypassOf b = some x) (s : State) :
    exec (.setBypass b) s = .next (commit .ok 0 { s with bypass := x }) := by
  simp only [exec, execSetBypass, h, respond_eq]

theorem exec_setBypass_of_bypassOf_none {b : Word} (h : bypassOf b = none) (s : State) :
    exec (.setBypass b) s = .next (commit .range 0 s) := by
  simp only [exec, execSetBypass, h, reject_eq]

/-- Settles O53: below 2 the word names a boolean, from 2 on it names none. -/
theorem setBypassStoresBoolean : Obligations.SetBypassStoresBoolean := by
  refine fun s b => ⟨fun hlt => ?_, fun hge => ?_⟩
  · obtain ⟨x, hx⟩ := exists_bypassOf hlt
    obtain ⟨hconfig, hwave, hoscs, hdelays, hmix, hparams, heffect, -⟩ := sameCore_commit .ok 0 { s with bypass := x }
    exact ⟨_, exec_setBypass_of_bypassOf hx s, answers_commit .ok 0 rfl, boolWord_of_bypassOf hx, hmix, hparams, heffect,
      hconfig, hwave, hoscs, hdelays⟩
  · exact ⟨_, exec_setBypass_of_bypassOf_none (bypassOf_eq_none hge) s, rejectedWith_commit .range s⟩

end Sys2Proof.Machine
end

section
/-! MOD_UPDATE (42_modulation.md R125 to R130): its four ends, its effect on its channel, and its three steps. -/

namespace Sys2Proof.Machine

/-! ## The four ends -/

theorem exec_modUpdate_of_bypass {s : State} (h : s.bypass = true) (ch : Ch) (xn : Word) :
    exec (.modUpdate ch xn) s = .next (commit .ok xn s) := by
  simp only [exec, execModUpdate, h, if_true, respond_eq]

theorem exec_modUpdate_of_not_cfgValid {s : State} (hb : s.bypass = false) (hc : s.cfgValid = false) (ch : Ch)
    (xn : Word) : exec (.modUpdate ch xn) s = .next (commit .nocfg 0 s) := by
  simp [exec, execModUpdate, hb, hc]

/-- The offset is that of the unipolar table sample (R126 to R129), split as DL_OFS splits its own. -/
theorem exec_modUpdate_of_cfgValid {s : State} (hs : s.build.sizesLegal = true) (hb : s.bypass = false)
    (hc : s.cfgValid = true) (ch : Ch) (xn : Word) :
    exec (.modUpdate ch xn) s =
      updateModulated ch xn s (samplesSplit s (offsetMs s (remapped (tableSample s ch)))) := by
  rw [← bipolarSample_eq hs]
  simp only [exec, execModUpdate, hb, hc]
  rfl

/-- A MOD_UPDATE that is not rejected ends as DL_UPD of the placed state does (R130). -/
theorem exec_modUpdate_of_samplesSplit {s : State} {ch : Ch} {d f : Word} (hs : s.build.sizesLegal = true)
    (hb : s.bypass = false) (hc : s.cfgValid = true)
    (hsplit : samplesSplit s (offsetMs s (remapped (tableSample s ch))) = some (d, f)) (xn : Word) :
    exec (.modUpdate ch xn) s = exec (.dlUpd ch xn) (modulated s ch d f) := by
  rw [exec_modUpdate_of_cfgValid hs hb hc, hsplit]; rfl

/-- Settles O47: bypass first, then the gate, then the split (R156). -/
theorem modUpdateBypassAndRejections : Obligations.ModUpdateBypassAndRejections := by
  refine fun s ch xn => ⟨fun hb => ?_, fun hb hc => ?_, fun hb hc hs hsplit => ?_⟩
  · exact ⟨_, exec_modUpdate_of_bypass hb ch xn, answers_commit .ok xn rfl, sameCore_commit .ok xn s⟩
  · exact ⟨_, exec_modUpdate_of_not_cfgValid hb hc ch xn, rejectedWith_commit .nocfg s⟩
  · refine ⟨_, ?_, rejectedWith_commit .range s⟩
    rw [exec_modUpdate_of_cfgValid hs hb hc, hsplit, updateModulated_none]

/-! ## The placed state -/

section
variable (s : State) (ch : Ch) (d f : Word)

@[simp] theorem build_modulated : (modulated s ch d f).build = s.build := by simp [modulated]
@[simp] theorem wet_modulated : (modulated s ch d f).wet = s.wet := by simp [modulated]
@[simp] theorem dry_modulated : (modulated s ch d f).dry = s.dry := by simp [modulated]
@[simp] theorem fb_modulated : (modulated s ch d f).fb = s.fb := by simp [modulated]
@[simp] theorem sticky_modulated : (modulated s ch d f).sticky = s.sticky := by simp [modulated]
@[simp] theorem osc_modulated (b : Ch) : (modulated s ch d f).osc b = (advance s ch).osc b := by simp [modulated]
@[simp] theorem wptr_modulated (b : Ch) : ((modulated s ch d f).dl b).wptr = (s.dl b).wptr := by
  rw [modulated, wptr_placeRead, dl_advance]
@[simp] theorem buf_modulated (b : Ch) : ((modulated s ch d f).dl b).buf = (s.dl b).buf := by
  rw [modulated, buf_placeRead, dl_advance]
@[simp] theorem dfrac_modulated : ((modulated s ch d f).dl ch).dfrac = f := by simp [modulated]
@[simp] theorem dl_modulated_other : (modulated s ch d f).dl ch.other = s.dl ch.other := by simp [modulated]

theorem mixed_modulated (xn yn : Word) : mixed (modulated s ch d f) xn yn = mixed s xn yn := by simp [mixed]

theorem storeAddr_modulated (b : Ch) : storeAddr (modulated s ch d f) b = storeAddr s b := by simp [storeAddr]

theorem delayedSample_modulated (b : Ch) (r g xn : Word) :
    delayedSample (modulated s ch d f) b r g xn = delayedSample s b r g xn := by
  simp [delayedSample, bufWord]

variable {s}

theorem readPlaced_modulated (hs : s.build.sizesLegal = true) : readPlaced ch d f s (modulated s ch d f) := by
  have h := readPlaced_placeRead (s := advance s ch) (by rwa [build_advance]) ch d f
  unfold readPlaced at h ⊢
  rwa [dl_advance, build_advance] at h

/-- The sample that the update reads is the one at the placed cursor, on the buffer before the command (R112). -/
theorem delayRead_modulated (hs : s.build.sizesLegal = true) (xn : Word) :
    delayRead (modulated s ch d f) ch xn = delayedSample s ch ((modulated s ch d f).dl ch).rptr f xn := by
  rw [delayRead_eq (by rwa [build_modulated]), delayedSample_modulated, dfrac_modulated]

end

/-! ## The effect -/

section
variable {s t : State} {ch : Ch} {d f v : Word}

/-- What a delay update of the placed state leaves alone, it leaves as it was before the placement. -/
theorem UpdatesDelay.frame_of_modulated (h : UpdatesDelay ch ch v (modulated s ch d f) t) :
    sameOsc ch.other s t ∧ sameDelay ch.other s t ∧ sameConfig s t ∧ sameWave s t ∧ sameCoord s t := by
  obtain ⟨hconfig, hwave, hoscs, hcoord⟩ := h.frame
  refine ⟨?_, ?_, ?_, ?_, ?_⟩
  · simpa [sameOsc] using hoscs ch.other
  · simpa [sameDelay, sameWptr, sameRptr, sameBuf] using h.sameDelay_other
  · simpa [sameConfig, modulated] using hconfig
  · simpa [sameWave, modulated] using hwave
  · simpa [sameCoord, sameMix, sameParams, sameEffect, modulated] using hcoord

/-- After a delay update of the placed state the channel's three cursors are where R125 and R130 put them. -/
theorem UpdatesDelay.cursors_of_modulated (h : UpdatesDelay ch ch v (modulated s ch d f) t)
    (hs : s.build.sizesLegal = true) (hfin : f32IsFinite (fractionSum s ch) = true) :
    advancesOsc ch s t ∧ readPlaced ch d f s t ∧ advancesWptr ch s t := by
  obtain ⟨-, -, hoscs, -⟩ := h.frame
  have hosc : t.osc ch = (advance s ch).osc ch := (hoscs ch).trans (osc_modulated s ch d f ch)
  obtain ⟨hrptr, hdfrac⟩ := h.rptr ch
  refine ⟨?_, ?_, ?_⟩
  · unfold advancesOsc; rw [hosc]; exact advancesOsc_advance hs hfin
  · unfold readPlaced; rw [hrptr, hdfrac]; exact readPlaced_modulated ch d f hs
  · simpa [advancesWptr] using h.wptr

end

/-- A MOD_UPDATE that is not rejected answers and stores as a delay update of the placed state does. -/
theorem exists_exec_modUpdate {s : State} {ch : Ch} {d f : Word} (hs : s.build.sizesLegal = true)
    (hwf : (s.dl ch).buf.wf = true) (hb : s.bypass = false) (hc : s.cfgValid = true)
    (hsplit : samplesSplit s (offsetMs s (remapped (tableSample s ch))) = some (d, f)) (xn : Word) :
    ∃ t, exec (.modUpdate ch xn) s = .next t ∧
      answers .ok (mixed s xn (delayedSample s ch ((modulated s ch d f).dl ch).rptr f xn)) s t ∧
      UpdatesDelay ch ch (f32Add xn (f32Mul (delayedSample s ch ((modulated s ch d f).dl ch).rptr f xn) s.fb))
        (modulated s ch d f) t := by
  have hexec := exec_modUpdate_of_samplesSplit hs hb hc hsplit xn
  rw [exec_dlUpd, delayRead_modulated ch d f hs, mixed_modulated, fb_modulated] at hexec
  exact ⟨_, hexec, answers_commit .ok _ ((sticky_updateState ..).trans (sticky_modulated s ch d f)),
    updatesDelay_commit_updateState (by rwa [build_modulated]) (by rwa [buf_modulated]) .ok _ ch _⟩

/-- Settles O48: the read cursor of the placed state is that of the state after the update. -/
theorem modUpdateModulatesDelay : Obligations.ModUpdateModulatesDelay := by
  intro s ch xn d f hs hwf hfin hb hc hsplit
  obtain ⟨t, hexec, hanswers, h⟩ := exists_exec_modUpdate hs hwf hb hc hsplit xn
  obtain ⟨hosc, hread, hwptr⟩ := h.cursors_of_modulated hs hfin
  obtain ⟨hrptr, -⟩ := h.rptr ch
  have hstored := h.stored
  have helse := h.elsewhere
  rw [storeAddr_modulated] at hstored helse
  rw [← hrptr] at hanswers hstored
  exact ⟨t, hexec, hosc, hread, hanswers, hstored, fun b hb => by rw [helse b hb, buf_modulated], hwptr,
    h.frame_of_modulated⟩

/-! ## The three steps -/

/-- The state with another response waiting, or none. -/
def State.withResponse (s : State) (r : Option Response) : State := { s with rsp := r }

theorem commit_ok_eq (v : Word) (s : State) : commit .ok v s = s.withResponse (some ⟨.ok, v⟩) := by
  simp only [commit, or_stickyBit_ok, noteCode_ok]; rfl

section
variable (s : State) (r : Option Response) (ch : Ch)

theorem placeRead_withResponse (d f : Word) :
    placeRead (s.withResponse r) ch d f = (placeRead s ch d f).withResponse r := by cases ch <;> rfl

theorem updateState_withResponse (dst : Ch) (v : Word) :
    updateState (s.withResponse r) ch dst v = (updateState s ch dst v).withResponse r := by
  cases ch <;> cases dst <;> rfl

theorem delayRead_withResponse (xn : Word) : delayRead (s.withResponse r) ch xn = delayRead s ch xn := by
  cases ch <;> rfl

/-- A waiting response is not read, only replaced. -/
theorem exec_dlUpd_withResponse (xn : Word) : exec (.dlUpd ch xn) (s.withResponse r) = exec (.dlUpd ch xn) s := by
  rw [exec_dlUpd, exec_dlUpd, delayRead_withResponse, updateState_withResponse, commit_ok_eq, commit_ok_eq]
  rfl

end

/-- OSC_GENU and then DL_OFS leave the state that MOD_UPDATE places, but for their responses. -/
theorem exec_dlUpd_after_dlOfs_after_oscGenu (s : State) (ch : Ch) (v d f xn : Word) :
    exec (.dlUpd ch xn) (commit .ok 0 (placeRead (commit .ok v (advance s ch)) ch d f)) =
      exec (.dlUpd ch xn) (modulated s ch d f) := by
  rw [commit_ok_eq, commit_ok_eq, placeRead_withResponse, exec_dlUpd_withResponse, exec_dlUpd_withResponse]; rfl

/-- Settles O49: MOD_UPDATE's last step is DL_UPD of the placed state, and no step looks at the response before it. -/
theorem modUpdateIsItsThreeSteps : Obligations.ModUpdateIsItsThreeSteps := by
  intro s ch xn d f hb hc hs hsplit
  have hofs : exec (.dlOfs ch (offsetMs s (remapped (tableSample s ch))))
      (commit .ok (remapped (tableSample s ch)) (advance s ch)) = .next _ :=
    exec_dlOfs_of_samplesSplit (by simpa using hc) ch (by simpa [samplesSplit] using hsplit)
  have hmod := exec_modUpdate_of_samplesSplit hs hb hc hsplit xn
  have hupd := exec_dlUpd_after_dlOfs_after_oscGenu s ch (remapped (tableSample s ch)) d f xn
  rw [exec_dlUpd] at hmod
  rw [exec_dlUpd ch xn (modulated s ch d f)] at hupd
  exact ⟨_, execAll_singleton hmod, by simp only [execAll, exec_oscGenu ch hs, hofs, hupd]⟩

end Sys2Proof.Machine
end

section
/-! The two channels' MOD_UPDATEs commute (42_modulation.md R138): what each answers and writes is a function of its own
channel and of registers that neither writes. -/

namespace Sys2Proof.Machine

/-! ## What MOD_UPDATE does, as a function of the state before it -/

/-- Both parts of one channel: its oscillator cursor and its delay line. -/
def State.setChannel (s : State) (ch : Ch) (c : OscCursor) (d : DelayChannel) : State := (s.setOsc ch c).setDl ch d

/-- The answer of a command that writes one channel only, and what it leaves in that channel. -/
structure ChannelEnd where
  code : RspCode
  data : Word
  osc : OscCursor
  dl : DelayChannel

/-- The end of MOD_UPDATE (R125) for each outcome of the split: `exec_modUpdate_eq_setChannel` ties it to `exec`. -/
def modSplitEnd (s : State) (ch : Ch) (xn : Word) : Option (Word × Word) → ChannelEnd
  | none => ⟨.range, 0, s.osc ch, s.dl ch⟩
  | some (d, f) =>
    let placed := modulated s ch d f
    let yn := delayRead placed ch xn
    ⟨.ok, crossfade placed xn yn, placed.osc ch, (updateState placed ch ch (feedbackWord placed xn yn)).dl ch⟩

/-- The end of MOD_UPDATE (R125, R156). -/
def modEnd (s : State) (ch : Ch) (xn : Word) : ChannelEnd :=
  if s.bypass then ⟨.ok, xn, s.osc ch, s.dl ch⟩
  else if s.cfgValid then modSplitEnd s ch xn (offsetSplit s (modOffset s (unipolarSample s ch)))
  else ⟨.nocfg, 0, s.osc ch, s.dl ch⟩

/-- The answer and the channel's writes, committed. -/
def ChannelEnd.commit (e : ChannelEnd) (ch : Ch) (s : State) : State :=
  Machine.commit e.code e.data (s.setChannel ch e.osc e.dl)

theorem setChannel_self (s : State) (ch : Ch) : s.setChannel ch (s.osc ch) (s.dl ch) = s := by cases ch <;> rfl

theorem updateState_modulated_eq_setChannel (s : State) (ch : Ch) (d f v : Word) :
    updateState (modulated s ch d f) ch ch v =
      s.setChannel ch ((modulated s ch d f).osc ch) ((updateState (modulated s ch d f) ch ch v).dl ch) := by
  cases ch <;> rfl

theorem updateModulated_eq (s : State) (ch : Ch) (xn : Word) (p : Option (Word × Word)) :
    updateModulated ch xn s p = .next ((modSplitEnd s ch xn p).commit ch s) := by
  cases p with
  | none => simp only [updateModulated_none, modSplitEnd, ChannelEnd.commit, setChannel_self]
  | some p => rw [updateModulated_some, updateState_modulated_eq_setChannel]; rfl

theorem exec_modUpdate_eq (s : State) (ch : Ch) (xn : Word) :
    exec (.modUpdate ch xn) s = .next ((modEnd s ch xn).commit ch s) := by
  cases hb : s.bypass with
  | true => rw [exec_modUpdate_of_bypass hb]; simp only [modEnd, hb, if_true, ChannelEnd.commit, setChannel_self]
  | false =>
    cases hc : s.cfgValid with
    | false =>
      rw [exec_modUpdate_of_not_cfgValid hb hc]
      simp [modEnd, hb, hc, ChannelEnd.commit, setChannel_self]
    | true =>
      simp only [exec, execModUpdate, modEnd, hb, hc]
      exact updateModulated_eq s ch xn _

/-- A MOD_UPDATE is rejected with NOCFG before CONFIG, and with RANGE after it, whatever its channel and input. -/
theorem code_modEnd_of_rejects {s : State} {ch : Ch} {xn : Word} (h : codeRejects (modEnd s ch xn).code = true) :
    (modEnd s ch xn).code = if s.cfgValid then .range else .nocfg := by
  unfold modEnd at h ⊢
  cases hb : s.bypass <;> cases hc : s.cfgValid <;> simp only [hb, hc, if_true, if_false, Bool.false_eq_true] at h ⊢
  case false.true =>
    cases hp : offsetSplit s (modOffset s (unipolarSample s ch)) with
    | none => rfl
    | some p => rw [hp] at h; cases h
  all_goals cases h

/-! ## Two channels -/

/-- MOD_UPDATE reads nothing that the other channel's end writes: that channel, the flags and the response. -/
theorem modEnd_commit_of_ne {ch b : Ch} (h : b ≠ ch) (s : State) (xn : Word) (e : ChannelEnd) :
    modEnd (e.commit b s) ch xn = modEnd s ch xn := by
  obtain rfl := (Ch.eq_or_other b ch).resolve_left h
  cases ch <;> rfl

/-- The first rejecting code is kept, so two codes may be noted in either order when they do not reject differently. -/
theorem noteCode_comm {a b : RspCode} (h : codeRejects a = true → codeRejects b = true → a = b) (r : RunRecord) :
    noteCode (noteCode r a) b = noteCode (noteCode r b) a := by
  cases ha : codeRejects a <;> cases hb : codeRejects b
  case true.true => rw [h ha hb]
  all_goals simp [noteCode, ha, hb, Bool.or_right_comm]

/-- The commits of the two channels leave the same state in either order, but for the response. -/
theorem takeResponse_commit_commit (s : State) {e e' : ChannelEnd}
    (h : codeRejects e.code = true → codeRejects e'.code = true → e.code = e'.code) :
    takeResponse (e'.commit .quadrature (e.commit .primary s)) =
      takeResponse (e.commit .primary (e'.commit .quadrature s)) := by
  have hsticky : s.sticky ||| stickyBit e.code ||| stickyBit e'.code =
      s.sticky ||| stickyBit e'.code ||| stickyBit e.code := by
    rw [BitVec.or_assoc, BitVec.or_comm (stickyBit _), BitVec.or_assoc]
  have hrecord := noteCode_comm h s.record
  simp only [takeResponse, ChannelEnd.commit, commit, State.setChannel, State.setOsc, State.setDl, hsticky, hrecord]

/-- Settles O50: each command ends as it does alone, and the two ends are committed in either order. -/
theorem modUpdatesCommute : Obligations.ModUpdatesCommute := by
  intro s x y
  have hcodes : codeRejects (modEnd s .primary x).code = true → codeRejects (modEnd s .quadrature y).code = true →
      (modEnd s .primary x).code = (modEnd s .quadrature y).code := fun hx hy =>
    (code_modEnd_of_rejects hx).trans (code_modEnd_of_rejects hy).symm
  have hab := exec_modUpdate_eq ((modEnd s .primary x).commit .primary s) .quadrature y
  have hba := exec_modUpdate_eq ((modEnd s .quadrature y).commit .quadrature s) .primary x
  rw [modEnd_commit_of_ne (by decide)] at hab
  rw [modEnd_commit_of_ne (by decide)] at hba
  exact ⟨_, _, _, _, exec_modUpdate_eq s .primary x, hab, exec_modUpdate_eq s .quadrature y, hba,
    takeResponse_commit_commit s hcodes, rfl, rfl⟩

end Sys2Proof.Machine
end

section
/-! The bounds of the modulated offset (42_modulation.md R136): each rounded operation of R127 to R129 is monotone, so the
bounds of depth and LFO carry through to the offset. -/

namespace Sys2Proof.Machine

/-! ## Monotone operations -/

theorem f32Int_add_mono {a b x y : Word} (ha : f32IsFinite a = true) (hb : f32IsFinite b = true)
    (hx : f32IsFinite x = true) (hy : f32IsFinite y = true) (hab : f32Int a ≤ f32Int b) (hxy : f32Int x ≤ f32Int y) :
    f32Int (f32Add a x) ≤ f32Int (f32Add b y) := by
  rw [f32Int_add ha hx, f32Int_add hb hy]
  exact f32Int_roundInt_mono (Int.add_le_add hab hxy)

theorem f32Int_zero_add {x : Word} (h : f32IsFinite x = true) : f32Int (f32Add 0 x) = f32Int x := by
  rw [f32Int_add (by decide) h, show f32Int 0 = 0 from rfl, Int.zero_add]
  exact f32Int_roundInt_exact (of_decide_eq_true h).le (natAbs_f32Int x)

theorem f32Add_of_isInf {a x : Word} (ha : f32IsInf a = true) (hx : f32IsFinite x = true) : f32Add a x = a := by
  have hmag : f32Mag a = f32InfMag := of_decide_eq_true ha
  have hnan : f32IsNaN a = false := by simp [f32IsNaN, hmag]
  simp [f32Add, hnan, ha, f32IsNaN_eq_false_of_finite hx, f32IsInf_eq_false_of_finite hx]

/-- Addition to any value that is no NaN keeps the order of finite values: an infinity absorbs both. -/
theorem f32Le_add_left {a x y : Word} (ha : f32IsNaN a = false) (hx : f32IsFinite x = true)
    (hy : f32IsFinite y = true) (h : f32Int x ≤ f32Int y) : f32Le (f32Add a x) (f32Add a y) = true := by
  rw [f32Le_iff]
  rcases f32IsFinite_or_isInf ha with hfin | hinf
  · exact ⟨f32IsNaN_add hfin hx, f32IsNaN_add hfin hy, f32Int_add_mono hfin hfin hx hy le_rfl h⟩
  · rw [f32Add_of_isInf hinf hx, f32Add_of_isInf hinf hy]
    exact ⟨ha, ha, le_rfl⟩

/-- What lies between zero and a finite value is finite. -/
theorem f32IsFinite_of_between {x y : Word} (h0 : 0 ≤ f32Int x) (h : f32Int x ≤ f32Int y)
    (hy : f32IsFinite y = true) : f32IsFinite x = true := by
  have hx := natAbs_f32Int x
  have hy' := natAbs_f32Int y
  have hle : f32Units x ≤ f32Units y := by omega
  exact decide_eq_true ((f32MagUnits_le_iff.1 hle).trans_lt (of_decide_eq_true hy))

theorem f32Mul_comm_of_finite {a b : Word} (ha : f32IsFinite a = true) (hb : f32IsFinite b = true) :
    f32Mul a b = f32Mul b a := by
  rw [f32Mul_eq ha hb, f32Mul_eq hb ha, Nat.mul_comm, bne_comm]

/-- A factor in `[0, 1]` takes a value that is not negative nearer to zero. -/
theorem f32Mul_atMostOne_between {p d : Word} (hp : atMostOne p) (hd : f32IsFinite d = true) (h0 : 0 ≤ f32Int d) :
    f32IsFinite (f32Mul p d) = true ∧ 0 ≤ f32Int (f32Mul p d) ∧ f32Int (f32Mul p d) ≤ f32Int d := by
  obtain ⟨-, hp0, hp1⟩ := (atMostOne_iff p).1 hp
  have h := f32Int_mul_between hp.f32IsFinite hd hp0 hp1
  rwa [min_eq_left h0, max_eq_right h0] at h

/-- The product of two values in `[0, 1]` is at most the first. -/
theorem atMostOne_mul {p l : Word} (hp : atMostOne p) (hl : atMostOne l) :
    atMostOne (f32Mul p l) ∧ f32Int (f32Mul p l) ≤ f32Int p := by
  obtain ⟨-, hp0, hp1⟩ := (atMostOne_iff p).1 hp
  obtain ⟨hfin, hlow, hhigh⟩ := f32Mul_atMostOne_between hl hp.f32IsFinite hp0
  rw [f32Mul_comm_of_finite hp.f32IsFinite hl.f32IsFinite, atMostOne_iff]
  exact ⟨⟨f32IsNaN_eq_false_of_finite hfin, hlow, hhigh.trans hp1⟩, hhigh⟩

/-! ## The rescaled term -/

/-- The term `(x ×f DELTA) +f MIN_DELAY` of R127 under an effect, for the depth scaled to `x`. -/
def delayTerm (e : Effect) (x : Word) : Word := f32Add (f32Mul x (effectDelta e)) minDelay

theorem effectConsistent_iff (s : State) :
    effectConsistent s ↔ s.delta = effectDelta s.effect ∧ s.cmask = effectMask s.effect := by
  unfold effectConsistent
  cases s.effect <;> rfl

theorem offsetMs_eq {s : State} (h : effectConsistent s) (lfo : Word) :
    offsetMs s lfo =
      f32Add (s.pChorusOfs &&& effectMask s.effect) (delayTerm s.effect (f32Mul s.pDepth lfo)) := by
  obtain ⟨hdelta, hcmask⟩ := (effectConsistent_iff s).1 h
  rw [offsetMs, hdelta, hcmask]; rfl

theorem f32IsFinite_effectDelta (e : Effect) : f32IsFinite (effectDelta e) = true := by cases e <;> decide
theorem f32Sign_effectDelta (e : Effect) : f32Sign (effectDelta e) = false := by cases e <;> decide

theorem f32Int_effectDelta_nonneg (e : Effect) : 0 ≤ f32Int (effectDelta e) := by
  rw [f32Int_eq_signed, f32Sign_effectDelta]; exact Int.natCast_nonneg _

theorem f32IsFinite_effectDelta_add_minDelay (e : Effect) : f32IsFinite (f32Add (effectDelta e) minDelay) = true := by
  cases e <;> decide +kernel

section
variable {x y : Word} (e : Effect)

theorem f32Int_delayTerm_mono (hx : atMostOne x) (hy : atMostOne y) (h : f32Int x ≤ f32Int y) :
    f32Int (delayTerm e x) ≤ f32Int (delayTerm e y) := by
  obtain ⟨hxfin, -, -⟩ := f32Mul_atMostOne_between hx (f32IsFinite_effectDelta e) (f32Int_effectDelta_nonneg e)
  obtain ⟨hyfin, -, -⟩ := f32Mul_atMostOne_between hy (f32IsFinite_effectDelta e) (f32Int_effectDelta_nonneg e)
  have hmul := f32Int_mul_mono hx.f32IsFinite hy.f32IsFinite (f32IsFinite_effectDelta e) (f32Sign_effectDelta e) h
  exact f32Int_add_mono hxfin hyfin (by decide) (by decide) hmul le_rfl

/-- The product is at least 0, so the term is at least MIN_DELAY. -/
theorem f32Int_minDelay_le_delayTerm (hx : atMostOne x) : f32Int minDelay ≤ f32Int (delayTerm e x) := by
  obtain ⟨hfin, hlow, -⟩ := f32Mul_atMostOne_between hx (f32IsFinite_effectDelta e) (f32Int_effectDelta_nonneg e)
  calc f32Int minDelay = f32Int (f32Add 0 minDelay) := (f32Int_zero_add (by decide)).symm
    _ ≤ f32Int (delayTerm e x) := f32Int_add_mono (by decide) hfin (by decide) (by decide) hlow le_rfl

/-- The product is at most DELTA, so the term does not overflow. -/
theorem f32IsFinite_delayTerm (hx : atMostOne x) : f32IsFinite (delayTerm e x) = true := by
  obtain ⟨hfin, -, hhigh⟩ := f32Mul_atMostOne_between hx (f32IsFinite_effectDelta e) (f32Int_effectDelta_nonneg e)
  have hmin : 0 ≤ f32Int minDelay := by decide +kernel
  refine f32IsFinite_of_between (hmin.trans (f32Int_minDelay_le_delayTerm e hx)) ?_
    (f32IsFinite_effectDelta_add_minDelay e)
  exact f32Int_add_mono hfin (f32IsFinite_effectDelta e) (by decide) (by decide) hhigh le_rfl

/-! ## The offset -/

/-- R129 adds the masked chorus offset to a term between MIN_DELAY and the term of the full depth. -/
theorem f32Add_delayTerm_between {a : Word} (ha : f32IsNaN a = false) (hx : atMostOne x) (hy : atMostOne y)
    (h : f32Int x ≤ f32Int y) :
    f32Le (f32Add a minDelay) (f32Add a (delayTerm e x)) = true ∧
      f32Le (f32Add a (delayTerm e x)) (f32Add a (delayTerm e y)) = true :=
  ⟨f32Le_add_left ha (by decide) (f32IsFinite_delayTerm e hx) (f32Int_minDelay_le_delayTerm e hx),
    f32Le_add_left ha (f32IsFinite_delayTerm e hx) (f32IsFinite_delayTerm e hy) (f32Int_delayTerm_mono e hx hy h)⟩

end

theorem f32Le_of_f32Le_zero_add {x y : Word} (hy : f32IsFinite y = true) (h : f32Le x (f32Add 0 y) = true) :
    f32Le x y = true := by
  rw [f32Le_iff, f32Int_zero_add hy] at h
  obtain ⟨hxnan, -, hle⟩ := h
  exact (f32Le_iff x y).2 ⟨hxnan, f32IsNaN_eq_false_of_finite hy, hle⟩

/-- CMASK passes the chorus offset under chorus alone (R128). -/
theorem and_effectMask (v : Word) (e : Effect) : v &&& effectMask e = if e = .chorus then v else 0 := by
  cases e with
  | chorus => exact BitVec.and_allOnes
  | flanger | vibrato => exact BitVec.and_zero

/-- Settles O55: the depth scaled by the LFO is at most the depth, and the chorus offset is added to both bounds or is 0. -/
theorem offsetStaysBounded : Obligations.OffsetStaysBounded := by
  intro s lfo hcons hd0 hd1 hl0 hl1
  have hdepth : atMostOne s.pDepth := ⟨hd0, hd1⟩
  obtain ⟨hscaled, hle⟩ := atMostOne_mul hdepth (⟨hl0, hl1⟩ : atMostOne lfo)
  have hdelta := ((effectConsistent_iff s).1 hcons).1
  rw [offsetMs_eq hcons, and_effectMask, hdelta]
  refine ⟨fun heffect => ?_, fun heffect hofs => ?_⟩
  · obtain ⟨hlow, hhigh⟩ := f32Add_delayTerm_between s.effect (a := 0) (by decide) hscaled hdepth hle
    rw [if_neg heffect]
    rw [show f32Add 0 minDelay = 0x3C23D70A by decide +kernel] at hlow
    exact ⟨hlow, f32Le_of_f32Le_zero_add (f32IsFinite_delayTerm s.effect hdepth) hhigh⟩
  · obtain ⟨-, hnan, -⟩ := (f32Le_iff _ _).1 hofs
    rw [if_pos heffect]
    exact f32Add_delayTerm_between s.effect hnan hscaled hdepth hle

end Sys2Proof.Machine
end

section
/-! `cfg_ok` in exact arithmetic (43_system.md R142): a doubling is not rounded unless it overflows, and L is a binary32. -/

namespace Sys2Proof.Machine

/-! ## Doubling -/

/-- Twice a magnitude is a magnitude: the same significand, one binade up. -/
theorem exists_f32MagUnits_two_mul (m : Nat) : ∃ n, f32MagUnits n = 2 * f32MagUnits m := by
  obtain ⟨t, r, rfl, hr, hbinade⟩ := exists_significand m
  obtain ⟨n, hn⟩ := exists_f32MagUnits_eq (t + 1) hr.le
  exact ⟨n, by rw [hn, f32MagUnits_code (isSignificand_of hr.le hbinade), pow_succ]; ring⟩

theorem f32Sign_eq_false_of_pos {x : Word} (h : 0 < f32Int x) : f32Sign x = false := by
  rcases hsign : f32Sign x with _ | _
  · rfl
  · simp only [f32Int, hsign, if_true] at h
    omega

theorem f32Int_eq_units_of_pos {x : Word} (h : 0 < f32Int x) : f32Int x = f32Units x := by
  rcases f32Int_nonneg_or x with ⟨-, heq⟩ | ⟨hle, -⟩
  · exact heq
  · omega

theorem f32Units_two : f32Units twoF = 2 ^ 149 * 2 := by decide +kernel

/-- Twice a positive value is packed as its exact magnitude, or as infinity where that has no finite one. -/
theorem exists_f32Mul_two_eq {x : Word} (hx : f32IsFinite x = true) (h0 : 0 < f32Int x) :
    ∃ n, f32Mul twoF x = f32Pack false (min f32InfMag n) ∧ (f32MagUnits n : Int) = 2 * f32Int x := by
  obtain ⟨n, hn⟩ := exists_f32MagUnits_two_mul (f32Mag x)
  refine ⟨n, ?_, ?_⟩
  · have hprod : f32Units twoF * f32Units x = 2 ^ 149 * f32MagUnits n := by
      rw [f32Units_two, hn, mul_assoc]; rfl
    rw [f32Mul_eq (by decide) hx, hprod, f32RoundMag_eq_min, roundCode_exact (Nat.two_pow_pos 149),
      f32Sign_eq_false_of_pos h0]
    rfl
  · rw [hn, f32Int_eq_units_of_pos h0]; push_cast; rfl

/-- A product by 2 compares with a finite value as the exact product does: an overflow is above every finite value. -/
theorem f32Le_two_mul_iff {x c : Word} (hx : f32IsFinite x = true) (h0 : 0 < f32Int x) (hc : f32IsFinite c = true) :
    f32Le (f32Mul twoF x) c = true ↔ 2 * f32Int x ≤ f32Int c := by
  obtain ⟨n, hmul, hn⟩ := exists_f32Mul_two_eq hx h0
  have hlt : min f32InfMag n < 2 ^ 31 := (min_le_left _ _).trans_lt f32InfMag_lt
  have hunits : f32Int (f32Mul twoF x) = min (f32MagUnits f32InfMag : Int) (2 * f32Int x) := by
    rw [hmul, f32Int_pack_eq_signed false hlt, f32MagUnits_strictMono.monotone.map_min, ← hn, ← Nat.cast_min]
    rfl
  have hbelow : f32Int c < f32MagUnits f32InfMag := by
    have habs := natAbs_f32Int c
    have hmag : f32Units c < f32MagUnits f32InfMag := f32MagUnits_lt_iff.2 (of_decide_eq_true hc)
    omega
  have hnan : f32IsNaN (f32Mul twoF x) = false := by rw [hmul]; exact f32IsNaN_pack false (min_le_left _ _)
  rw [f32Le_iff, hunits, min_le_iff]
  simp [hnan, f32IsNaN_eq_false_of_finite hc, hbelow]

theorem f32Lt_zero_iff {x : Word} (hx : f32IsFinite x = true) : f32Lt zeroF x = true ↔ 0 < f32Int x := by
  have hzero : f32Int zeroF = 0 := rfl
  have hnan : f32IsNaN zeroF = false := by decide
  simp [f32Lt, hzero, hnan, f32IsNaN_eq_false_of_finite hx]

/-! ## The buffer length -/

/-- `L = 2^LOG2_L` is a power of two below the overflow bound. -/
theorem isF32Value_bufLen {b : Build} (hb : b.sizesLegal = true) : IsF32Value (2 ^ 149 * (b.bufLen : Int)) := by
  have habs : (2 ^ 149 * (b.bufLen : Int)).natAbs = 1 * 2 ^ (149 + b.log2L) := by
    rw [Int.natAbs_mul, Int.natAbs_natCast, Build.bufLen, pow_add, one_mul]; rfl
  have hlog := sizes_log2L_le hb
  have hlt : 2 ^ (149 + b.log2L) < 2 ^ 277 := by gcongr <;> omega
  exact isF32Value_of_natAbs_eq habs (by decide) (by rwa [habs, one_mul])

theorem f32IsFinite_bufLenF {b : Build} (hb : b.sizesLegal = true) : f32IsFinite (bufLenF b) = true := by
  rw [bufLenF, f32OfInt_eq_roundInt]
  exact (isF32Value_bufLen hb).f32IsFinite_roundInt

theorem f32Int_bufLenF {b : Build} (hb : b.sizesLegal = true) : f32Int (bufLenF b) = b.bufLen * 2 ^ 149 := by
  rw [bufLenF, f32OfInt_eq_roundInt, (isF32Value_bufLen hb).f32Int_roundInt, mul_comm]

/-- Settles O25: of a finite positive rate the doubled one is compared exactly with L. -/
theorem usableRateMeansTwoSecondsFit : Obligations.UsableRateMeansTwoSecondsFit := by
  intro b fs hb
  rw [cfgOk, Bool.and_eq_true, Bool.and_eq_true, and_assoc]
  refine and_congr_right fun hfin => ?_
  rw [f32Lt_zero_iff hfin]
  refine and_congr_right fun hpos => ?_
  rw [f32Le_two_mul_iff hfin hpos (f32IsFinite_bufLenF hb), f32Int_bufLenF hb]

end Sys2Proof.Machine
end

section
/-! The system commands (43_system.md R139 to R146): the reads and NOP only answer, CONFIG writes the configuration alone,
and CLR_STATUS alone takes a sticky bit away (60_exceptions.md R148). -/

namespace Sys2Proof.Machine

/-! ## The sticky bits -/

/-- The writes of no other command reach STATUS: only its end sets a bit. -/
theorem Commits.sticky_eq {i : Instr} {s u : State} (hu : Commits s i u) (hi : ∀ m, i ≠ .clrStatus m) :
    u.sticky = s.sticky := by
  cases hu with
  | clrStatus m => exact absurd rfl (hi m)
  | oscGen ch | oscGenu ch => exact sticky_advance s ch
  | dlOfs => exact sticky_placeRead ..
  | dlUpd | dlUpdx | dlUpde => exact sticky_updateState ..
  | modUpdate => rw [sticky_updateState, sticky_modulated]
  | dlDrywet | setFeedback | setEffect => exact sticky_recomputeMix _
  | _ => rfl

/-- Settles O12: a rejection and a commit both end in setting the bit of their own code. -/
theorem onlyClrStatusClearsStickyBits : Obligations.OnlyClrStatusClearsStickyBits := by
  intro i s t r hi hexec hrsp
  rcases exec_next_cases hexec with ⟨code, -, rfl⟩ | ⟨code, v, u, -, hu, rfl⟩
  · obtain rfl : ⟨code, 0⟩ = r := Option.some.inj hrsp
    exact sticky_commit s code 0
  · obtain rfl : ⟨code, v⟩ = r := Option.some.inj hrsp
    rw [sticky_commit, hu.sticky_eq hi]

theorem exec_clrStatus (m : Word) (s : State) :
    exec (.clrStatus m) s = .next (commit .ok 0 { s with sticky := clearSticky s.sticky m }) := rfl

theorem getLsbD_clearSticky (sticky : BitVec 5) (m : Word) {k : Nat} (hk : k < 5) :
    (clearSticky sticky m).getLsbD k = (sticky.getLsbD k && !m.getLsbD k) := by
  simp [clearSticky, hk]

/-- Settles O29: OK sets no bit again, and no other register is written. -/
theorem clrStatusClearsNamedBits : Obligations.ClrStatusClearsNamedBits := by
  refine fun s m => ⟨_, exec_clrStatus m s, rfl, fun k hk => ?_, sameCore_commit .ok 0 { s with sticky := _ }⟩
  rw [sticky_commit, or_stickyBit_ok]
  exact getLsbD_clearSticky s.sticky m hk

/-! ## NOP and CONFIG -/

theorem exec_nop (s : State) : exec .nop s = .next (commit .ok 0 s) := rfl

/-- Settles O23: NOP commits the state before it. -/
theorem nopChangesNothing : Obligations.NopChangesNothing := fun s =>
  ⟨_, exec_nop s, answers_commit .ok 0 rfl, sameCore_commit .ok 0 s⟩

theorem exec_config_of_cfgOk {s : State} {fs : Word} (h : cfgOk s.build fs = true) (mb : Word) :
    exec (.config fs mb) s = .next (commit .ok 0 { s with fs := fs, maxBlock := mb, cfgValid := true }) := if_pos h

theorem exec_config_of_not_cfgOk {s : State} {fs : Word} (h : cfgOk s.build fs = false) (mb : Word) :
    exec (.config fs mb) s = .next (commit .cfgbad 0 s) := if_neg (Bool.eq_false_iff.1 h)

/-- Settles O24: the commit keeps the core of the state with the new configuration; the rejection that of the old one. -/
theorem configStoresUsableRate : Obligations.ConfigStoresUsableRate := by
  refine fun s fs mb => ⟨fun hok => ?_, fun hbad => ?_⟩
  · obtain ⟨⟨hbuild, hfs, hblock, hvalid⟩, hwave, hoscs, hdelays, hcoord⟩ :=
      sameCore_commit .ok 0 { s with fs := fs, maxBlock := mb, cfgValid := true }
    exact ⟨_, exec_config_of_cfgOk hok mb, answers_commit .ok 0 rfl, hfs, hblock, hvalid, hbuild, hwave, hoscs, hdelays,
      hcoord⟩
  · exact ⟨_, exec_config_of_not_cfgOk hbad mb, rejectedWith_commit .cfgbad s⟩

/-! ## The observation reads -/

/-- The register map ends at 0x1E. -/
theorem regValue_eq_none (s : State) {r : Nat} (hr : 0x1F ≤ r) : regValue s r = none := by
  unfold regValue
  split
  case h_32 => rfl
  all_goals omega

/-- Settles O26: a register below 0x1F is the map's entry, and there is none above. -/
theorem readRegAnswersRegisterMap : Obligations.ReadRegAnswersRegisterMap := by
  refine fun s r => ⟨fun hr => ?_, fun hr => ?_⟩
  · exact ⟨_, exec_readReg_of_some (regValue_eq_registerMap s hr), answers_commit .ok _ rfl, sameCore_commit .ok _ s⟩
  · exact ⟨_, exec_readReg_of_none (regValue_eq_none s hr), rejectedWith_commit .range s⟩

/-- Settles O27: the address is compared with L and not masked. -/
theorem readBufAnswersBufferWord : Obligations.ReadBufAnswersBufferWord := by
  refine fun s ch a => ⟨fun ha => ?_, fun ha => ?_⟩
  · exact ⟨_, exec_readBuf_of_lt ha ch, answers_commit .ok _ rfl, sameCore_commit .ok _ s⟩
  · exact ⟨_, exec_readBuf_of_not_lt ha.not_gt ch, rejectedWith_commit .range s⟩

/-- Below N the mask of `RomRead` changes nothing. -/
theorem romRead_of_lt {b : Build} (hb : b.sizesLegal = true) (w : Nat) {i : Word} (hi : i.toNat < b.tableLen) :
    romRead b w i = (romTable b.rom w).getD i.toNat 0 := by
  rw [romRead_eq hb, tableWord, Nat.mod_eq_of_lt hi]

/-- Settles O28: both operands in range answer the word of the table named, and either one out of range is RANGE. -/
theorem readRomAnswersTableWord : Obligations.ReadRomAnswersTableWord := by
  refine fun s w i hs => ⟨fun hw hi => ?_, fun hout => ?_⟩
  · rw [← romRead_of_lt hs w.toNat hi]
    exact ⟨_, exec_readRom_of_lt ⟨hw, hi⟩, answers_commit .ok _ rfl, sameCore_commit .ok _ s⟩
  · have hnot : ¬ (w.toNat < 4 ∧ i.toNat < s.build.tableLen) := by omega
    exact ⟨_, exec_readRom_of_not_lt hnot, rejectedWith_commit .range s⟩

end Sys2Proof.Machine
end
